-- ==== Sys2Proof/Word.lean ====
section
/-! DEFINITION. The words the block moves: 32-bit headers, and beats held in a 64-bit word (log 10). -/

namespace Sys2Proof

/-- One sample, coefficient or result beat. A beat is `W` bits wide (20_memory.md R63); the model holds it in 64 bits,
and for binary32 the upper 32 bits of a stored beat are 0 (log 10; `Machine.State.widthOk` in Safety.lean). -/
abbrev Word := BitVec 64

/-- A command header or a response header: 32 bits (30_encoding.md R80, R84). -/
abbrev Header := BitVec 32

/-- A byte, met only where a host carries words over a byte-wide medium (20_memory.md R61). -/
abbrev Byte := BitVec 8

end Sys2Proof
end

