-- ==== Sys2Proof/Config.lean ====
section
/-! DEFINITION. What the building of one block fixes (the two straps' types) and the values the spec leaves open:
opaque constants without a body, so that no proof can know them. -/

namespace Sys2Proof

/-- The sample format strap `FMT` (00_scope.md R5). -/
inductive Fmt where
  | binary32
  | binary64
  deriving DecidableEq, Repr

/-- The realization strap `TOPO` (00_scope.md R6), in the spec's order 0 to 3. -/
inductive Topo where
  | direct
  | canonical
  | directTranspose
  | canonicalTranspose
  deriving DecidableEq, Repr

/-- `SIN64` of 00_scope.md R7: a total function of its binary64 operand alone, a model argument (log 8). -/
opaque Config.sin64 : Word → Word

/-- `COS64` of 00_scope.md R7 (log 8). -/
opaque Config.cos64 : Word → Word

/-- `TAN64` of 00_scope.md R7 (log 8). -/
opaque Config.tan64 : Word → Word

/-- The free bits of a NaN result (41_transform.md R146): which NaN comes out of the operation at one place of one
rule's formula, in one format, for its operands (log 7, log 9). -/
opaque Config.nanDraw : Nat → Fmt → Word → Word → Word

/-- The free bits of a port word met at the wrong width (30_encoding.md R89, 70_reset_and_hazards.md R238 against
20_memory.md R61), fresh for every event of the port (log 6). -/
opaque Config.freeBits : Nat → Word

/-- The free bits of the NaN that the assembler's word `nan` stands for (30_encoding.md R93; log 14). -/
opaque Config.asmNanDraw : Fmt → Word

end Sys2Proof
end

