-- ==== Sys2Proof/Machine/Format.lean ====
section
/-! DEFINITION. The numbers of the two sample formats and the codes of the two straps. -/

namespace Sys2Proof

/-- `W`, the width of a beat (00_scope.md R5). -/
def Fmt.width : Fmt → Nat
  | .binary32 => 32
  | .binary64 => 64

/-- Width of the fraction field (R16: the IEEE 754 interchange formats). -/
def Fmt.fracBits : Fmt → Nat
  | .binary32 => 23
  | .binary64 => 52

/-- Width of the exponent field (R16). -/
def Fmt.expBits : Fmt → Nat
  | .binary32 => 8
  | .binary64 => 11

/-- The format's unit is `2^-unitBits`, its smallest subnormal: every finite value is a whole number of units. -/
def Fmt.unitBits : Fmt → Nat
  | .binary32 => 149
  | .binary64 => 1074

/-- The bits of a pattern below its sign, for +infinity: all exponent bits 1, fraction 0. -/
def Fmt.infMag (T : Fmt) : Nat := (2 ^ T.expBits - 1) * 2 ^ T.fracBits

/-- The strap's code in the status word (10_state.md R36). -/
def Fmt.code : Fmt → BitVec 1
  | .binary32 => 0
  | .binary64 => 1

/-- The strap's code in the status word (00_scope.md R6, 10_state.md R36). -/
def Topo.code : Topo → BitVec 2
  | .direct => 0
  | .canonical => 1
  | .directTranspose => 2
  | .canonicalTranspose => 3

/-- The `W` bits of a beat (R92: taken bit for bit). -/
def Fmt.clip (T : Fmt) (w : Word) : Word :=
  match T with
  | .binary32 => (w.setWidth 32).setWidth 64
  | .binary64 => w

/-- Does a word fit a beat of the format? -/
def Fmt.fits (T : Fmt) (w : Word) : Bool := decide (w.toNat < 2 ^ T.width)

/-- `<TOPO>` in the configuration string (R2). -/
def Topo.tag : Topo → String
  | .direct => "D"
  | .canonical => "C"
  | .directTranspose => "DT"
  | .canonicalTranspose => "CT"

/-- `<FMT>` in the configuration string (R2). -/
def Fmt.tag : Fmt → String
  | .binary32 => "b32"
  | .binary64 => "b64"

/-- The configuration string that identifies a configured block (R2). -/
def configString (topo : Topo) (T : Fmt) : String :=
  "biquad_iir_filter-" ++ topo.tag ++ "-" ++ T.tag

end Sys2Proof
end

