-- ==== Sys2Proof/Syntax.lean ====
section
/-! DEFINITION. The commands of the block, the causes it reports, and what a host can do at its port. -/

namespace Sys2Proof

/-- One command with its operands: one constructor per row of the opcode map (30_encoding.md R86). Operand beats
stand in the order of the map; `idx` is the header's `IDX` field (R82). -/
inductive Instr where
  /-- CLR: zero the history (40_control.md R111). -/
  | clr
  /-- SETC: load a coefficient set (40_control.md R112). -/
  | setc (a0 a1 a2 b1 b2 c0 d0 : Word)
  /-- XFORM: filter one sample (41_transform.md R140). -/
  | xform (x : Word)
  /-- STQ: read the storage component (41_transform.md R150). -/
  | stq
  /-- RDC: read a coefficient (40_control.md R113). -/
  | rdc (idx : BitVec 4)
  /-- RDS: read a history register (40_control.md R114). -/
  | rds (idx : BitVec 4)
  /-- RDSTAT: read the status word (40_control.md R115). -/
  | rdstat
  /-- GLPF1: first-order low-pass (42_coefficient_generators.md R171). -/
  | glpf1 (fs fc : Word)
  /-- GHPF1: first-order high-pass (R172). -/
  | ghpf1 (fs fc : Word)
  /-- GAPF1: first-order all-pass (R173). -/
  | gapf1 (fs fc : Word)
  /-- GLPF2: second-order low-pass (R174). -/
  | glpf2 (fs fc q : Word)
  /-- GHPF2: second-order high-pass (R175). -/
  | ghpf2 (fs fc q : Word)
  /-- GAPF2: second-order all-pass (R176). -/
  | gapf2 (fs fc q : Word)
  deriving DecidableEq, Repr

/-- The cause of a failed command (60_exceptions.md R202). Cause 0 is "none"; 6 to 15 are never produced. -/
inductive Cause where
  | illegalOpcode
  | reservedField
  | indexRange
  | notLoaded
  | badArgument
  deriving DecidableEq, Repr

/-- What the host does at the block: it sends a 32-bit word (a header, or a binary32 beat), a 64-bit word (a binary64
beat), or applies hardware reset (20_memory.md R63, 70_reset_and_hazards.md R230, R243). The block cannot see what
the host meant a word to be (20_memory.md R67). -/
inductive PortEvent where
  | narrow (w : BitVec 32)
  | wide (w : BitVec 64)
  | reset
  deriving DecidableEq, Repr

end Sys2Proof
end

