-- ==== Sys2Proof/WellFormed.lean ====
section
/-! DEFINITION. When a command as a term is one that a header and beats of the format can carry. -/

namespace Sys2Proof

/-- The operand beats of a command, in the order of the opcode map (30_encoding.md R86). -/
def Instr.beats : Instr → List Word
  | .clr => []
  | .setc a0 a1 a2 b1 b2 c0 d0 => [a0, a1, a2, b1, b2, c0, d0]
  | .xform x => [x]
  | .stq => []
  | .rdc _ => []
  | .rds _ => []
  | .rdstat => []
  | .glpf1 fs fc => [fs, fc]
  | .ghpf1 fs fc => [fs, fc]
  | .gapf1 fs fc => [fs, fc]
  | .glpf2 fs fc q => [fs, fc, q]
  | .ghpf2 fs fc q => [fs, fc, q]
  | .gapf2 fs fc q => [fs, fc, q]

/-- The legal `IDX` values (30_encoding.md R82): 0 to 6 for RDC, 0 to 3 for RDS. -/
def Instr.idxLegal : Instr → Bool
  | .rdc idx => decide (idx.toNat ≤ 6)
  | .rds idx => decide (idx.toNat ≤ 3)
  | _ => true

/-- Well formed for a format: a legal index, and operands of at most `W` bits (20_memory.md R63). -/
def Instr.wellFormed (T : Fmt) (i : Instr) : Bool := i.idxLegal && i.beats.all T.fits

end Sys2Proof
end

