-- ==== Sys2Proof/Decode.lean ====
section
/-! DEFINITION. The decoder (30_encoding.md R87) over the events at the port, and after it the encoder (R80, R81, R86),
and how words are carried over a byte-wide medium (20_memory.md R61). -/

namespace Sys2Proof

/-- What the block reads at its port. -/
inductive Decoded where
  /-- a whole legal transaction: the command and what stands behind it -/
  | run (i : Instr) (rest : List PortEvent)
  /-- a transaction that raises InvalidState(cause) (R88): its opcode, the cause, what stands behind it -/
  | reject (opc : BitVec 8) (cause : Cause) (rest : List PortEvent)
  /-- hardware reset, an incomplete transaction before it discarded (70_reset_and_hazards.md R230) -/
  | reset (rest : List PortEvent)
  /-- nothing at the port -/
  | awaitHeader
  /-- a transaction that lacks `missing` beats (R238) -/
  | awaitBeats (missing : Nat)
  deriving DecidableEq, Repr

/-- What becomes of a demand for operand beats. -/
inductive Taken where
  | got (beats : List Word) (rest : List PortEvent)
  | reset (rest : List PortEvent)
  | short (missing : Nat)
  deriving DecidableEq, Repr

/-- `nin(OPC)` of the opcode map (R86); `none` for an opcode the map does not list. -/
def nin (opc : BitVec 8) : Option Nat :=
  match opc.toNat with
  | 0x01 => some 0
  | 0x02 => some 7
  | 0x03 => some 1
  | 0x04 => some 0
  | 0x05 => some 0
  | 0x06 => some 0
  | 0x07 => some 0
  | 0x10 => some 2
  | 0x11 => some 2
  | 0x12 => some 2
  | 0x18 => some 3
  | 0x19 => some 3
  | 0x1A => some 3
  | _ => none

/-- The fields of a header (R80, R15). -/
def opcField (hdr : Header) : BitVec 8 := hdr.extractLsb' 24 8

/-- `IDX`, bits 23 to 20 (R80). -/
def idxField (hdr : Header) : BitVec 4 := hdr.extractLsb' 20 4

/-- `RSV`, bits 19 to 0 (R80). -/
def rsvField (hdr : Header) : BitVec 20 := hdr.extractLsb' 0 20

/-- A port word read as a header. A 32-bit word is the header; of a 64-bit word the spec does not say which bits a
header is read from, so the header is free (log 6). A reset is no word; the decoder never asks. -/
def PortEvent.asHeader (d : Nat) : PortEvent → Header
  | .narrow w => w
  | .wide _ => (Config.freeBits d).setWidth 32
  | .reset => 0

/-- A port word read as an operand beat of the format (R81, R92). A 32-bit word where 64 bits are expected gives the
low half and the high half is free; a 64-bit word where 32 bits are expected leaves the beat free (log 6). -/
def PortEvent.asBeat (T : Fmt) (d : Nat) (e : PortEvent) : Word :=
  match T, e with
  | .binary32, .narrow w => w.setWidth 64
  | .binary32, .wide _ => ((Config.freeBits d).setWidth 32).setWidth 64
  | .binary64, .wide w => w
  | .binary64, .narrow w => (Config.freeBits d).setWidth 32 ++ w
  | _, .reset => 0

/-- Take `n` operand beats (R87), unless the words end or a reset comes first (R230, R238). -/
def takeBeats (T : Fmt) (d : Nat) : Nat → List PortEvent → Taken
  | 0, rest => .got [] rest
  | n + 1, [] => .short (n + 1)
  | n + 1, e :: rest =>
    if e = .reset then .reset rest
    else
      match takeBeats T (d + 1) n rest with
      | .got ws rest' => .got (e.asBeat T d :: ws) rest'
      | .reset rest' => .reset rest'
      | .short k => .short k

/-- The command that an opcode, an index and the operand beats stand for (R86). -/
def build (opc : BitVec 8) (idx : BitVec 4) (beats : List Word) : Option Instr :=
  match opc.toNat, beats with
  | 0x01, [] => some .clr
  | 0x02, [a0, a1, a2, b1, b2, c0, d0] => some (.setc a0 a1 a2 b1 b2 c0 d0)
  | 0x03, [x] => some (.xform x)
  | 0x04, [] => some .stq
  | 0x05, [] => some (.rdc idx)
  | 0x06, [] => some (.rds idx)
  | 0x07, [] => some .rdstat
  | 0x10, [fs, fc] => some (.glpf1 fs fc)
  | 0x11, [fs, fc] => some (.ghpf1 fs fc)
  | 0x12, [fs, fc] => some (.gapf1 fs fc)
  | 0x18, [fs, fc, q] => some (.glpf2 fs fc q)
  | 0x19, [fs, fc, q] => some (.ghpf2 fs fc q)
  | 0x1A, [fs, fc, q] => some (.gapf2 fs fc q)
  | _, _ => none

/-- The checks of R87 on a header whose opcode is legal, in the order written; `none` when they all pass. -/
def headerError (hdr : Header) : Option Cause :=
  let opc := (opcField hdr).toNat
  let idx := (idxField hdr).toNat
  if rsvField hdr ≠ 0 then some .reservedField
  else if (opc ≠ 0x05 ∧ opc ≠ 0x06) ∧ idx ≠ 0 then some .reservedField
  else if opc = 0x05 ∧ 6 < idx then some .indexRange
  else if opc = 0x06 ∧ 3 < idx then some .indexRange
  else none

/-- R87 after its beats are taken. -/
def decodeBody (hdr : Header) (beats : List Word) (rest : List PortEvent) : Decoded :=
  match headerError hdr with
  | some cause => .reject (opcField hdr) cause rest
  | none =>
    match build (opcField hdr) (idxField hdr) beats with
    | some i => .run i rest
    | none => .reject (opcField hdr) .illegalOpcode rest

/-- R87 on a header and the events behind it; `d` numbers the free values. -/
def decodeFrom (T : Fmt) (d : Nat) (hdr : Header) (rest : List PortEvent) : Decoded :=
  match nin (opcField hdr) with
  | none => .reject (opcField hdr) .illegalOpcode rest
  | some n =>
    match takeBeats T d n rest with
    | .got beats rest' => decodeBody hdr beats rest'
    | .reset rest' => .reset rest'
    | .short k => .awaitBeats k

/-- The decoder: total over whatever stands at the port. -/
def decode (T : Fmt) (d : Nat) : List PortEvent → Decoded
  | [] => .awaitHeader
  | .reset :: rest => .reset rest
  | .narrow w :: rest => decodeFrom T (d + 1) (PortEvent.asHeader d (.narrow w)) rest
  | .wide w :: rest => decodeFrom T (d + 1) (PortEvent.asHeader d (.wide w)) rest

/-- `OPC` of each command (R86). -/
def Instr.opcode : Instr → BitVec 8
  | .clr => 0x01
  | .setc _ _ _ _ _ _ _ => 0x02
  | .xform _ => 0x03
  | .stq => 0x04
  | .rdc _ => 0x05
  | .rds _ => 0x06
  | .rdstat => 0x07
  | .glpf1 _ _ => 0x10
  | .ghpf1 _ _ => 0x11
  | .gapf1 _ _ => 0x12
  | .glpf2 _ _ _ => 0x18
  | .ghpf2 _ _ _ => 0x19
  | .gapf2 _ _ _ => 0x1A

/-- `IDX` of each command: 0 but for RDC and RDS (R82, R83). -/
def Instr.index : Instr → BitVec 4
  | .rdc idx => idx
  | .rds idx => idx
  | _ => 0

/-- The header word `{OPC, IDX, RSV = 0}` (R80). -/
def encodeHeader (i : Instr) : Header := i.opcode ++ i.index ++ (0 : BitVec 20)

/-- An operand beat as the port carries it: one word of `W` bits (20_memory.md R63). -/
def beatEvent (T : Fmt) (w : Word) : PortEvent :=
  match T with
  | .binary32 => .narrow (w.setWidth 32)
  | .binary64 => .wide w

/-- A command transaction: the header, then the operand beats (R81). -/
def encode (T : Fmt) (i : Instr) : List PortEvent :=
  .narrow (encodeHeader i) :: i.beats.map (beatEvent T)

/-! ### Over a byte-wide medium (20_memory.md R61) -/

/-- The `n` bytes of a number, least significant first. -/
def leBytes : Nat → Nat → List Byte
  | 0, _ => []
  | n + 1, v => BitVec.ofNat 8 v :: leBytes n (v / 256)

/-- The number whose bytes these are, least significant first. -/
def ofLeBytes : List Byte → Nat
  | [] => 0
  | b :: bs => b.toNat + 256 * ofLeBytes bs

/-- A word's bytes in the order a byte-wide medium carries them. -/
def PortEvent.bytes : PortEvent → List Byte
  | .narrow w => leBytes 4 w.toNat
  | .wide w => leBytes 8 w.toNat
  | .reset => []

/-- The bytes of one operand beat. -/
def Fmt.beatBytes (T : Fmt) : Nat := T.width / 8

/-- Put the next bytes together to `n` operand beats; `none` when they end first. -/
def frameBeats (T : Fmt) : Nat → List Byte → Option (List PortEvent × List Byte)
  | 0, bs => some ([], bs)
  | n + 1, bs =>
    if bs.length < T.beatBytes then none
    else
      match frameBeats T n (bs.drop T.beatBytes) with
      | none => none
      | some (es, rest) =>
        some (beatEvent T (BitVec.ofNat 64 (ofLeBytes (bs.take T.beatBytes))) :: es, rest)

/-- Put the next bytes together to one transaction of whole words: a header, then the beats its opcode needs. -/
def frame (T : Fmt) (bs : List Byte) : Option (List PortEvent × List Byte) :=
  if bs.length < 4 then none
  else
    let hdr : Header := BitVec.ofNat 32 (ofLeBytes (bs.take 4))
    match frameBeats T ((nin (opcField hdr)).getD 0) (bs.drop 4) with
    | none => none
    | some (es, rest) => some (.narrow hdr :: es, rest)

/-! ### A row of the opcode table as words -/

/-- The words of a transaction whose bits are `w`, numbered as spec/opcode_table.json numbers them: the header is
bits 31 to 0, beat `k` the `W` bits from `32 + k * W` on; bits from `nbits` on are 0. -/
def tableEvents (T : Fmt) (nbits w : Nat) : List PortEvent :=
  let v := w % 2 ^ nbits
  let hdr : Header := BitVec.ofNat 32 v
  .narrow hdr ::
    (List.range ((nin (opcField hdr)).getD 0)).map
      (fun k => beatEvent T (BitVec.ofNat 64 (v / 2 ^ (32 + k * T.width) % 2 ^ T.width)))

/-- The command the decoder reads from those words on a binary64 block, the format of `State.reset` (log 1). -/
def decodeTableWord (nbits w : Nat) : Option Instr :=
  match decode .binary64 0 (tableEvents .binary64 nbits w) with
  | .run i _ => some i
  | _ => none

end Sys2Proof
end

