-- ==== Sys2Proof/Machine/State.lean ====
section
/-! DEFINITION. The state of one block (10_state.md R30), what can stop it, and the state right after reset. -/

namespace Sys2Proof.Machine

/-- The coefficient set `(a0, a1, a2, b1, b2, c0, d0)`, `C[0..6]` in this order (10_state.md R31). It is only ever
replaced whole. -/
structure Coeffs (α : Type) where
  a0 : α
  a1 : α
  a2 : α
  b1 : α
  b2 : α
  c0 : α
  d0 : α
  deriving DecidableEq, Repr

/-- The history `{ x_z1, x_z2, y_z1, y_z2 }`, `H[0..3]` in this order (10_state.md R32). -/
structure History (α : Type) where
  x_z1 : α
  x_z2 : α
  y_z1 : α
  y_z2 : α
  deriving DecidableEq, Repr

/-- One response transaction (30_encoding.md R84): a header and, for a successful command with a result, one beat. -/
structure Response where
  header : Header
  beat : Option Word
  deriving DecidableEq, Repr

/-- The state of one block. -/
structure State where
  /-- the strap `TOPO` (R36): written by nothing -/
  topo : Topo
  /-- the strap `FMT` (R36): written by nothing -/
  fmt : Fmt
  /-- `C[0..6]` (R31) -/
  c : Coeffs Word
  /-- `H[0..3]` (R32) -/
  h : History Word
  /-- `LOADED` (R34) -/
  loaded : Bool
  /-- `FLT`, sticky (R35) -/
  flt : Bool
  /-- the model's own: what the host has done at the port and the block has not taken, oldest first (log 3) -/
  rx : List PortEvent
  /-- the model's own: the responses the block has given, oldest first (log 4) -/
  tx : List Response
  /-- the model's own: the index of the next free value of the port (log 6, log 15) -/
  draw : Nat
  deriving DecidableEq, Repr

/-- Why a step cannot be taken. -/
inductive Fault where
  /-- Raised by `step` when the host has sent nothing: the block waits for a header (70_reset_and_hazards.md R232).
  Safe: the block has no step here (R14), and sending words lets it go on. -/
  | awaitingHeader
  /-- Raised by `step` when `missing` operand beats of the transaction at the port have not come: the block has no
  step (00_scope.md R14, 70_reset_and_hazards.md R238). Safe, for the same reason. -/
  | awaitingBeats (missing : Nat)
  deriving DecidableEq, Repr

/-- An instruction without a meaning. -/
inductive Refusal where
  /-- Raised by an arm of `exec` that has no meaning. Safe: the model stops. No arm raises it. -/
  | notModelled (mnemonic : String)
  deriving DecidableEq, Repr

/-- A cleared history: four times `+0.0`, all bits 0 (R43). -/
def History.zero : History Word := ⟨0, 0, 0, 0⟩

/-- The coefficient registers at reset: the spec leaves them unspecified (R43); the model's choice is 0 (log 2). -/
def Coeffs.atReset : Coeffs Word := ⟨0, 0, 0, 0, 0, 0, 0⟩

/-- A block built with these straps, right after power-up reset (70_reset_and_hazards.md R230, R232). -/
def State.init (topo : Topo) (T : Fmt) : State :=
  { topo := topo, fmt := T, c := Coeffs.atReset, h := History.zero, loaded := false, flt := false,
    rx := [], tx := [], draw := 0 }

/-- The machine right after reset: the instance `biquad_iir_filter-CT-b64` (log 1). -/
def State.reset : State := State.init .canonicalTranspose .binary64

end Sys2Proof.Machine
end

