-- ==== Sys2Proof/Machine/Flags.lean ====
section
/-! DEFINITION. The flags and the status word: cause codes (60_exceptions.md R202), response headers (30_encoding.md
R84, R85), `LOADED` and `FLT` (10_state.md R34, R35), the status word (R37). -/

namespace Sys2Proof.Machine

/-- The cause codes of 60_exceptions.md R202. -/
def causeCode : Cause → BitVec 4
  | .illegalOpcode => 1
  | .reservedField => 2
  | .indexRange => 3
  | .notLoaded => 4
  | .badArgument => 5

/-- The response header of a successful command: `ROPC`, `CAUSE` 0, `STATUS` OK (30_encoding.md R84, R85). -/
def okHeader (opc : BitVec 8) : Header :=
  opc ++ (0 : BitVec 16) ++ (0 : BitVec 4) ++ (0 : BitVec 2) ++ (0b00 : BitVec 2)

/-- The response header of a failed command: `ROPC`, `CAUSE`, `STATUS` INVALID_STATE (30_encoding.md R84, R85). -/
def failHeader (opc : BitVec 8) (cause : Cause) : Header :=
  opc ++ (0 : BitVec 16) ++ causeCode cause ++ (0 : BitVec 2) ++ (0b10 : BitVec 2)

/-- `FLT <- 1` (10_state.md R35). -/
def State.setFlt (s : State) : State := { s with flt := true }

/-- `LOADED <- 1` (10_state.md R34). -/
def State.setLoaded (s : State) : State := { s with loaded := true }

/-- The status word (10_state.md R37): `ID` at 31..24, `FLT` at 17, `LOADED` at 16, `FMT` at 8, `TOPO` at 1..0, every
other bit 0. -/
def State.statusWord (s : State) : Word :=
  (0 : BitVec 32) ++ (0xB1 : BitVec 8) ++ (0 : BitVec 6) ++ BitVec.ofBool s.flt ++ BitVec.ofBool s.loaded ++
    (0 : BitVec 7) ++ s.fmt.code ++ (0 : BitVec 6) ++ s.topo.code

end Sys2Proof.Machine
end

