-- ==== Sys2Proof/Machine/Float.lean ====
section
/-! DEFINITION. The arithmetic primitives of 00_scope.md R17 and the snap of R19, exactly: a finite value is a whole
number of the format's units, a result is computed as an exact ratio of whole numbers and rounded once (log 12). -/

namespace Sys2Proof

/-- What a bit pattern stands for (R16): a NaN, an infinity, or `(-1)^neg * units * 2^-unitBits`. The two zeros
differ in `neg`. -/
inductive Val where
  | nan
  | inf (neg : Bool)
  | fin (neg : Bool) (units : Nat)
  deriving DecidableEq, Repr

/-- The bits of a pattern below its sign bit. -/
def Fmt.mag (T : Fmt) (w : Word) : Nat := w.toNat % 2 ^ (T.width - 1)

/-- The sign bit of a pattern, bit `W-1` (R16). -/
def Fmt.sign (T : Fmt) (w : Word) : Bool := w.getLsbD (T.width - 1)

/-- The number of units a finite magnitude pattern stands for: `fraction` for exponent field 0, else
`(2^fracBits + fraction) * 2^(exponent - 1)`. -/
def Fmt.magUnits (T : Fmt) (m : Nat) : Nat :=
  if m / 2 ^ T.fracBits = 0 then m
  else (2 ^ T.fracBits + m % 2 ^ T.fracBits) * 2 ^ (m / 2 ^ T.fracBits - 1)

/-- `fromBits` (R16, R18). -/
def Fmt.unpack (T : Fmt) (w : Word) : Val :=
  if T.infMag < T.mag w then .nan
  else if T.mag w = T.infMag then .inf (T.sign w)
  else .fin (T.sign w) (T.magUnits (T.mag w))

/-- A pattern from its sign and the bits below. -/
def Fmt.pack (T : Fmt) (neg : Bool) (m : Nat) : Word :=
  BitVec.ofNat 64 ((if neg then 2 ^ (T.width - 1) else 0) + m)

/-- roundTiesToEven (R17): the magnitude pattern nearest to `num / den` units; a tie goes to the even pattern; past
the largest finite value, infinity. `q` is the whole part, `e` the number of its bits that do not fit. -/
def Fmt.roundMag (T : Fmt) (num den : Nat) : Nat :=
  let e := Nat.log2 (num / den) - T.fracBits
  let d := den * 2 ^ e
  let m := num / d
  let r := num % d
  let m' := if d < 2 * r ∨ (2 * r = d ∧ m % 2 = 1) then m + 1 else m
  min (e * 2 ^ T.fracBits + m') T.infMag

/-- A NaN whose sign and payload come from the free bits `d` (R146): every NaN of the format is some `d`'s. -/
def Fmt.nanOf (T : Fmt) (d : Word) : Word :=
  T.pack (d.getLsbD 63) (T.infMag + 1 + d.toNat % (2 ^ T.fracBits - 1))

/-- The NaN result of the operation at place `k` of a formula (R146: some NaN; log 7). -/
def Fmt.nanResult (T : Fmt) (k : Nat) (a b : Word) : Word := T.nanOf (Config.nanDraw k T a b)

/-- An infinity. -/
def Fmt.infinity (T : Fmt) (neg : Bool) : Word := T.pack neg T.infMag

/-- A signed number of units as an integer. -/
def signedUnits (neg : Bool) (n : Nat) : Int := if neg then -(n : Int) else n

/-- An exact sum of units, rounded. A zero sum is `-0.0` only when both operands are negative (so `x + (-x)` is `+0.0`,
93_implementation_defined.md K3). -/
def Fmt.roundSum (T : Fmt) (sa : Bool) (a : Nat) (sb : Bool) (b : Nat) : Word :=
  let z := signedUnits sa a + signedUnits sb b
  if z = 0 then T.pack (sa && sb) 0 else T.pack (decide (z < 0)) (T.roundMag z.natAbs 1)

/-- Addition of two values (R17); `nanBits` is the NaN to answer with where the result is a NaN. -/
def Fmt.addVal (T : Fmt) (nanBits : Word) : Val → Val → Word
  | .nan, _ => nanBits
  | _, .nan => nanBits
  | .inf s, .inf t => if s = t then T.infinity s else nanBits
  | .inf s, .fin _ _ => T.infinity s
  | .fin _ _, .inf t => T.infinity t
  | .fin s a, .fin t b => T.roundSum s a t b

/-- A value with its sign flipped. -/
def Val.neg : Val → Val
  | .nan => .nan
  | .inf s => .inf (!s)
  | .fin s n => .fin (!s) n

/-- `fadd_T(a, b)` at place `k` (R17). -/
def Fmt.fadd (T : Fmt) (k : Nat) (a b : Word) : Word :=
  T.addVal (T.nanResult k a b) (T.unpack a) (T.unpack b)

/-- `fsub_T(a, b)` at place `k` (R17). -/
def Fmt.fsub (T : Fmt) (k : Nat) (a b : Word) : Word :=
  T.addVal (T.nanResult k a b) (T.unpack a) (T.unpack b).neg

/-- Multiplication of two values (R17): zero times infinity is a NaN; the sign is the exclusive or of the signs. -/
def Fmt.mulVal (T : Fmt) (nanBits : Word) : Val → Val → Word
  | .nan, _ => nanBits
  | _, .nan => nanBits
  | .inf s, .inf t => T.infinity (s != t)
  | .inf s, .fin t b => if b = 0 then nanBits else T.infinity (s != t)
  | .fin s a, .inf t => if a = 0 then nanBits else T.infinity (s != t)
  | .fin s a, .fin t b => T.pack (s != t) (T.roundMag (a * b) (2 ^ T.unitBits))

/-- `fmul_T(a, b)` at place `k` (R17). -/
def Fmt.fmul (T : Fmt) (k : Nat) (a b : Word) : Word :=
  T.mulVal (T.nanResult k a b) (T.unpack a) (T.unpack b)

/-- Division of two values (R17): `0/0` and infinity by infinity are NaNs, a nonzero value by zero is an infinity. -/
def Fmt.divVal (T : Fmt) (nanBits : Word) : Val → Val → Word
  | .nan, _ => nanBits
  | _, .nan => nanBits
  | .inf _, .inf _ => nanBits
  | .inf s, .fin t _ => T.infinity (s != t)
  | .fin s _, .inf t => T.pack (s != t) 0
  | .fin s a, .fin t b =>
    if b = 0 then (if a = 0 then nanBits else T.infinity (s != t))
    else T.pack (s != t) (T.roundMag (a * 2 ^ T.unitBits) b)

/-- `fdiv_T(a, b)` at place `k` (R17). -/
def Fmt.fdiv (T : Fmt) (k : Nat) (a b : Word) : Word :=
  T.divVal (T.nanResult k a b) (T.unpack a) (T.unpack b)

/-- `fneg(a)`: flips the sign bit, exact (R17), a NaN's too (log 9). -/
def Fmt.fneg (T : Fmt) (a : Word) : Word := a ^^^ BitVec.ofNat 64 (2 ^ (T.width - 1))

/-- `isFinite(v)` (R17). -/
def Fmt.isFinite (T : Fmt) (w : Word) : Bool := decide (T.mag w < T.infMag)

/-- Is the pattern a NaN? -/
def Fmt.isNaN (T : Fmt) (w : Word) : Bool := decide (T.infMag < T.mag w)

/-- The order on values that R19 and R177 compare with; a NaN compares with nothing. -/
def Val.lt : Val → Val → Bool
  | .nan, _ => false
  | _, .nan => false
  | .inf s, .inf t => s && !t
  | .inf s, .fin _ _ => s
  | .fin _ _, .inf t => !t
  | .fin s a, .fin t b => decide (signedUnits s a < signedUnits t b)

/-- `a < b` on bit patterns. -/
def Fmt.flt (T : Fmt) (a b : Word) : Bool := (T.unpack a).lt (T.unpack b)

/-- `MIN_NORMAL_T` (R16): `2^-126` or `2^-1022`, exponent field 1 and fraction 0. -/
def Fmt.minNormal (T : Fmt) : Word := T.pack false (2 ^ T.fracBits)

/-- `snap_T(v)` (R19, 41_transform.md R145). -/
def Fmt.snap (T : Fmt) (v : Word) : Word :=
  if (T.flt 0 v && T.flt v T.minNormal) || (T.flt v 0 && T.flt (T.fneg T.minNormal) v) then 0 else v

/-- A value of format `S` given in format `T`, rounded to nearest, ties to even; `nanBits` where it is a NaN. -/
def Fmt.convert (S T : Fmt) (nanBits : Word) (v : Val) : Word :=
  match v with
  | .nan => nanBits
  | .inf s => T.infinity s
  | .fin s n => T.pack s (T.roundMag (n * 2 ^ T.unitBits) (2 ^ S.unitBits))

/-- `widen64(v)` (R17): exact; the identity on binary64. -/
def Fmt.widen64 (T : Fmt) (k : Nat) (w : Word) : Word :=
  match T with
  | .binary64 => w
  | .binary32 => Fmt.convert .binary32 .binary64 (Fmt.nanResult .binary64 k w 0) (Fmt.unpack .binary32 w)

/-- `round_T(v)` (R17): the identity when `T` is binary64. -/
def Fmt.round64 (T : Fmt) (k : Nat) (w : Word) : Word :=
  match T with
  | .binary64 => w
  | .binary32 => Fmt.convert .binary64 .binary32 (Fmt.nanResult .binary32 k w 0) (Fmt.unpack .binary64 w)

/-- `PI64` (R8). -/
def pi64 : Word := 0x400921FB54442D18#64

/-- The arithmetic a formula is written over: R17's operations, each with the place `k` where it stands, so that the
same formula can be read over the format's words and over exact numbers (R147, R178). -/
structure Arith (α : Type) where
  add : Nat → α → α → α
  sub : Nat → α → α → α
  mul : Nat → α → α → α
  neg : α → α

/-- What the generators use beside it: division, the constants and the three functions of R7. -/
structure DesignArith (α : Type) extends Arith α where
  div : Nat → α → α → α
  zero : α
  half : α
  one : α
  two : α
  pi : α
  sin : α → α
  cos : α → α
  tan : α → α

/-- R17's arithmetic on format `T`. -/
def Fmt.arith (T : Fmt) : Arith Word :=
  { add := T.fadd, sub := T.fsub, mul := T.fmul, neg := T.fneg }

/-- The generators' arithmetic: binary64 (42_coefficient_generators.md, introduction), with given sine, cosine and
tangent. -/
def design64With (sin cos tan : Word → Word) : DesignArith Word :=
  { Fmt.arith .binary64 with
    div := Fmt.fdiv .binary64
    zero := 0x0000000000000000#64
    half := 0x3FE0000000000000#64
    one := 0x3FF0000000000000#64
    two := 0x4000000000000000#64
    pi := pi64
    sin := sin
    cos := cos
    tan := tan }

/-- The generators' arithmetic with the model arguments of R7. -/
def design64 : DesignArith Word := design64With Config.sin64 Config.cos64 Config.tan64

end Sys2Proof
end

