-- ==== Sys2Proof/Machine/Operands.lean ====
section
/-! DEFINITION. The operand forms: operand beats (30_encoding.md R92), the two index spaces (R82), and the operands of
the generators (42_coefficient_generators.md R170, R177). -/

namespace Sys2Proof.Machine

/-- `Opnd(k)` (00_scope.md R18): the `W` bits of an operand beat. -/
def State.opnd (s : State) (w : Word) : Word := s.fmt.clip w

/-- `C[IDX]` for `IDX` in 0..6 (30_encoding.md R82); `none` is an index-range error. -/
def Coeffs.get {α : Type} (c : Coeffs α) (idx : BitVec 4) : Option α :=
  match idx.toNat with
  | 0 => some c.a0
  | 1 => some c.a1
  | 2 => some c.a2
  | 3 => some c.b1
  | 4 => some c.b2
  | 5 => some c.c0
  | 6 => some c.d0
  | _ => none

/-- `H[IDX]` for `IDX` in 0..3 (30_encoding.md R82); `none` is an index-range error. -/
def History.get {α : Type} (h : History α) (idx : BitVec 4) : Option α :=
  match idx.toNat with
  | 0 => some h.x_z1
  | 1 => some h.x_z2
  | 2 => some h.y_z1
  | 3 => some h.y_z2
  | _ => none

/-- A generator's operand, widened to binary64 (42_coefficient_generators.md R170); `k` is its place. -/
def State.wide (s : State) (k : Nat) (w : Word) : Word := s.fmt.widen64 k (s.opnd w)

/-- A binary64 value that R177 accepts as sample rate or resonance: finite and above zero. -/
def positiveFinite (v : Word) : Bool := Fmt.isFinite .binary64 v && Fmt.flt .binary64 0 v

/-- R177 for a first-order generator: `fs` finite and positive, `fc` finite. -/
def firstOrderOk (fs fc : Word) : Bool := positiveFinite fs && Fmt.isFinite .binary64 fc

/-- R177 for a second-order generator: the same, and `Q` finite and positive. -/
def secondOrderOk (fs fc q : Word) : Bool := firstOrderOk fs fc && positiveFinite q

end Sys2Proof.Machine
end

