-- ==== Sys2Proof/Machine/Ops.lean ====
section
/-! DEFINITION. The named operations over the state: responses, the one error operation, the register files, hardware
reset, and the port. -/

namespace Sys2Proof.Machine

/-- What a meaning answers. -/
abbrev Result := Host.Outcome State Fault Refusal

/-- `Respond(OK)` or `Respond(OK, v)` (00_scope.md R18): exactly one response (30_encoding.md R84). -/
def State.respond (s : State) (opc : BitVec 8) (beat : Option Word) : State :=
  { s with tx := s.tx ++ [⟨okHeader opc, beat⟩] }

/-- `raise InvalidState(cause)` (00_scope.md R18, 60_exceptions.md R201): one response with the cause and no beat,
`FLT <- 1`, and nothing else. Every error of the block is this operation. -/
def State.raise (s : State) (opc : BitVec 8) (cause : Cause) : State :=
  { s.setFlt with tx := s.tx ++ [⟨failHeader opc cause, none⟩] }

/-- `for i in 0..3: H[i] <- +0.0` (40_control.md R111). -/
def State.clearHistory (s : State) : State := { s with h := History.zero }

/-- `H <- Hn`, all four registers at once (41_transform.md R140). -/
def State.setHistory (s : State) (h : History Word) : State := { s with h := h }

/-- The update that SETC and every generator share (40_control.md R112, 42_coefficient_generators.md R170): the whole
set, a zero history and `LOADED`, at once. -/
def State.adopt (s : State) (c : Coeffs Word) : State := { s.clearHistory.setLoaded with c := c }

/-- Hardware reset (70_reset_and_hazards.md R230): the state of a block just built with the same straps, with what the
port holds and has answered left standing (log 13). -/
def State.hwReset (s : State) : State :=
  { State.init s.topo s.fmt with rx := s.rx, tx := s.tx, draw := s.draw }

/-- The events up to `rest` are taken from the port; each has had its own free value (log 6). -/
def State.consume (s : State) (rest : List PortEvent) : State :=
  { s with rx := rest, draw := s.draw + (s.rx.length - rest.length) }

/-- The host's move: it does these things at the port (70_reset_and_hazards.md R243). -/
def State.send (s : State) (events : List PortEvent) : State := { s with rx := s.rx ++ events }

end Sys2Proof.Machine
end

