-- ==== Sys2Proof/Machine/Control.lean ====
section
/-! DEFINITION. The control family (40_control.md): CLR, SETC, RDC, RDS, RDSTAT. -/

namespace Sys2Proof.Machine

/-- CLR (R111). -/
def execClr (s : State) : Result := .next (s.clearHistory.respond 0x01 none)

/-- SETC (R112): the seven beats, unchanged. -/
def execSetc (a0 a1 a2 b1 b2 c0 d0 : Word) (s : State) : Result :=
  .next
    ((s.adopt ⟨s.opnd a0, s.opnd a1, s.opnd a2, s.opnd b1, s.opnd b2, s.opnd c0, s.opnd d0⟩).respond 0x02 none)

/-- RDC (R113). The decode check on the index runs first (R203); the decoder never lets an index above 6 through, and
a term that carries one fails here with the same cause (log 11). -/
def execRdc (idx : BitVec 4) (s : State) : Result :=
  match s.c.get idx with
  | none => .next (s.raise 0x05 .indexRange)
  | some v => if s.loaded then .next (s.respond 0x05 (some v)) else .next (s.raise 0x05 .notLoaded)

/-- RDS (R114). As for RDC, an index above 3 fails (log 11). -/
def execRds (idx : BitVec 4) (s : State) : Result :=
  match s.h.get idx with
  | none => .next (s.raise 0x06 .indexRange)
  | some v => .next (s.respond 0x06 (some v))

/-- RDSTAT (R115): the status word as it stands before the command. -/
def execRdstat (s : State) : Result := .next (s.respond 0x07 (some s.statusWord))

end Sys2Proof.Machine
end

