-- ==== Sys2Proof/Machine/Generators.lean ====
section
/-! DEFINITION. The coefficient generators (42_coefficient_generators.md). A formula is written over any arithmetic; the
block runs it in binary64 (`design64`). The numbers `0x<OPC>..` are the places of the operations, which name their NaN
results (log 7). -/

namespace Sys2Proof.Machine

/-- R171: first-order low-pass. -/
def glpf1Formula {α : Type} (A : DesignArith α) (fs fc : α) : Coeffs α :=
  let theta := A.div 0x1002 (A.mul 0x1001 (A.mul 0x1000 A.two A.pi) fc) fs
  let g := A.div 0x1004 (A.cos theta) (A.add 0x1003 A.one (A.sin theta))
  let h := A.div 0x1006 (A.sub 0x1005 A.one g) A.two
  ⟨h, h, A.zero, A.neg g, A.zero, A.one, A.zero⟩

/-- R172: first-order high-pass. -/
def ghpf1Formula {α : Type} (A : DesignArith α) (fs fc : α) : Coeffs α :=
  let theta := A.div 0x1102 (A.mul 0x1101 (A.mul 0x1100 A.two A.pi) fc) fs
  let g := A.div 0x1104 (A.cos theta) (A.add 0x1103 A.one (A.sin theta))
  let h := A.div 0x1106 (A.add 0x1105 A.one g) A.two
  ⟨h, A.neg h, A.zero, A.neg g, A.zero, A.one, A.zero⟩

/-- R173: first-order all-pass. -/
def gapf1Formula {α : Type} (A : DesignArith α) (fs fc : α) : Coeffs α :=
  let t := A.tan (A.div 0x1201 (A.mul 0x1200 A.pi fc) fs)
  let al := A.div 0x1204 (A.sub 0x1202 t A.one) (A.add 0x1203 t A.one)
  ⟨al, A.one, A.zero, al, A.zero, A.one, A.zero⟩

/-- R174: second-order low-pass with resonance. -/
def glpf2Formula {α : Type} (A : DesignArith α) (fs fc q : α) : Coeffs α :=
  let theta := A.div 0x1802 (A.mul 0x1801 (A.mul 0x1800 A.two A.pi) fc) fs
  let d := A.div 0x1803 A.one q
  let s := A.sin theta
  let co := A.cos theta
  let k := A.mul 0x1805 (A.div 0x1804 d A.two) s
  let be := A.div 0x1809 (A.mul 0x1807 A.half (A.sub 0x1806 A.one k)) (A.add 0x1808 A.one k)
  let ga := A.mul 0x180B (A.add 0x180A A.half be) co
  let m := A.sub 0x180D (A.add 0x180C A.half be) ga
  let al := A.div 0x180E m A.two
  ⟨al, A.mul 0x180F A.two al, al, A.neg (A.mul 0x1810 A.two ga), A.mul 0x1811 A.two be, A.one, A.zero⟩

/-- R175: second-order high-pass with resonance. -/
def ghpf2Formula {α : Type} (A : DesignArith α) (fs fc q : α) : Coeffs α :=
  let theta := A.div 0x1902 (A.mul 0x1901 (A.mul 0x1900 A.two A.pi) fc) fs
  let d := A.div 0x1903 A.one q
  let s := A.sin theta
  let co := A.cos theta
  let k := A.mul 0x1905 (A.div 0x1904 d A.two) s
  let be := A.div 0x1909 (A.mul 0x1907 A.half (A.sub 0x1906 A.one k)) (A.add 0x1908 A.one k)
  let ga := A.mul 0x190B (A.add 0x190A A.half be) co
  let m := A.add 0x190D (A.add 0x190C A.half be) ga
  let al := A.div 0x190E m A.two
  ⟨al, A.neg (A.mul 0x190F A.two al), al, A.neg (A.mul 0x1910 A.two ga), A.mul 0x1911 A.two be, A.one, A.zero⟩

/-- R176: second-order all-pass with resonance. -/
def gapf2Formula {α : Type} (A : DesignArith α) (fs fc q : α) : Coeffs α :=
  let bw := A.div 0x1A00 fc q
  let t := A.tan (A.div 0x1A02 (A.mul 0x1A01 A.pi bw) fs)
  let al := A.div 0x1A05 (A.sub 0x1A03 t A.one) (A.add 0x1A04 t A.one)
  let be := A.neg (A.cos (A.div 0x1A08 (A.mul 0x1A07 (A.mul 0x1A06 A.two A.pi) fc) fs))
  let p := A.mul 0x1A0A be (A.sub 0x1A09 A.one al)
  ⟨A.neg al, p, A.one, p, A.neg al, A.one, A.zero⟩

/-- `C[k] <- round_T(c[k])` for `k` in 0..6 (R170); `k0` is the place of the first rounding. -/
def roundSet (T : Fmt) (k0 : Nat) (c : Coeffs Word) : Coeffs Word :=
  ⟨T.round64 k0 c.a0, T.round64 (k0 + 1) c.a1, T.round64 (k0 + 2) c.a2, T.round64 (k0 + 3) c.b1,
   T.round64 (k0 + 4) c.b2, T.round64 (k0 + 5) c.c0, T.round64 (k0 + 6) c.d0⟩

/-- A first-order generator (R170, R177) with its formula; `base` is its block of places. -/
def runFirstOrder (opc : BitVec 8) (base : Nat) (formula : Word → Word → Coeffs Word) (fs fc : Word) (s : State) :
    Result :=
  let fs64 := s.wide (base + 0xE0) fs
  let fc64 := s.wide (base + 0xE1) fc
  if firstOrderOk fs64 fc64 then
    .next ((s.adopt (roundSet s.fmt (base + 0xF0) (formula fs64 fc64))).respond opc none)
  else .next (s.raise opc .badArgument)

/-- A second-order generator (R170, R177) with its formula; `base` is its block of places. -/
def runSecondOrder (opc : BitVec 8) (base : Nat) (formula : Word → Word → Word → Coeffs Word) (fs fc q : Word)
    (s : State) : Result :=
  let fs64 := s.wide (base + 0xE0) fs
  let fc64 := s.wide (base + 0xE1) fc
  let q64 := s.wide (base + 0xE2) q
  if secondOrderOk fs64 fc64 q64 then
    .next ((s.adopt (roundSet s.fmt (base + 0xF0) (formula fs64 fc64 q64))).respond opc none)
  else .next (s.raise opc .badArgument)

/-- GLPF1 (R171). -/
def execGlpf1 (fs fc : Word) (s : State) : Result := runFirstOrder 0x10 0x1000 (glpf1Formula design64) fs fc s

/-- GHPF1 (R172). -/
def execGhpf1 (fs fc : Word) (s : State) : Result := runFirstOrder 0x11 0x1100 (ghpf1Formula design64) fs fc s

/-- GAPF1 (R173). -/
def execGapf1 (fs fc : Word) (s : State) : Result := runFirstOrder 0x12 0x1200 (gapf1Formula design64) fs fc s

/-- GLPF2 (R174). -/
def execGlpf2 (fs fc q : Word) (s : State) : Result := runSecondOrder 0x18 0x1800 (glpf2Formula design64) fs fc q s

/-- GHPF2 (R175). -/
def execGhpf2 (fs fc q : Word) (s : State) : Result := runSecondOrder 0x19 0x1900 (ghpf2Formula design64) fs fc q s

/-- GAPF2 (R176). -/
def execGapf2 (fs fc q : Word) (s : State) : Result := runSecondOrder 0x1A 0x1A00 (gapf2Formula design64) fs fc q s

end Sys2Proof.Machine
end

