-- ==== Sys2Proof/Machine/Transform.lean ====
section
/-! DEFINITION. The transform family (41_transform.md): the four realizations, XFORM and STQ. The numbers `0x3..` are
the places of the operations, which name their NaN results (log 7). -/

namespace Sys2Proof.Machine

/-- R141: the classic difference equation. It and R142 decide where R148 says that exact intermediates make the
realizations' outputs equal bit for bit: the sign of a zero output can differ (DEDUCED, log 19). -/
def directStep {α : Type} (A : Arith α) (c : Coeffs α) (h : History α) (x : α) : α × History α :=
  let y :=
    A.sub 0x308
      (A.sub 0x306
        (A.add 0x304
          (A.add 0x302 (A.mul 0x300 c.a0 x) (A.mul 0x301 c.a1 h.x_z1))
          (A.mul 0x303 c.a2 h.x_z2))
        (A.mul 0x305 c.b1 h.y_z1))
      (A.mul 0x307 c.b2 h.y_z2)
  (y, ⟨x, h.x_z1, y, h.y_z1⟩)

/-- R142: two history values and the intermediate `theta`. The sign of a zero output can differ from Direct's (DEDUCED,
log 19, on R148). -/
def canonicalStep {α : Type} (A : Arith α) (c : Coeffs α) (h : History α) (x : α) : α × History α :=
  let theta :=
    A.sub 0x323 (A.sub 0x321 x (A.mul 0x320 c.b1 h.x_z1)) (A.mul 0x322 c.b2 h.x_z2)
  let y :=
    A.add 0x328
      (A.add 0x326 (A.mul 0x324 c.a0 theta) (A.mul 0x325 c.a1 h.x_z1))
      (A.mul 0x327 c.a2 h.x_z2)
  (y, ⟨theta, h.x_z1, h.y_z1, h.y_z2⟩)

/-- R143: the transposed graph of the direct form. It decides where 70_reset_and_hazards.md R241's third line says
otherwise: a coefficient `a1` or `a2` that is itself not finite makes `H[0]` or `H[1]` non-finite again (DEDUCED, log 19). -/
def directTransposeStep {α : Type} (A : Arith α) (c : Coeffs α) (h : History α) (x : α) : α × History α :=
  let theta := A.add 0x340 x h.y_z1
  let y := A.add 0x342 (A.mul 0x341 c.a0 theta) h.x_z1
  (y,
    ⟨A.add 0x344 h.x_z2 (A.mul 0x343 c.a1 theta),
     A.mul 0x345 c.a2 theta,
     A.sub 0x347 h.y_z2 (A.mul 0x346 c.b1 theta),
     A.mul 0x348 (A.neg c.b2) theta⟩)

/-- R144: the transposed canonical form; the state update reads the unsnapped `y`. -/
def canonicalTransposeStep {α : Type} (A : Arith α) (c : Coeffs α) (h : History α) (x : α) : α × History α :=
  let y := A.add 0x361 (A.mul 0x360 c.a0 x) h.x_z1
  (y,
    ⟨A.add 0x365 (A.sub 0x364 (A.mul 0x362 c.a1 x) (A.mul 0x363 c.b1 y)) h.x_z2,
     A.sub 0x368 (A.mul 0x366 c.a2 x) (A.mul 0x367 c.b2 y),
     h.y_z1,
     h.y_z2⟩)

/-- The step that the strap `TOPO` selects (R140): the unsnapped output and the new history. -/
def filterStep {α : Type} (topo : Topo) (A : Arith α) (c : Coeffs α) (h : History α) (x : α) : α × History α :=
  match topo with
  | .direct => directStep A c h x
  | .canonical => canonicalStep A c h x
  | .directTranspose => directTransposeStep A c h x
  | .canonicalTranspose => canonicalTransposeStep A c h x

/-- The step of this block on an input (R140): its own straps, coefficients and history. -/
def State.filter (s : State) (x : Word) : Word × History Word := filterStep s.topo s.fmt.arith s.c s.h x

/-- XFORM (R140): filters one sample; the output is snapped, the history is not (R145). -/
def execXform (x : Word) (s : State) : Result :=
  if s.loaded then
    .next ((s.setHistory (s.filter (s.opnd x)).2).respond 0x03 (some (s.fmt.snap (s.filter (s.opnd x)).1)))
  else .next (s.raise 0x03 .notLoaded)

/-- STQ (R150): the unsnapped output for the input `+0.0`; no state is written. R150's pseudocode is followed where its
corner case says otherwise: with an infinite `a0`, Canonical and Direct-Transpose multiply it by `theta`, and the answer is a
NaN only when an operation on the way is invalid (DEDUCED, log 19). -/
def execStq (s : State) : Result :=
  if s.loaded then .next (s.respond 0x04 (some (s.filter 0).1)) else .next (s.raise 0x04 .notLoaded)

end Sys2Proof.Machine
end

