-- ==== Sys2Proof/Machine/Dispatch.lean ====
section
/-! DEFINITION. One arm per command: exec calls its meaning. -/

namespace Sys2Proof.Machine

/-- The effect of one command. -/
def exec (i : Instr) (s : State) : Host.Outcome State Fault Refusal :=
  match i with
  | .clr => Sys2Proof.Machine.execClr s
  | .setc a0 a1 a2 b1 b2 c0 d0 => Sys2Proof.Machine.execSetc a0 a1 a2 b1 b2 c0 d0 s
  | .xform x => Sys2Proof.Machine.execXform x s
  | .stq => Sys2Proof.Machine.execStq s
  | .rdc idx => Sys2Proof.Machine.execRdc idx s
  | .rds idx => Sys2Proof.Machine.execRds idx s
  | .rdstat => Sys2Proof.Machine.execRdstat s
  | .glpf1 fs fc => Sys2Proof.Machine.execGlpf1 fs fc s
  | .ghpf1 fs fc => Sys2Proof.Machine.execGhpf1 fs fc s
  | .gapf1 fs fc => Sys2Proof.Machine.execGapf1 fs fc s
  | .glpf2 fs fc q => Sys2Proof.Machine.execGlpf2 fs fc q s
  | .ghpf2 fs fc q => Sys2Proof.Machine.execGhpf2 fs fc q s
  | .gapf2 fs fc q => Sys2Proof.Machine.execGapf2 fs fc q s

end Sys2Proof.Machine
end

