-- ==== Sys2Proof/Machine/Step.lean ====
section
/-! DEFINITION. One step: the block takes what stands at its port. -/

namespace Sys2Proof.Machine

/-- One step (00_scope.md R14): a whole command transaction, or a hardware reset, taken from the port; with neither
there, the block has no step (70_reset_and_hazards.md R232, R238). -/
def step (s : State) : Host.Outcome State Fault Refusal :=
  match decode s.fmt s.draw s.rx with
  | .run i rest => exec i (s.consume rest)
  | .reject opc cause rest => .next ((s.consume rest).raise opc cause)
  | .reset rest => .next (s.consume rest).hwReset
  | .awaitHeader => .fault .awaitingHeader
  | .awaitBeats missing => .fault (.awaitingBeats missing)

/-- The host sends, before all else, the transaction whose bits are `w` (bits from `nbits` on are 0). -/
def State.withFetchWord (s : State) (nbits w : Nat) : State := { s with rx := tableEvents s.fmt nbits w ++ s.rx }

end Sys2Proof.Machine
end

