-- ==== Sys2Proof/Machine/Asm.lean ====
section
/-! DEFINITION. The assembler of 30_encoding.md R93 and R94: one line to the commands it stands for. It belongs to the
host; nothing the block does reads it. -/

namespace Sys2Proof.Machine

/-- The literals of R93. -/
inductive Literal where
  /-- `digits * 10^scale` -/
  | dec (neg : Bool) (digits : Nat) (scale : Int)
  /-- `digits * 2^scale` -/
  | hex (neg : Bool) (digits : Nat) (scale : Int)
  | inf (neg : Bool)
  | nan
  | bits (w : Nat)
  deriving DecidableEq, Repr

/-- A magnitude `digits * base^scale`, rounded to `T` with roundTiesToEven (R93). -/
def roundScaled (T : Fmt) (neg : Bool) (digits base : Nat) (scale : Int) : Word :=
  T.pack neg (T.roundMag (digits * base ^ scale.toNat * 2 ^ T.unitBits) (base ^ (-scale).toNat))

/-- The beat that a literal stands for (R93); `none` for a raw pattern wider than a beat. -/
def Literal.value (T : Fmt) : Literal → Option Word
  | .dec neg n e => some (roundScaled T neg n 10 e)
  | .hex neg n e => some (roundScaled T neg n 2 e)
  | .inf neg => some (T.infinity neg)
  | .nan => some (T.nanOf (Config.asmNanDraw T))
  | .bits w => if w < 2 ^ T.width then some (BitVec.ofNat 64 w) else none

/-- The value of a digit character. -/
def digitVal (c : Char) : Option Nat :=
  if '0' ≤ c ∧ c ≤ '9' then some (c.toNat - '0'.toNat)
  else if 'a' ≤ c ∧ c ≤ 'f' then some (c.toNat - 'a'.toNat + 10)
  else if 'A' ≤ c ∧ c ≤ 'F' then some (c.toNat - 'A'.toNat + 10)
  else none

/-- A run of digits: the number, how many digits, what follows. -/
def takeDigits (base : Nat) : List Char → Nat → Nat → Nat × Nat × List Char
  | [], v, n => (v, n, [])
  | c :: cs, v, n =>
    match digitVal c with
    | some d => if d < base then takeDigits base cs (v * base + d) (n + 1) else (v, n, c :: cs)
    | none => (v, n, c :: cs)

/-- A sign, if there is one. R93 shows `-` only; a leading `+`, before a number, before `inf` or in an exponent, is the
model's choice (DESIGN CHOICE, log 14). -/
def takeSign : List Char → Bool × List Char
  | '-' :: cs => (true, cs)
  | '+' :: cs => (false, cs)
  | cs => (false, cs)

/-- A signed decimal integer that ends the text. -/
def wholeInt (cs : List Char) : Option Int :=
  let (neg, cs) := takeSign cs
  match takeDigits 10 cs 0 0 with
  | (v, n, []) => if n = 0 then none else some (if neg then -(v : Int) else v)
  | _ => none

/-- Digits with an optional point: all the digits as one number, how many stand behind the point, what follows. -/
def takeMantissa (base : Nat) (cs : List Char) : Option (Nat × Nat × List Char) :=
  match takeDigits base cs 0 0 with
  | (v, n, '.' :: rest) =>
    match takeDigits base rest v 0 with
    | (v', n', rest') => if n + n' = 0 then none else some (v', n', rest')
  | (v, n, rest) => if n = 0 then none else some (v, 0, rest)

/-- A decimal literal without its sign, such as `0.5` or `3e-2`. -/
def decimal (neg : Bool) (cs : List Char) : Option Literal :=
  match takeMantissa 10 cs with
  | some (v, f, []) => some (.dec neg v (-(f : Int)))
  | some (v, f, 'e' :: rest) => (wholeInt rest).map (fun e => .dec neg v (e - f))
  | _ => none

/-- A hexadecimal floating literal without its sign and `0x`, such as `1.8p-3`. -/
def hexadecimal (neg : Bool) (cs : List Char) : Option Literal :=
  match takeMantissa 16 cs with
  | some (v, f, 'p' :: rest) => (wholeInt rest).map (fun e => .hex neg v (e - 4 * f))
  | _ => none

/-- The `T` operands of R93. -/
def literal (cs : List Char) : Option Literal :=
  if cs = "nan".toList then some .nan
  else
    match cs with
    | 'b' :: 'i' :: 't' :: 's' :: ':' :: '0' :: 'x' :: rest =>
      match takeDigits 16 rest 0 0 with
      | (v, n, []) => if n = 0 then none else some (.bits v)
      | _ => none
    | _ =>
      match takeSign cs with
      | (neg, '0' :: 'x' :: rest) => hexadecimal neg rest
      | (neg, rest) => if rest = "inf".toList then some (.inf neg) else decimal neg rest

/-- The place of a name in a list of names. -/
def nameIndex (names : List String) (cs : List Char) : Option Nat :=
  (names.map String.toList).findIdx? (fun n => decide (n = cs))

/-- The `IDX` operand of `rdc` and `rds` (R93): a register name, or its index. -/
def indexOperand (names : List String) (cs : List Char) : Option (BitVec 4) :=
  match nameIndex names cs with
  | some k => some (BitVec.ofNat 4 k)
  | none =>
    match takeDigits 10 cs 0 0 with
    | (v, n, []) => if n ≠ 0 ∧ v < names.length then some (BitVec.ofNat 4 v) else none
    | _ => none

/-- The names of `C[0..6]` (R93). -/
def coeffNames : List String := ["a0", "a1", "a2", "b1", "b2", "c0", "d0"]

/-- The names of `H[0..3]` (R93). -/
def historyNames : List String := ["x_z1", "x_z2", "y_z1", "y_z2"]

/-- `1.0` of a format. -/
def oneBits (T : Fmt) : Word := T.pack false (T.roundMag (2 ^ T.unitBits) 1)

/-- `gain g` (R94). -/
def asmGain (T : Fmt) (g : Word) : List Instr := [.setc g 0 0 0 0 (oneBits T) 0]

/-- `pass` (R94). -/
def asmPass (T : Fmt) : List Instr := asmGain T (oneBits T)

/-- `mute` (R94). -/
def asmMute (T : Fmt) : List Instr := asmGain T 0

/-- `rdcall` (R94): the seven coefficients in index order. -/
def asmRdcall : List Instr := [.rdc 0, .rdc 1, .rdc 2, .rdc 3, .rdc 4, .rdc 5, .rdc 6]

/-- `rdsall` (R94): the four history registers in index order. -/
def asmRdsall : List Instr := [.rds 0, .rds 1, .rds 2, .rds 3]

/-- The commands of a mnemonic with `T` operands (R86, R94). -/
def withValues (T : Fmt) (m : List Char) (ops : List Word) : Option (List Instr) :=
  match ops with
  | [] =>
    if m = "clr".toList then some [.clr]
    else if m = "stq".toList then some [.stq]
    else if m = "rdstat".toList then some [.rdstat]
    else if m = "pass".toList then some (asmPass T)
    else if m = "mute".toList then some (asmMute T)
    else if m = "rdcall".toList then some asmRdcall
    else if m = "rdsall".toList then some asmRdsall
    else none
  | [x] =>
    if m = "xform".toList then some [.xform x]
    else if m = "gain".toList then some (asmGain T x)
    else none
  | [fs, fc] =>
    if m = "glpf1".toList then some [.glpf1 fs fc]
    else if m = "ghpf1".toList then some [.ghpf1 fs fc]
    else if m = "gapf1".toList then some [.gapf1 fs fc]
    else none
  | [fs, fc, q] =>
    if m = "glpf2".toList then some [.glpf2 fs fc q]
    else if m = "ghpf2".toList then some [.ghpf2 fs fc q]
    else if m = "gapf2".toList then some [.gapf2 fs fc q]
    else none
  | [a0, a1, a2, b1, b2, c0, d0] =>
    if m = "setc".toList then some [.setc a0 a1 a2 b1 b2 c0 d0] else none
  | _ => none

/-- Every literal's value, or `none` when one is no literal. -/
def values (T : Fmt) : List (List Char) → Option (List Word)
  | [] => some []
  | o :: os =>
    match (literal o).bind (Literal.value T), values T os with
    | some w, some ws => some (w :: ws)
    | _, _ => none

/-- A text without the spaces at both ends. -/
def trim (cs : List Char) : List Char :=
  ((cs.dropWhile (· = ' ')).reverse.dropWhile (· = ' ')).reverse

/-- The parts of a text between the commas. -/
def splitCommas : List Char → List (List Char)
  | [] => [[]]
  | c :: cs =>
    match splitCommas cs with
    | [] => [[c]]
    | p :: ps => if c = ',' then [] :: p :: ps else (c :: p) :: ps

/-- One line of assembler (R93): a mnemonic, its operands, a comment from `;` on. `none` for a line that is none. The
spellings taken beyond R93's examples are the model's choice (DESIGN CHOICE, log 14). -/
def assembleLine (T : Fmt) (line : String) : Option (List Instr) :=
  let text := trim (line.toList.takeWhile (· ≠ ';'))
  let m := text.takeWhile (· ≠ ' ')
  let operands := trim (text.dropWhile (· ≠ ' '))
  let ops := if operands = [] then [] else (splitCommas operands).map trim
  if m = [] then some []
  else if m = "rdc".toList then
    match ops with
    | [o] => (indexOperand coeffNames o).map (fun i => [.rdc i])
    | _ => none
  else if m = "rds".toList then
    match ops with
    | [o] => (indexOperand historyNames o).map (fun i => [.rds i])
    | _ => none
  else (values T ops).bind (withValues T m)

end Sys2Proof.Machine
end

