-- ==== Sys2Proof/Machine/Medium.lean ====
section
/-! DEFINITION. Responses over a byte-wide medium (20_memory.md R61): the response header as 4 bytes and the result beat
as `W / 8` bytes, each least significant byte first. Decode.lean has the same for command transactions. -/

namespace Sys2Proof.Machine

/-- `nout(OPC) = 1` of the opcode map (30_encoding.md R86): a successful command of this opcode returns a beat. -/
def opcodeAnswers (opc : BitVec 8) : Bool := decide (opc.toNat ∈ [0x03, 0x04, 0x05, 0x06, 0x07])

/-- A response's bytes in the order a byte-wide medium carries them. -/
def Response.bytes (T : Fmt) (r : Response) : List Byte :=
  leBytes 4 r.header.toNat ++
    match r.beat with
    | none => []
    | some w => leBytes T.beatBytes w.toNat

/-- Everything the host receives from the block over a byte-wide medium, oldest first. -/
def State.sentBytes (s : State) : List Byte := s.tx.flatMap (Response.bytes s.fmt)

/-- The host's reading of the next response: a header, then a beat when the status is OK and `nout` is 1 (30_encoding.md
R84); `none` while bytes are missing. -/
def frameResponse (T : Fmt) (bs : List Byte) : Option (Response × List Byte) :=
  if bs.length < 4 then none
  else
    let hdr : Header := BitVec.ofNat 32 (ofLeBytes (bs.take 4))
    let rest := bs.drop 4
    if hdr.extractLsb' 0 2 = 0b00 ∧ opcodeAnswers (hdr.extractLsb' 24 8) = true then
      if rest.length < T.beatBytes then none
      else
        some (⟨hdr, some (BitVec.ofNat 64 (ofLeBytes (rest.take T.beatBytes)))⟩, rest.drop T.beatBytes)
    else some (⟨hdr, none⟩, rest)

end Sys2Proof.Machine
end

