-- ==== Sys2Proof/Safety.lean ====
section
/-! DEFINITION. What the statements speak of: the fields of a response, the invariant of the state, which cause a
transaction has, values as exact numbers, and runs of several commands. -/

namespace Sys2Proof.Machine

/-! ### Responses (30_encoding.md R84) -/

/-- `ROPC`. -/
def Response.ropc (r : Response) : BitVec 8 := r.header.extractLsb' 24 8

/-- `CAUSE`. -/
def Response.cause (r : Response) : BitVec 4 := r.header.extractLsb' 4 4

/-- `STATUS`. -/
def Response.status (r : Response) : BitVec 2 := r.header.extractLsb' 0 2

/-- A response as R84 and R85 allow one of this block: the fixed fields are 0; status OK with cause 0, or
INVALID_STATE with a cause of 1 to 5 and no beat. -/
def Response.wellFormed (r : Response) : Bool :=
  r.header.extractLsb' 8 16 == 0 && r.header.extractLsb' 2 2 == 0 &&
    ((r.status == 0b00 && r.cause == 0) ||
      (r.status == 0b10 && decide (1 ≤ r.cause.toNat ∧ r.cause.toNat ≤ 5) && r.beat.isNone))

/-- Does a command of this opcode return a beat on success (`nout`, 30_encoding.md R86)? -/
def nout : Instr → Bool
  | .xform _ | .stq | .rdc _ | .rds _ | .rdstat => true
  | _ => false

/-- SETC and the generators: the commands that load a coefficient set (10_state.md R34). -/
def isLoad : Instr → Bool
  | .setc _ _ _ _ _ _ _ => true
  | .glpf1 _ _ | .ghpf1 _ _ | .gapf1 _ _ => true
  | .glpf2 _ _ _ | .ghpf2 _ _ _ | .gapf2 _ _ _ => true
  | _ => false

/-! ### The invariant -/

/-- The seven registers of the coefficient file in index order (10_state.md R31). -/
def Coeffs.toList {α : Type} (c : Coeffs α) : List α := [c.a0, c.a1, c.a2, c.b1, c.b2, c.c0, c.d0]

/-- The four registers of the history file in index order (10_state.md R32). -/
def History.toList {α : Type} (h : History α) : List α := [h.x_z1, h.x_z2, h.y_z1, h.y_z2]

/-- Every register holds `W` bits (10_state.md R31, R32). -/
def State.widthOk (s : State) : Bool := s.c.toList.all s.fmt.fits && s.h.toList.all s.fmt.fits

/-- The registers that the realization does not use hold `+0.0` (41_transform.md R149). -/
def State.unusedZero (s : State) : Bool :=
  match s.topo with
  | .canonical | .canonicalTranspose => s.h.y_z1 == 0 && s.h.y_z2 == 0
  | _ => true

/-- A history register that the realization feeds back into its next output holds a NaN or an infinity
(70_reset_and_hazards.md R241, first line). -/
def feedsBack (s : State) : Bool :=
  match s.topo with
  | .direct => s.h.toList.any (fun w => !s.fmt.isFinite w)
  | .canonical => !s.fmt.isFinite s.h.x_z1 || !s.fmt.isFinite s.h.x_z2
  | .directTranspose => !s.fmt.isFinite s.h.y_z1
  | .canonicalTranspose => !s.fmt.isFinite s.h.x_z1

/-- The second state of a transposed recursive section holds a NaN or an infinity (70_reset_and_hazards.md R241,
second line). -/
def feedsBackLater (s : State) : Bool :=
  match s.topo with
  | .directTranspose => !s.fmt.isFinite s.h.y_z2
  | .canonicalTranspose => !s.fmt.isFinite s.h.x_z2
  | _ => false

/-- Every response given is one R84 and R85 allow, and its beat has `W` bits (20_memory.md R63). -/
def State.responsesOk (s : State) : Bool :=
  s.tx.all (fun r => r.wellFormed && r.beat.all s.fmt.fits)

/-- What every step keeps. -/
def State.Inv (s : State) : Bool := s.widthOk && s.unusedZero && s.responsesOk

/-- No command since reset has failed (60_exceptions.md R207). -/
def State.clean (s : State) : Bool := !s.flt

/-! ### Transactions -/

/-- A word, not a reset. -/
def isWord (e : PortEvent) : Bool := e != .reset

/-- Has the word the width that a beat of the format has? -/
def beatSized (T : Fmt) (e : PortEvent) : Bool :=
  match T, e with
  | .binary32, .narrow _ => true
  | .binary64, .wide _ => true
  | _, _ => false

/-- The legal opcodes (30_encoding.md R87). -/
def legalOpcodes : List Nat := [0x01, 0x02, 0x03, 0x04, 0x05, 0x06, 0x07, 0x10, 0x11, 0x12, 0x18, 0x19, 0x1A]

/-- A pattern of a finite value above zero: sign 0, neither zero nor infinity nor NaN. -/
def positivePattern (T : Fmt) (w : Word) : Bool := !T.sign w && decide (0 < T.mag w) && T.isFinite w

/-- R177 on the operands' patterns as they came in, in the block's own format. -/
def badArguments (T : Fmt) (opc : Nat) (beats : List Word) : Bool :=
  let fs := beats.getD 0 0
  let fc := beats.getD 1 0
  let q := beats.getD 2 0
  if opc ∈ [0x10, 0x11, 0x12] then !(positivePattern T fs && T.isFinite fc)
  else if opc ∈ [0x18, 0x19, 0x1A] then !(positivePattern T fs && T.isFinite fc && positivePattern T q)
  else false

/-- The first cause that applies to a transaction, in the order of 60_exceptions.md R203; `none` when none does. -/
def firstCause (T : Fmt) (loaded : Bool) (hdr : Header) (beats : List Word) : Option Cause :=
  let opc := (opcField hdr).toNat
  let idx := (idxField hdr).toNat
  if opc ∉ legalOpcodes then some .illegalOpcode
  else if rsvField hdr ≠ 0 ∨ (opc ∉ [0x05, 0x06] ∧ idx ≠ 0) then some .reservedField
  else if (opc = 0x05 ∧ idx ∈ [7, 8, 9, 10, 11, 12, 13, 14, 15]) ∨ (opc = 0x06 ∧ 4 ≤ idx) then some .indexRange
  else if opc ∈ [0x03, 0x04, 0x05] ∧ loaded = false then some .notLoaded
  else if badArguments T opc beats then some .badArgument
  else none

/-- The response header of a transaction with this outcome (30_encoding.md R84). -/
def headerFor (opc : BitVec 8) : Option Cause → Header
  | none => BitVec.ofNat 32 (opc.toNat * 2 ^ 24)
  | some cause => BitVec.ofNat 32 (opc.toNat * 2 ^ 24 + (causeCode cause).toNat * 16 + 2)

/-! ### Exact numbers -/

end Sys2Proof.Machine

namespace Sys2Proof

/-- The exact value of a finite pattern, in units of the format (0 for the others). -/
def Fmt.exact (T : Fmt) (w : Word) : Int :=
  match T.unpack w with
  | .fin neg n => signedUnits neg n
  | _ => 0

/-- `r` is the value nearest to `num / den` units among the finite values of the format, and of two nearest ones the
one with an even pattern (00_scope.md R17, roundTiesToEven). -/
def Fmt.IsNearest (T : Fmt) (r : Word) (num : Int) (den : Nat) : Prop :=
  ∀ w : Word, T.fits w = true → T.isFinite w = true →
    |T.exact r * den - num| ≤ |T.exact w * den - num| ∧
      (|T.exact r * den - num| = |T.exact w * den - num| → T.exact w ≠ T.exact r → T.mag r % 2 = 0)

/-- Is the pattern an infinity (R16)? -/
def Fmt.isInf (T : Fmt) (w : Word) : Bool := decide (T.mag w = T.infMag)

/-- An exact result of `num / den` units overflows under roundTiesToEven (00_scope.md R17): its magnitude is at or above
the halfway point between the largest finite value and the power of two that follows it. -/
def Fmt.Overflows (T : Fmt) (num : Int) (den : Nat) : Prop :=
  (T.magUnits (T.infMag - 1) + T.magUnits T.infMag) * den ≤ 2 * num.natAbs

end Sys2Proof

namespace Sys2Proof.Machine

/-- A formula's arithmetic on exact numbers: no rounding (R147). -/
def exactArith (α : Type) [Add α] [Sub α] [Mul α] [Neg α] : Arith α :=
  { add := fun _ a b => a + b, sub := fun _ a b => a - b, mul := fun _ a b => a * b, neg := fun a => -a }

/-- The generators' arithmetic on the real numbers, for any sine, cosine and tangent and any value of pi (R178). -/
noncomputable def exactDesign (pi : ℝ) (sin cos tan : ℝ → ℝ) : DesignArith ℝ :=
  { exactArith ℝ with
    div := fun _ a b => a / b, zero := 0, half := 1 / 2, one := 1, two := 2, pi := pi, sin := sin, cos := cos,
    tan := tan }

/-- The outputs of a realization over exact numbers for a sequence of inputs, from a history. -/
def exactOutputs {α : Type} (topo : Topo) (A : Arith α) (c : Coeffs α) : History α → List α → List α
  | _, [] => []
  | h, x :: xs => (filterStep topo A c h x).1 :: exactOutputs topo A c (filterStep topo A c h x).2 xs

/-! ### Runs -/

/-- The commands one after another; `none` when one does not answer a next state. -/
def execAll : List Instr → State → Option State
  | [], s => some s
  | i :: is, s =>
    match exec i s with
    | .next t => execAll is t
    | _ => none

end Sys2Proof.Machine
end

