-- ==== Sys2Proof/Certificates/Slice0/Obligations.lean ====
section
/-! DEFINITION. The statements about the block. Each cites the rules of spec/ it formalises; log n is
notes/assumptions/n.md. -/

open Sys2Proof Sys2Proof.Machine

/-! ### Encoding and decoding -/

/-- 30_encoding.md R80, R81, R86, R87: whatever stands behind it, a well-formed command's transaction decodes to that
command, with every operand bit. -/
def Obligations.DecodingAnEncodedCommandGivesItBack : Prop :=
  ∀ (T : Fmt) (d : Nat) (i : Instr) (rest : List PortEvent),
    i.wellFormed T = true → decode T d (encode T i ++ rest) = .run i rest

/-- The other direction (R83, R91: no bit is ignored, one encoding per command): a header followed by beats of the
block's width that decodes to a command is that command's own encoding, and the command is well formed. -/
def Obligations.OnlyItsEncodingDecodesToACommand : Prop :=
  ∀ (T : Fmt) (d : Nat) (hdr : Header) (tail rest : List PortEvent) (i : Instr),
    (∀ e ∈ tail.take i.beats.length, beatSized T e = true) →
    decode T d (.narrow hdr :: tail) = .run i rest →
      i.wellFormed T = true ∧ .narrow hdr :: tail = encode T i ++ rest

/-- 20_memory.md R61: over a byte-wide medium the least significant byte comes first, and putting the bytes together
again gives the words of the transaction. -/
def Obligations.BytesCarryATransactionLittleEndian : Prop :=
  (∀ w : BitVec 32, (PortEvent.narrow w).bytes =
    [w.extractLsb' 0 8, w.extractLsb' 8 8, w.extractLsb' 16 8, w.extractLsb' 24 8]) ∧
  (∀ w : BitVec 64, (PortEvent.wide w).bytes =
    [w.extractLsb' 0 8, w.extractLsb' 8 8, w.extractLsb' 16 8, w.extractLsb' 24 8,
     w.extractLsb' 32 8, w.extractLsb' 40 8, w.extractLsb' 48 8, w.extractLsb' 56 8]) ∧
  (∀ (T : Fmt) (i : Instr) (bs : List Byte), i.wellFormed T = true →
    frame T ((encode T i).flatMap PortEvent.bytes ++ bs) = some (encode T i, bs))

/-- 30_encoding.md R95: header words of the spec, read by the decoder of a binary64 block (zero beats behind). -/
def Obligations.SpecHeaderWordsDecode : Prop :=
  decodeTableWord 32 0x01000000 = some .clr ∧
  decodeTableWord 32 0x02000000 = some (.setc 0 0 0 0 0 0 0) ∧
  decodeTableWord 32 0x03000000 = some (.xform 0) ∧
  decodeTableWord 32 0x04000000 = some .stq ∧
  decodeTableWord 32 0x05300000 = some (.rdc 3) ∧
  decodeTableWord 32 0x06300000 = some (.rds 3) ∧
  decodeTableWord 32 0x07000000 = some .rdstat ∧
  decodeTableWord 32 0x10000000 = some (.glpf1 0 0) ∧
  decodeTableWord 32 0x1A000000 = some (.gapf2 0 0 0) ∧
  decodeTableWord 32 0x00000000 = none ∧
  decodeTableWord 32 0x03100000 = none ∧
  decodeTableWord 32 0x05700000 = none

/-- 30_encoding.md R81: what a step takes from the port is `1 + nin(OPC)` words, fixed by the opcode alone, and one
word for an opcode that R86 does not list. That a word of the wrong width in an operand's place counts as one operand too
is the model's choice, unsafe in the count (log 6); for words of the block's width it is R81's. -/
def Obligations.TransactionLengthIsFixedByTheOpcode : Prop :=
  ∀ (s t : State) (hdr : Header) (tail : List PortEvent),
    s.rx = .narrow hdr :: tail → (∀ e ∈ tail, isWord e = true) → step s = .next t →
      t.rx = tail.drop ((nin (opcField hdr)).getD 0) ∧ (nin (opcField hdr)).getD 0 ≤ tail.length

/-- 30_encoding.md R83, R88, R89: an illegal opcode takes its header alone and fails with ILLEGAL_OPCODE (1); a legal
opcode with a bad RSV or IDX takes its beats first and then fails with RESERVED_FIELD (2) or INDEX_RANGE (3); nothing
but FLT changes, and the next word stands next at the port. That a word of the wrong width in an operand's place counts as
one operand too is the model's choice, unsafe in the count (log 6); for words of the block's width it is R89's. -/
def Obligations.IllegalEncodingsFailInStep : Prop :=
  ∀ (s : State) (hdr : Header) (words rest : List PortEvent),
    s.rx = .narrow hdr :: (words ++ rest) →
    let opc := (opcField hdr).toNat
    let failed (code : Nat) : State :=
      { s with
        rx := rest, draw := s.draw + 1 + words.length, flt := true,
        tx := s.tx ++ [⟨BitVec.ofNat 32 (opc * 2 ^ 24 + code * 16 + 2), none⟩] }
    ((opc = 0 ∨ (0x08 ≤ opc ∧ opc ≤ 0x0F) ∨ (0x13 ≤ opc ∧ opc ≤ 0x17) ∨ 0x1B ≤ opc) → words = [] →
      step s = .next (failed 1)) ∧
    (nin (opcField hdr) = some words.length → (∀ e ∈ words, isWord e = true) →
      ((rsvField hdr ≠ 0 → step s = .next (failed 2)) ∧
       (rsvField hdr = 0 → opc ≠ 0x05 → opc ≠ 0x06 → idxField hdr ≠ 0 → step s = .next (failed 2)) ∧
       (rsvField hdr = 0 → opc = 0x05 → 7 ≤ (idxField hdr).toNat → step s = .next (failed 3)) ∧
       (rsvField hdr = 0 → opc = 0x06 → 4 ≤ (idxField hdr).toNat → step s = .next (failed 3))))

/-! ### The step -/

/-- 00_scope.md R14: when a well-formed command's transaction stands at the port, the step is that command's effect on
the state with the transaction taken. -/
def Obligations.AStepRunsTheDecodedCommand : Prop :=
  ∀ (s : State) (i : Instr) (rest : List PortEvent),
    i.wellFormed s.fmt = true → s.rx = encode s.fmt i ++ rest →
      step s = exec i { s with rx := rest, draw := s.draw + (1 + i.beats.length) }

/-- 20_memory.md R66: a stream of whole transactions executes one command a step, in the order of arrival, each on the
state that the one before left. -/
def Obligations.CommandsExecuteInArrivalOrder : Prop :=
  ∀ (is : List Instr) (s : State) (rest : List PortEvent),
    (∀ i ∈ is, i.wellFormed s.fmt = true) → s.rx = is.flatMap (encode s.fmt) ++ rest →
      ∃ t, execAll is { s with rx := rest, draw := s.draw + (is.map (fun i => 1 + i.beats.length)).sum } = some t ∧
        Host.Core.run Sys2Proof.core is.length s = .next t

/-- 00_scope.md R14, 70_reset_and_hazards.md R232, R238: an incomplete transaction has no step, the block waits (the
model's fault is that waiting, log 5). Words that come later are the missing operands, whatever they were meant to be: when
all have the block's width, the step is that of the command whose transaction is the header, the words that had come and
the words that came later, bit for bit; on binary32 the late word may be what was meant as a header. That the step also
takes words of the wrong width one for one is the model's choice, unsafe in the count (log 6). -/
def Obligations.AnIncompleteTransactionWaits : Prop :=
  (∀ s : State, s.rx = [] → step s = .fault .awaitingHeader) ∧
  (∀ (s : State) (hdr : Header) (words : List PortEvent) (n : Nat),
    s.rx = .narrow hdr :: words → nin (opcField hdr) = some n → (∀ e ∈ words, isWord e = true) → words.length < n →
      step s = .fault (.awaitingBeats (n - words.length)) ∧
      ∀ more : List PortEvent, (∀ e ∈ more, isWord e = true) → words.length + more.length = n →
        (∃ t, step (s.send more) = .next t ∧ t.rx = []) ∧
        ((∀ e ∈ words ++ more, beatSized s.fmt e = true) → headerError hdr = none →
          ∃ i : Instr, i.wellFormed s.fmt = true ∧ encode s.fmt i = .narrow hdr :: (words ++ more) ∧
            step (s.send more) = exec i { s with rx := [], draw := s.draw + (1 + n) })) ∧
  (∀ (s : State) (w : BitVec 32) (rest : List PortEvent), s.fmt = .binary32 →
    s.rx = .narrow 0x03000000 :: .narrow w :: rest →
      step s = exec (.xform (w.setWidth 64)) { s with rx := rest, draw := s.draw + 2 })

/-- 70_reset_and_hazards.md R230: power-up and hardware reset; a reset in the middle of a transaction discards it without
a response; the straps stay; what the host does afterwards is read anew; while the host applies no reset, no step clears
`FLT` or `LOADED`. Nothing is said of the coefficients' values (log 2). That a word of the wrong width in the incomplete
transaction counts as one operand is the model's choice, unsafe in the count (log 6); that what stands behind the reset at
the port and what was answered before stay as they are is the model's choice (log 13). -/
def Obligations.HardwareResetRestoresTheStatedValues : Prop :=
  (∀ (topo : Topo) (T : Fmt), (State.init topo T).h = ⟨0, 0, 0, 0⟩ ∧ (State.init topo T).loaded = false ∧
    (State.init topo T).flt = false) ∧
  (∀ (s : State) (before rest : List PortEvent),
    s.rx = before ++ .reset :: rest →
    (before = [] ∨
      ∃ (hdr : Header) (words : List PortEvent) (n : Nat),
        before = .narrow hdr :: words ∧ nin (opcField hdr) = some n ∧ words.length < n ∧
          ∀ e ∈ words, isWord e = true) →
    ∃ t, step s = .next t ∧ t.h = ⟨0, 0, 0, 0⟩ ∧ t.loaded = false ∧ t.flt = false ∧ t.topo = s.topo ∧
      t.fmt = s.fmt ∧ t.rx = rest ∧ t.tx = s.tx) ∧
  (∀ s t : State, (∀ e ∈ s.rx, isWord e = true) → step s = .next t →
    (s.flt = true → t.flt = true) ∧ (s.loaded = true → t.loaded = true))

/-- 10_state.md R43, 70_reset_and_hazards.md R232: the values the spec states for a block just built and reset, for
every build. The coefficients are the model's choice (log 2) and not claimed here. -/
def Obligations.PowerUpStateHasTheStatedValues : Prop :=
  ∀ (topo : Topo) (T : Fmt),
    (State.init topo T).h = ⟨0, 0, 0, 0⟩ ∧ (State.init topo T).loaded = false ∧ (State.init topo T).flt = false ∧
    (State.init topo T).topo = topo ∧ (State.init topo T).fmt = T ∧
    step (State.init topo T) = .fault .awaitingHeader

/-- 10_state.md R36: the straps' codes, and that no step, a reset's included, changes them. -/
def Obligations.StrapsNeverChange : Prop :=
  (Topo.direct.code = 0 ∧ Topo.canonical.code = 1 ∧ Topo.directTranspose.code = 2 ∧
    Topo.canonicalTranspose.code = 3 ∧ Fmt.binary32.code = 0 ∧ Fmt.binary64.code = 1) ∧
  ∀ s t : State, step s = .next t → t.topo = s.topo ∧ t.fmt = s.fmt

/-! ### Responses and errors -/

/-- 30_encoding.md R84, R85: every command yields exactly one response: its opcode, the fixed zeros, and status OK with
cause 0, or INVALID_STATE with a cause of 1 to 5 and no beat; on OK a beat exactly when `nout` is 1. The same for a
header that is refused: every step but a reset's gives one such response. -/
def Obligations.EveryCommandGivesExactlyOneResponse : Prop :=
  (∀ (i : Instr) (s : State), ∃ (t : State) (r : Response),
    exec i s = .next t ∧ t.tx = s.tx ++ [r] ∧ r.ropc = i.opcode ∧ r.wellFormed = true ∧
    (r.status = 0b00 → r.beat.isSome = nout i)) ∧
  (∀ (s t : State) (hdr : Header) (tail : List PortEvent), s.rx = .narrow hdr :: tail →
    (∀ e ∈ tail, isWord e = true) → step s = .next t →
      ∃ r : Response, t.tx = s.tx ++ [r] ∧ r.ropc = opcField hdr ∧ r.wellFormed = true)

/-- 60_exceptions.md R205, R201: after a step whose response has status INVALID_STATE the state is the state before with
`FLT` at 1 (and the transaction taken from the port, the response given). -/
def Obligations.AFailedCommandChangesFltOnly : Prop :=
  ∀ (s t : State) (r : Response), (∀ e ∈ s.rx, isWord e = true) → step s = .next t → t.tx = s.tx ++ [r] →
    r.status = 0b10 →
      t = { s with flt := true, tx := s.tx ++ [r], rx := t.rx, draw := t.draw } ∧ r.beat = none

/-- 60_exceptions.md R203, R202, 30_encoding.md R87: a whole transaction answers with the first cause that applies, in
the order ILLEGAL_OPCODE, RESERVED_FIELD, INDEX_RANGE, NOT_LOADED, BAD_ARGUMENT, and with status OK when none does. -/
def Obligations.TheFirstCauseThatAppliesIsReported : Prop :=
  ∀ (s : State) (hdr : Header) (beats : List Word) (rest : List PortEvent),
    s.rx = .narrow hdr :: (beats.map (beatEvent s.fmt) ++ rest) →
    (nin (opcField hdr)).getD 0 = beats.length → (∀ w ∈ beats, s.fmt.fits w = true) →
    ∃ (t : State) (beat : Option Word),
      step s = .next t ∧
      t.tx = s.tx ++ [⟨headerFor (opcField hdr) (firstCause s.fmt s.loaded hdr beats), beat⟩] ∧
      (firstCause s.fmt s.loaded hdr beats ≠ none → beat = none ∧ t.flt = true ∧ t.c = s.c ∧ t.h = s.h ∧
        t.loaded = s.loaded) ∧
      (firstCause s.fmt s.loaded hdr beats = none → t.flt = s.flt)

/-- 10_state.md R35: every failed command, and every header refused in decoding, sets `FLT`, none clears it, and a command
executes as usual when `FLT` is 1 (RDSTAT reports the flag, so its beat is left out). That a generator whose formula gives
NaNs stores the same NaNs with `FLT` 1 as with `FLT` 0 is the model's choice (log 7, unsafe for the generators). -/
def Obligations.FltIsStickyAndStopsNothing : Prop :=
  (∀ (s t : State), step s = .next t → s.flt = true → t.flt = false → .reset ∈ s.rx) ∧
  (∀ (s : State) (rest : List PortEvent), s.rx = .reset :: rest → ∃ t, step s = .next t ∧ t.flt = false) ∧
  (∀ (s : State) (opc : BitVec 8) (cause : Cause) (rest : List PortEvent),
    decode s.fmt s.draw s.rx = .reject opc cause rest → ∃ t, step s = .next t ∧ t.flt = true) ∧
  (∀ (s t : State) (r : Response), step s = .next t → t.tx = s.tx ++ [r] → r.status = 0b10 → t.flt = true) ∧
  ∀ (i : Instr) (s t : State), exec i s = .next t →
    (s.flt = true → t.flt = true) ∧
    (∀ r : Response, t.tx = s.tx ++ [r] → r.status = 0b10 → t.flt = true) ∧
    (i ≠ .rdstat → exec i { s with flt := true } = .next { t with flt := true }) ∧
    (i = .rdstat → ∃ beat, exec i { s with flt := true } =
      .next { t with flt := true, tx := s.tx ++ [⟨0x07000000, beat⟩] })

/-- 10_state.md R34: XFORM, STQ and RDC (with a legal index) fail with NOT_LOADED while `LOADED` is 0; a command leaves
`LOADED` at 1 exactly when it was 1 or the command is a load that answers OK. -/
def Obligations.LoadedGatesAndIsSetByLoads : Prop :=
  (∀ (s t : State), step s = .next t → s.loaded = true → t.loaded = false → .reset ∈ s.rx) ∧
  (∀ (s : State) (rest : List PortEvent), s.rx = .reset :: rest → ∃ t, step s = .next t ∧ t.loaded = false) ∧
  (∀ (s : State) (i : Instr) (opc : Nat), s.loaded = false →
    ((∃ x, i = .xform x ∧ opc = 3) ∨ (i = .stq ∧ opc = 4) ∨ (∃ k, i = .rdc k ∧ k.toNat ≤ 6 ∧ opc = 5)) →
      exec i s = .next { s with
        flt := true, tx := s.tx ++ [⟨BitVec.ofNat 32 (opc * 2 ^ 24 + 0x42), none⟩] }) ∧
  (∀ (i : Instr) (s t : State) (r : Response), exec i s = .next t → t.tx = s.tx ++ [r] →
    t.loaded = (s.loaded || (isLoad i && r.status == 0b00)))

/-- 10_state.md R33, R44: the access table, as what each command leaves alone: only SETC and the generators write `C`;
only they, CLR and XFORM write `H`; no command writes the straps, and no command takes or adds anything at the port
but its one response. -/
def Obligations.CommandsWriteOnlyWhatTheTableSays : Prop :=
  ∀ (i : Instr) (s t : State), exec i s = .next t →
    (isLoad i = false → t.c = s.c) ∧
    (isLoad i = false → i ≠ .clr → (∀ x, i ≠ .xform x) → t.h = s.h) ∧
    t.topo = s.topo ∧ t.fmt = s.fmt ∧ t.rx = s.rx ∧ t.draw = s.draw

/-! ### Invariants -/

/-- The invariant: registers of `W` bits (10_state.md R31, R32), unused history registers at `+0.0` (41_transform.md
R149), responses as 30_encoding.md R84 and R85 allow them. Every step, a reset's included, keeps it. -/
def Obligations.EveryStepKeepsTheInvariant : Prop :=
  ∀ s t : State, s.Inv = true → step s = .next t → t.Inv = true

/-- Every build's power-up state meets the invariant. -/
def Obligations.PowerUpStateMeetsTheInvariant : Prop :=
  ∀ (topo : Topo) (T : Fmt), (State.init topo T).Inv = true

/-- 10_state.md R43, 93_implementation_defined.md U1: while `LOADED` is 0 no command lets the coefficients be seen: two
states that differ in them alone answer alike, and if a command loads, the two states become equal. That two runs of a
generator whose formula gives NaNs store the same NaNs is the model's choice (log 7, unsafe for the generators). -/
def Obligations.UnloadedCoefficientsAreUnobservable : Prop :=
  ∀ (i : Instr) (s t : State) (c : Coeffs Word), s.loaded = false → exec i s = .next t →
    ∃ t', exec i { s with c := c } = .next t' ∧
      ((t.loaded = true ∧ t' = t) ∨ (t.loaded = false ∧ t' = { t with c := c }))

/-! ### The control family -/

/-- 40_control.md R111 (CLR). -/
def Obligations.ClrZeroesTheHistoryOnly : Prop :=
  ∀ s : State, exec .clr s =
    .next { s with h := ⟨0, 0, 0, 0⟩, tx := s.tx ++ [⟨0x01000000, none⟩] }

/-- 40_control.md R112 (SETC): every bit pattern is stored unchanged, the history is zeroed, `LOADED` is set. -/
def Obligations.SetcLoadsTheWholeSet : Prop :=
  ∀ (s : State) (a0 a1 a2 b1 b2 c0 d0 : Word),
    (∀ w ∈ [a0, a1, a2, b1, b2, c0, d0], s.fmt.fits w = true) →
    exec (.setc a0 a1 a2 b1 b2 c0 d0) s =
      .next { s with
        c := ⟨a0, a1, a2, b1, b2, c0, d0⟩, h := ⟨0, 0, 0, 0⟩, loaded := true,
        tx := s.tx ++ [⟨0x02000000, none⟩] }

/-- 40_control.md R113 (RDC): with a set loaded and an index of 0 to 6 it answers the stored bit pattern and changes
nothing; an index above 6 fails with INDEX_RANGE. -/
def Obligations.RdcAnswersTheStoredCoefficient : Prop :=
  (∀ (s : State) (k : BitVec 4), s.loaded = true → k.toNat ≤ 6 →
    exec (.rdc k) s = .next { s with tx := s.tx ++ [⟨0x05000000, s.c.toList[k.toNat]?⟩] }) ∧
  (∀ (s : State) (k : BitVec 4), 7 ≤ k.toNat →
    exec (.rdc k) s = .next { s with flt := true, tx := s.tx ++ [⟨0x05000032, none⟩] })

/-- 40_control.md R114 (RDS): loaded or not, an index of 0 to 3 answers the stored bit pattern and changes nothing; an
index above 3 fails with INDEX_RANGE. -/
def Obligations.RdsAnswersTheStoredHistory : Prop :=
  (∀ (s : State) (k : BitVec 4), k.toNat ≤ 3 →
    exec (.rds k) s = .next { s with tx := s.tx ++ [⟨0x06000000, s.h.toList[k.toNat]?⟩] }) ∧
  (∀ (s : State) (k : BitVec 4), 4 ≤ k.toNat →
    exec (.rds k) s = .next { s with flt := true, tx := s.tx ++ [⟨0x06000032, none⟩] })

/-- 40_control.md R115, 10_state.md R37 (RDSTAT): `TOPO` at bits 1..0, `FMT` at 8, `LOADED` at 16, `FLT` at 17, `0xB1` at
31..24, every other bit 0; as it stands before the command. -/
def Obligations.RdstatAnswersTheStatusWord : Prop :=
  ∀ s : State, exec .rdstat s =
    .next { s with
      tx := s.tx ++ [⟨0x07000000, some (BitVec.ofNat 64
        (s.topo.code.toNat + s.fmt.code.toNat * 2 ^ 8 + s.loaded.toNat * 2 ^ 16 + s.flt.toNat * 2 ^ 17 +
          0xB1 * 2 ^ 24))⟩] }

/-- 20_memory.md R63, 41_transform.md R150: a successful STQ, RDC, RDS or RDSTAT changes nothing, and repeated it
returns the same value. -/
def Obligations.ReadsRepeatWithTheSameValue : Prop :=
  ∀ (i : Instr) (s t : State) (r : Response),
    (i = .stq ∨ (∃ k, i = .rdc k) ∨ (∃ k, i = .rds k) ∨ i = .rdstat) →
    exec i s = .next t → t.tx = s.tx ++ [r] → r.status = 0b00 →
      t = { s with tx := s.tx ++ [r] } ∧ exec i t = .next { t with tx := t.tx ++ [r] }

/-! ### The transform family -/

/-- 41_transform.md R140, R141, R145 (XFORM, Direct): the output in the order of the rule, snapped only for the host;
the history keeps the input and the unsnapped output. The numbers are the places that name NaN results (log 7). -/
def Obligations.XformDirectComputesTheDifferenceEquation : Prop :=
  ∀ (s : State) (x : Word), s.loaded = true → s.topo = .direct → s.fmt.fits x = true →
    let T := s.fmt
    let y := T.fsub 0x308 (T.fsub 0x306 (T.fadd 0x304 (T.fadd 0x302 (T.fmul 0x300 s.c.a0 x)
      (T.fmul 0x301 s.c.a1 s.h.x_z1)) (T.fmul 0x303 s.c.a2 s.h.x_z2)) (T.fmul 0x305 s.c.b1 s.h.y_z1))
      (T.fmul 0x307 s.c.b2 s.h.y_z2)
    exec (.xform x) s =
      .next { s with h := ⟨x, s.h.x_z1, y, s.h.y_z1⟩, tx := s.tx ++ [⟨0x03000000, some (T.snap y)⟩] }

/-- 41_transform.md R140, R142, R145 (XFORM, Canonical). -/
def Obligations.XformCanonicalComputesTheta : Prop :=
  ∀ (s : State) (x : Word), s.loaded = true → s.topo = .canonical → s.fmt.fits x = true →
    let T := s.fmt
    let theta := T.fsub 0x323 (T.fsub 0x321 x (T.fmul 0x320 s.c.b1 s.h.x_z1)) (T.fmul 0x322 s.c.b2 s.h.x_z2)
    let y := T.fadd 0x328 (T.fadd 0x326 (T.fmul 0x324 s.c.a0 theta) (T.fmul 0x325 s.c.a1 s.h.x_z1))
      (T.fmul 0x327 s.c.a2 s.h.x_z2)
    exec (.xform x) s =
      .next { s with
        h := ⟨theta, s.h.x_z1, s.h.y_z1, s.h.y_z2⟩, tx := s.tx ++ [⟨0x03000000, some (T.snap y)⟩] }

/-- 41_transform.md R140, R143, R145 (XFORM, Direct-Transpose). -/
def Obligations.XformDirectTransposeRunsBothSections : Prop :=
  ∀ (s : State) (x : Word), s.loaded = true → s.topo = .directTranspose → s.fmt.fits x = true →
    let T := s.fmt
    let theta := T.fadd 0x340 x s.h.y_z1
    let y := T.fadd 0x342 (T.fmul 0x341 s.c.a0 theta) s.h.x_z1
    exec (.xform x) s =
      .next { s with
        h := ⟨T.fadd 0x344 s.h.x_z2 (T.fmul 0x343 s.c.a1 theta), T.fmul 0x345 s.c.a2 theta,
          T.fsub 0x347 s.h.y_z2 (T.fmul 0x346 s.c.b1 theta), T.fmul 0x348 (T.fneg s.c.b2) theta⟩,
        tx := s.tx ++ [⟨0x03000000, some (T.snap y)⟩] }

/-- 41_transform.md R140, R144, R145 (XFORM, Canonical-Transpose): the state update reads the unsnapped output. -/
def Obligations.XformCanonicalTransposeFeedsTheUnsnappedOutput : Prop :=
  ∀ (s : State) (x : Word), s.loaded = true → s.topo = .canonicalTranspose → s.fmt.fits x = true →
    let T := s.fmt
    let y := T.fadd 0x361 (T.fmul 0x360 s.c.a0 x) s.h.x_z1
    exec (.xform x) s =
      .next { s with
        h := ⟨T.fadd 0x365 (T.fsub 0x364 (T.fmul 0x362 s.c.a1 x) (T.fmul 0x363 s.c.b1 y)) s.h.x_z2,
          T.fsub 0x368 (T.fmul 0x366 s.c.a2 x) (T.fmul 0x367 s.c.b2 y), s.h.y_z1, s.h.y_z2⟩,
        tx := s.tx ++ [⟨0x03000000, some (T.snap y)⟩] }

/-- 41_transform.md R150 (STQ): in every loaded state it answers the unsnapped output that the step of the block's own
realization computes for the input `+0.0`, written out from R141 to R144, and changes nothing; XFORM of `+0.0` in the same
state answers the same value snapped. The numbers are the places that name NaN results; that a NaN that STQ answers is the
NaN of the XFORM, bit for bit, is the model's choice (log 7). For an infinite `a0` in Canonical and Direct-Transpose the
expressions decide, not R150's corner case (log 19). -/
def Obligations.StqAnswersTheNextZeroInputOutput : Prop :=
  ∀ s : State, s.loaded = true →
    let T := s.fmt
    let v := (filterStep s.topo T.arith s.c s.h 0).1
    exec .stq s = .next { s with tx := s.tx ++ [⟨0x04000000, some v⟩] } ∧
    (∃ h : History Word, exec (.xform 0) s =
      .next { s with h := h, tx := s.tx ++ [⟨0x03000000, some (T.snap v)⟩] } ∧ (s.topo = .direct → h.y_z1 = v)) ∧
    (s.topo = .direct →
      v = T.fsub 0x308 (T.fsub 0x306 (T.fadd 0x304 (T.fadd 0x302 (T.fmul 0x300 s.c.a0 0)
        (T.fmul 0x301 s.c.a1 s.h.x_z1)) (T.fmul 0x303 s.c.a2 s.h.x_z2)) (T.fmul 0x305 s.c.b1 s.h.y_z1))
        (T.fmul 0x307 s.c.b2 s.h.y_z2)) ∧
    (s.topo = .canonical →
      v = T.fadd 0x328 (T.fadd 0x326
        (T.fmul 0x324 s.c.a0
          (T.fsub 0x323 (T.fsub 0x321 0 (T.fmul 0x320 s.c.b1 s.h.x_z1)) (T.fmul 0x322 s.c.b2 s.h.x_z2)))
        (T.fmul 0x325 s.c.a1 s.h.x_z1)) (T.fmul 0x327 s.c.a2 s.h.x_z2)) ∧
    (s.topo = .directTranspose →
      v = T.fadd 0x342 (T.fmul 0x341 s.c.a0 (T.fadd 0x340 0 s.h.y_z1)) s.h.x_z1) ∧
    (s.topo = .canonicalTranspose → v = T.fadd 0x361 (T.fmul 0x360 s.c.a0 0) s.h.x_z1)

/-- 00_scope.md R19, 41_transform.md R145: the snap turns exactly the patterns with exponent field 0 and a nonzero
fraction, of either sign, into `+0.0`; zeros, normal values (the smallest included), infinities and NaNs stay. -/
def Obligations.SnapClearsExactlyTheSubnormals : Prop :=
  ∀ (T : Fmt) (v : Word), T.snap v = if 0 < T.mag v ∧ T.mag v < 2 ^ T.fracBits then 0 else v

/-- 41_transform.md R145: no successful XFORM answers a subnormal. -/
def Obligations.XformNeverAnswersASubnormal : Prop :=
  ∀ (s t : State) (x v : Word) (hdr : Header), exec (.xform x) s = .next t → t.tx = s.tx ++ [⟨hdr, some v⟩] →
    s.fmt.mag v = 0 ∨ 2 ^ s.fmt.fracBits ≤ s.fmt.mag v

/-- 41_transform.md R151: `c0` and `d0` are not applied: when they change, no command but an RDC of one of them answers
differently or leaves another state, but for the two registers themselves; SETC stores them and RDC returns them; the
generators store 1.0 and 0.0 (42_coefficient_generators.md R170). That two runs of a generator whose formula gives NaNs store
the same NaNs is the model's choice (log 7, unsafe for the generators). -/
def Obligations.C0AndD0AreNotApplied : Prop :=
  (∀ (i : Instr) (s t : State) (c0 d0 : Word), exec i s = .next t → i ≠ .rdc 5 → i ≠ .rdc 6 →
    ∃ t', exec i { s with c := { s.c with c0 := c0, d0 := d0 } } = .next t' ∧
      t' = { t with c := t'.c } ∧ (t'.c = t.c ∨ t'.c = { t.c with c0 := c0, d0 := d0 })) ∧
  (∀ (s : State) (a0 a1 a2 b1 b2 c0 d0 : Word), s.fmt.fits c0 = true → s.fmt.fits d0 = true →
    ∃ t u v, exec (.setc a0 a1 a2 b1 b2 c0 d0) s = .next t ∧
      exec (.rdc 5) t = .next u ∧ u.tx = t.tx ++ [⟨0x05000000, some c0⟩] ∧
      exec (.rdc 6) t = .next v ∧ v.tx = t.tx ++ [⟨0x05000000, some d0⟩]) ∧
  (∀ (s t : State) (i : Instr) (r : Response), isLoad i = true → (∀ a0 a1 a2 b1 b2 c0 d0, i ≠ .setc a0 a1 a2 b1 b2 c0 d0) →
    exec i s = .next t → t.tx = s.tx ++ [r] → r.status = 0b00 →
      t.c.c0 = s.fmt.pack false (s.fmt.roundMag (2 ^ s.fmt.unitBits) 1) ∧ t.c.d0 = 0)

/-- 41_transform.md R146: a NaN operand gives a NaN in every operation; a NaN result, of a NaN operand or of an invalid
operation, is the NaN of a free draw of which nothing is known, and every NaN of the format is some draw's; the snap returns
NaNs and infinities unchanged. That the draw is a function of the place, the format and the operands is the model's choice
(log 7). -/
def Obligations.NansPropagateAndMayBeAnyNan : Prop :=
  (∀ (T : Fmt) (k : Nat) (a b : Word), (T.isNaN a = true ∨ T.isNaN b = true) →
    T.isNaN (T.fadd k a b) = true ∧ T.isNaN (T.fsub k a b) = true ∧ T.isNaN (T.fmul k a b) = true ∧
      T.isNaN (T.fdiv k a b) = true) ∧
  (∀ (T : Fmt) (k : Nat) (a b : Word),
    (T.isNaN (T.fadd k a b) = true → T.fadd k a b = T.nanOf (Config.nanDraw k T a b)) ∧
    (T.isNaN (T.fsub k a b) = true → T.fsub k a b = T.nanOf (Config.nanDraw k T a b)) ∧
    (T.isNaN (T.fmul k a b) = true → T.fmul k a b = T.nanOf (Config.nanDraw k T a b)) ∧
    (T.isNaN (T.fdiv k a b) = true → T.fdiv k a b = T.nanOf (Config.nanDraw k T a b))) ∧
  (∀ (T : Fmt) (d : Word), T.isNaN (T.nanOf d) = true) ∧
  (∀ (T : Fmt) (w : Word), T.fits w = true → T.isNaN w = true → ∃ d, T.nanOf d = w) ∧
  (∀ (T : Fmt) (v : Word), T.isFinite v = false → T.snap v = v)

/-- 70_reset_and_hazards.md R241: once a history register that the realization feeds back holds a NaN or an infinity,
the XFORM returns a non-finite output and the history is again of that kind; for the second state of a transposed
recursive section this begins with the next XFORM. -/
def Obligations.NonFiniteHistoryPersists : Prop :=
  ∀ (s : State) (x : Word), s.loaded = true →
    ∃ (t : State) (v : Word),
      exec (.xform x) s = .next t ∧ t.tx = s.tx ++ [⟨0x03000000, some v⟩] ∧
      (feedsBack s = true → s.fmt.isFinite v = false ∧ feedsBack t = true) ∧
      (feedsBackLater s = true → feedsBack t = true)

/-- 41_transform.md R147, R148: in exact arithmetic the four realizations, from a zero history, give the same outputs
for the same coefficients and inputs. -/
def Obligations.RealizationsAgreeInExactArithmetic : Prop :=
  ∀ (c : Coeffs ℝ) (topo topo' : Topo) (xs : List ℝ),
    exactOutputs topo (exactArith ℝ) c ⟨0, 0, 0, 0⟩ xs = exactOutputs topo' (exactArith ℝ) c ⟨0, 0, 0, 0⟩ xs

/-- 41_transform.md R147: in exact arithmetic, from a zero history, every realization satisfies the difference equation
of the transfer function `(a0 + a1 z^-1 + a2 z^-2) / (1 + b1 z^-1 + b2 z^-2)`; inputs and outputs before the first are
0. -/
def Obligations.RealizationsHaveTheTransferFunction : Prop :=
  ∀ (c : Coeffs ℝ) (topo : Topo) (xs : List ℝ) (n : Nat), n < xs.length →
    let ys := exactOutputs topo (exactArith ℝ) c ⟨0, 0, 0, 0⟩ xs
    let before (l : List ℝ) (k : Nat) : ℝ := if k ≤ n then l.getD (n - k) 0 else 0
    ys.length = xs.length ∧
    before ys 0 + c.b1 * before ys 1 + c.b2 * before ys 2 =
      c.a0 * before xs 0 + c.a1 * before xs 1 + c.a2 * before xs 2

/-! ### The arithmetic -/

/-- 00_scope.md R17: rounding to nearest, ties to even, of an exact ratio; past the halfway point above the largest
finite value, infinity. -/
def Obligations.RoundingIsToNearestTiesToEven : Prop :=
  ∀ (T : Fmt) (num den : Nat), 0 < den →
    (T.roundMag num den < T.infMag → ∀ m : Nat, m < T.infMag →
      |(T.magUnits (T.roundMag num den) * den : Int) - num| ≤ |(T.magUnits m * den : Int) - num| ∧
        (|(T.magUnits (T.roundMag num den) * den : Int) - num| = |(T.magUnits m * den : Int) - num| →
          m ≠ T.roundMag num den → T.roundMag num den % 2 = 0)) ∧
    (T.roundMag num den = T.infMag ↔ (T.magUnits (T.infMag - 1) + T.magUnits T.infMag) * den ≤ 2 * num) ∧
    T.roundMag num den ≤ T.infMag

/-- 00_scope.md R17: the sum, difference, product and quotient of finite values, where finite, is the value of the
format nearest to the exact one, ties to even. When it is finite, and what the operations answer otherwise, the statements
OverflowGivesTheInfinityOfTheSign, NansComeFromInvalidOperationsAlone, InfinitiesAndZeroDivisorsFollowIeee and
SignsOfResultsFollowIeee say. -/
def Obligations.ArithmeticIsCorrectlyRounded : Prop :=
  ∀ (T : Fmt) (k : Nat) (a b : Word), T.isFinite a = true → T.isFinite b = true →
    (T.isFinite (T.fadd k a b) = true → T.IsNearest (T.fadd k a b) (T.exact a + T.exact b) 1) ∧
    (T.isFinite (T.fsub k a b) = true → T.IsNearest (T.fsub k a b) (T.exact a - T.exact b) 1) ∧
    (T.isFinite (T.fmul k a b) = true →
      T.IsNearest (T.fmul k a b) (T.exact a * T.exact b) (2 ^ T.unitBits)) ∧
    (T.exact b ≠ 0 → T.isFinite (T.fdiv k a b) = true →
      T.IsNearest (T.fdiv k a b) (T.exact a * 2 ^ T.unitBits * (T.exact b).sign) (T.exact b).natAbs)

/-- 00_scope.md R17: `widen64` is exact, and `round_T` gives a widened value back. -/
def Obligations.WideningIsExactAndRoundsBack : Prop :=
  (∀ (T : Fmt) (k : Nat) (w : Word), T.isFinite w = true →
    Fmt.exact .binary64 (T.widen64 k w) * 2 ^ T.unitBits = T.exact w * 2 ^ Fmt.unitBits .binary64) ∧
  (∀ (T : Fmt) (k k' : Nat) (w : Word), T.fits w = true → T.isNaN w = false →
    T.round64 k' (T.widen64 k w) = w)

/-- 30_encoding.md R94: after `pass`, every normal input comes out unchanged, in every realization, for a whole
sequence of inputs. (R94 says "for finite input"; zeros and subnormals are left out, because R145 and V-T2 give `+0.0`
for them.) -/
def Obligations.PassReturnsNormalSamplesUnchanged : Prop :=
  ∀ (s : State) (xs : List Word),
    (∀ x ∈ xs, s.fmt.fits x = true ∧ s.fmt.isFinite x = true ∧ 2 ^ s.fmt.fracBits ≤ s.fmt.mag x) →
    ∃ t, execAll (asmPass s.fmt ++ xs.map .xform) s = some t ∧
      t.tx = s.tx ++ ⟨0x02000000, none⟩ :: xs.map (fun x => ⟨0x03000000, some x⟩)

/-! ### The generators -/

/-- 42_coefficient_generators.md R177: a generator is refused with BAD_ARGUMENT exactly when the sample rate is not
finite or not above zero, the cutoff is not finite, or (second order) the resonance is not finite or not above zero,
read on the operands as they came; nothing but `FLT` changes. Every other argument is accepted. -/
def Obligations.GeneratorsRefuseExactlyBadArguments : Prop :=
  ∀ (s : State) (i : Instr), (i.opcode.toNat ∈ [0x10, 0x11, 0x12, 0x18, 0x19, 0x1A]) →
    (∀ w ∈ i.beats, s.fmt.fits w = true) →
    (badArguments s.fmt i.opcode.toNat i.beats = true →
      exec i s = .next { s with
        flt := true, tx := s.tx ++ [⟨BitVec.ofNat 32 (i.opcode.toNat * 2 ^ 24 + 0x52), none⟩] }) ∧
    (badArguments s.fmt i.opcode.toNat i.beats = false →
      ∃ c : Coeffs Word, exec i s = .next { s with
        c := c, h := ⟨0, 0, 0, 0⟩, loaded := true,
        tx := s.tx ++ [⟨BitVec.ofNat 32 (i.opcode.toNat * 2 ^ 24), none⟩] })

/-- 42_coefficient_generators.md R170, R171 (GLPF1): the first-order low-pass, in binary64 in the order of the rule, rounded to the
block's format; the history is zeroed and `LOADED` set. The numbers are the places that name NaN results (log 7). -/
def Obligations.Glpf1LoadsTheFirstOrderLowPass : Prop :=
  ∀ (s : State) (fs fc : Word), s.fmt.fits fs = true → s.fmt.fits fc = true →
    badArguments s.fmt 0x10 [fs, fc] = false →
    let D := Fmt.binary64
    let fs64 := s.fmt.widen64 0x10E0 fs
    let fc64 := s.fmt.widen64 0x10E1 fc
    let theta := D.fdiv 0x1002 (D.fmul 0x1001 (D.fmul 0x1000 0x4000000000000000 pi64) fc64) fs64
    let g := D.fdiv 0x1004 (Config.cos64 theta) (D.fadd 0x1003 0x3FF0000000000000 (Config.sin64 theta))
    let h := D.fdiv 0x1006 (D.fsub 0x1005 0x3FF0000000000000 g) 0x4000000000000000
    exec (.glpf1 fs fc) s =
      .next { s with
        c := roundSet s.fmt 0x10F0 ⟨h, h, 0, D.fneg g, 0, 0x3FF0000000000000, 0⟩,
        h := ⟨0, 0, 0, 0⟩, loaded := true, tx := s.tx ++ [⟨0x10000000, none⟩] }

/-- 42_coefficient_generators.md R170, R172 (GHPF1): the first-order high-pass, in binary64 in the order of the rule, rounded to the
block's format; the history is zeroed and `LOADED` set. The numbers are the places that name NaN results (log 7). -/
def Obligations.Ghpf1LoadsTheFirstOrderHighPass : Prop :=
  ∀ (s : State) (fs fc : Word), s.fmt.fits fs = true → s.fmt.fits fc = true →
    badArguments s.fmt 0x11 [fs, fc] = false →
    let D := Fmt.binary64
    let fs64 := s.fmt.widen64 0x11E0 fs
    let fc64 := s.fmt.widen64 0x11E1 fc
    let theta := D.fdiv 0x1102 (D.fmul 0x1101 (D.fmul 0x1100 0x4000000000000000 pi64) fc64) fs64
    let g := D.fdiv 0x1104 (Config.cos64 theta) (D.fadd 0x1103 0x3FF0000000000000 (Config.sin64 theta))
    let h := D.fdiv 0x1106 (D.fadd 0x1105 0x3FF0000000000000 g) 0x4000000000000000
    exec (.ghpf1 fs fc) s =
      .next { s with
        c := roundSet s.fmt 0x11F0 ⟨h, D.fneg h, 0, D.fneg g, 0, 0x3FF0000000000000, 0⟩,
        h := ⟨0, 0, 0, 0⟩, loaded := true, tx := s.tx ++ [⟨0x11000000, none⟩] }

/-- 42_coefficient_generators.md R170, R173 (GAPF1): the first-order all-pass, in binary64 in the order of the rule, rounded to the
block's format; the history is zeroed and `LOADED` set. The numbers are the places that name NaN results (log 7). -/
def Obligations.Gapf1LoadsTheFirstOrderAllPass : Prop :=
  ∀ (s : State) (fs fc : Word), s.fmt.fits fs = true → s.fmt.fits fc = true →
    badArguments s.fmt 0x12 [fs, fc] = false →
    let D := Fmt.binary64
    let fs64 := s.fmt.widen64 0x12E0 fs
    let fc64 := s.fmt.widen64 0x12E1 fc
    let t := Config.tan64 (D.fdiv 0x1201 (D.fmul 0x1200 pi64 fc64) fs64)
    let al := D.fdiv 0x1204 (D.fsub 0x1202 t 0x3FF0000000000000) (D.fadd 0x1203 t 0x3FF0000000000000)
    exec (.gapf1 fs fc) s =
      .next { s with
        c := roundSet s.fmt 0x12F0 ⟨al, 0x3FF0000000000000, 0, al, 0, 0x3FF0000000000000, 0⟩,
        h := ⟨0, 0, 0, 0⟩, loaded := true, tx := s.tx ++ [⟨0x12000000, none⟩] }

/-- 42_coefficient_generators.md R170, R174 (GLPF2): the second-order low-pass with resonance, in binary64 in the order of the rule, rounded to the
block's format; the history is zeroed and `LOADED` set. The numbers are the places that name NaN results (log 7). -/
def Obligations.Glpf2LoadsTheSecondOrderLowPass : Prop :=
  ∀ (s : State) (fs fc q : Word), s.fmt.fits fs = true → s.fmt.fits fc = true → s.fmt.fits q = true →
    badArguments s.fmt 0x18 [fs, fc, q] = false →
    let D := Fmt.binary64
    let fs64 := s.fmt.widen64 0x18E0 fs
    let fc64 := s.fmt.widen64 0x18E1 fc
    let q64 := s.fmt.widen64 0x18E2 q
    let theta := D.fdiv 0x1802 (D.fmul 0x1801 (D.fmul 0x1800 0x4000000000000000 pi64) fc64) fs64
    let d := D.fdiv 0x1803 0x3FF0000000000000 q64
    let k := D.fmul 0x1805 (D.fdiv 0x1804 d 0x4000000000000000) (Config.sin64 theta)
    let be := D.fdiv 0x1809 (D.fmul 0x1807 0x3FE0000000000000 (D.fsub 0x1806 0x3FF0000000000000 k)) (D.fadd 0x1808 0x3FF0000000000000 k)
    let ga := D.fmul 0x180B (D.fadd 0x180A 0x3FE0000000000000 be) (Config.cos64 theta)
    let m := D.fsub 0x180D (D.fadd 0x180C 0x3FE0000000000000 be) ga
    let al := D.fdiv 0x180E m 0x4000000000000000
    exec (.glpf2 fs fc q) s =
      .next { s with
        c := roundSet s.fmt 0x18F0 ⟨al, D.fmul 0x180F 0x4000000000000000 al, al, D.fneg (D.fmul 0x1810 0x4000000000000000 ga),
          D.fmul 0x1811 0x4000000000000000 be, 0x3FF0000000000000, 0⟩,
        h := ⟨0, 0, 0, 0⟩, loaded := true, tx := s.tx ++ [⟨0x18000000, none⟩] }

/-- 42_coefficient_generators.md R170, R175 (GHPF2): the second-order high-pass with resonance, in binary64 in the order of the rule, rounded to the
block's format; the history is zeroed and `LOADED` set. The numbers are the places that name NaN results (log 7). -/
def Obligations.Ghpf2LoadsTheSecondOrderHighPass : Prop :=
  ∀ (s : State) (fs fc q : Word), s.fmt.fits fs = true → s.fmt.fits fc = true → s.fmt.fits q = true →
    badArguments s.fmt 0x19 [fs, fc, q] = false →
    let D := Fmt.binary64
    let fs64 := s.fmt.widen64 0x19E0 fs
    let fc64 := s.fmt.widen64 0x19E1 fc
    let q64 := s.fmt.widen64 0x19E2 q
    let theta := D.fdiv 0x1902 (D.fmul 0x1901 (D.fmul 0x1900 0x4000000000000000 pi64) fc64) fs64
    let d := D.fdiv 0x1903 0x3FF0000000000000 q64
    let k := D.fmul 0x1905 (D.fdiv 0x1904 d 0x4000000000000000) (Config.sin64 theta)
    let be := D.fdiv 0x1909 (D.fmul 0x1907 0x3FE0000000000000 (D.fsub 0x1906 0x3FF0000000000000 k)) (D.fadd 0x1908 0x3FF0000000000000 k)
    let ga := D.fmul 0x190B (D.fadd 0x190A 0x3FE0000000000000 be) (Config.cos64 theta)
    let m := D.fadd 0x190D (D.fadd 0x190C 0x3FE0000000000000 be) ga
    let al := D.fdiv 0x190E m 0x4000000000000000
    exec (.ghpf2 fs fc q) s =
      .next { s with
        c := roundSet s.fmt 0x19F0 ⟨al, D.fneg (D.fmul 0x190F 0x4000000000000000 al), al, D.fneg (D.fmul 0x1910 0x4000000000000000 ga),
          D.fmul 0x1911 0x4000000000000000 be, 0x3FF0000000000000, 0⟩,
        h := ⟨0, 0, 0, 0⟩, loaded := true, tx := s.tx ++ [⟨0x19000000, none⟩] }

/-- 42_coefficient_generators.md R170, R176 (GAPF2): the second-order all-pass with resonance, in binary64 in the order of the rule, rounded to the
block's format; the history is zeroed and `LOADED` set. The numbers are the places that name NaN results (log 7). -/
def Obligations.Gapf2LoadsTheSecondOrderAllPass : Prop :=
  ∀ (s : State) (fs fc q : Word), s.fmt.fits fs = true → s.fmt.fits fc = true → s.fmt.fits q = true →
    badArguments s.fmt 0x1A [fs, fc, q] = false →
    let D := Fmt.binary64
    let fs64 := s.fmt.widen64 0x1AE0 fs
    let fc64 := s.fmt.widen64 0x1AE1 fc
    let q64 := s.fmt.widen64 0x1AE2 q
    let bw := D.fdiv 0x1A00 fc64 q64
    let t := Config.tan64 (D.fdiv 0x1A02 (D.fmul 0x1A01 pi64 bw) fs64)
    let al := D.fdiv 0x1A05 (D.fsub 0x1A03 t 0x3FF0000000000000) (D.fadd 0x1A04 t 0x3FF0000000000000)
    let be := D.fneg (Config.cos64 (D.fdiv 0x1A08 (D.fmul 0x1A07 (D.fmul 0x1A06 0x4000000000000000 pi64) fc64) fs64))
    let p := D.fmul 0x1A0A be (D.fsub 0x1A09 0x3FF0000000000000 al)
    exec (.gapf2 fs fc q) s =
      .next { s with
        c := roundSet s.fmt 0x1AF0 ⟨D.fneg al, p, 0x3FF0000000000000, p, D.fneg al, 0x3FF0000000000000, 0⟩,
        h := ⟨0, 0, 0, 0⟩, loaded := true, tx := s.tx ++ [⟨0x1A000000, none⟩] }

/-- 42_coefficient_generators.md R178: in exact arithmetic, for any sine, cosine and tangent, the low-passes have gain 1
at `z = 1`; the high-passes gain 1 at `z = -1` and gain 0 at `z = 1`; the all-passes have the denominator's coefficients
in reverse order as numerator. -/
def Obligations.DesignsHaveTheStatedGains : Prop :=
  ∀ (pi : ℝ) (sin cos tan : ℝ → ℝ) (fs fc q : ℝ),
    let A := exactDesign pi sin cos tan
    let atOne (c : Coeffs ℝ) : ℝ := (c.a0 + c.a1 + c.a2) / (1 + c.b1 + c.b2)
    let atMinusOne (c : Coeffs ℝ) : ℝ := (c.a0 - c.a1 + c.a2) / (1 - c.b1 + c.b2)
    let poleAtOne (c : Coeffs ℝ) : Prop := 1 + c.b1 + c.b2 = 0
    let poleAtMinusOne (c : Coeffs ℝ) : Prop := 1 - c.b1 + c.b2 = 0
    (¬ poleAtOne (glpf1Formula A fs fc) → atOne (glpf1Formula A fs fc) = 1) ∧
    (¬ poleAtOne (glpf2Formula A fs fc q) → atOne (glpf2Formula A fs fc q) = 1) ∧
    (¬ poleAtMinusOne (ghpf1Formula A fs fc) → atMinusOne (ghpf1Formula A fs fc) = 1) ∧
    (¬ poleAtMinusOne (ghpf2Formula A fs fc q) → atMinusOne (ghpf2Formula A fs fc q) = 1) ∧
    atOne (ghpf1Formula A fs fc) = 0 ∧ atOne (ghpf2Formula A fs fc q) = 0 ∧
    ((gapf1Formula A fs fc).a0 = (gapf1Formula A fs fc).b1 ∧ (gapf1Formula A fs fc).a1 = 1 ∧
      (gapf1Formula A fs fc).a2 = 0 ∧ (gapf1Formula A fs fc).b2 = 0) ∧
    ((gapf2Formula A fs fc q).a0 = (gapf2Formula A fs fc q).b2 ∧
      (gapf2Formula A fs fc q).a1 = (gapf2Formula A fs fc q).b1 ∧ (gapf2Formula A fs fc q).a2 = 1)

/-- 42_coefficient_generators.md R178: in exact arithmetic the all-passes have magnitude response 1 at every frequency:
numerator and denominator have the same magnitude at every `z` on the unit circle. -/
def Obligations.AllPassesHaveUnitMagnitude : Prop :=
  ∀ (pi : ℝ) (sin cos tan : ℝ → ℝ) (fs fc q : ℝ) (z : ℂ), ‖z‖ = 1 →
    let same (c : Coeffs ℝ) : Prop :=
      ‖(c.a0 : ℂ) + c.a1 * z⁻¹ + c.a2 * (z⁻¹) ^ 2‖ = ‖(1 : ℂ) + c.b1 * z⁻¹ + c.b2 * (z⁻¹) ^ 2‖
    same (gapf1Formula (exactDesign pi sin cos tan) fs fc) ∧
      same (gapf2Formula (exactDesign pi sin cos tan) fs fc q)

/-! ### The arithmetic beyond finite results, and the conversions -/

/-- 00_scope.md R17, 93_implementation_defined.md K3: an operation on finite operands answers an infinity exactly when the
exact result is at or past the halfway point above the largest finite value, and the infinity has the result's sign;
otherwise it answers a finite value (log 12). -/
def Obligations.OverflowGivesTheInfinityOfTheSign : Prop :=
  ∀ (T : Fmt) (k : Nat) (a b : Word), T.isFinite a = true → T.isFinite b = true →
    (T.Overflows (T.exact a + T.exact b) 1 → T.fadd k a b = T.infinity (decide (T.exact a + T.exact b < 0))) ∧
    (¬ T.Overflows (T.exact a + T.exact b) 1 → T.isFinite (T.fadd k a b) = true) ∧
    (T.Overflows (T.exact a - T.exact b) 1 → T.fsub k a b = T.infinity (decide (T.exact a - T.exact b < 0))) ∧
    (¬ T.Overflows (T.exact a - T.exact b) 1 → T.isFinite (T.fsub k a b) = true) ∧
    (T.Overflows (T.exact a * T.exact b) (2 ^ T.unitBits) → T.fmul k a b = T.infinity (T.sign a != T.sign b)) ∧
    (¬ T.Overflows (T.exact a * T.exact b) (2 ^ T.unitBits) → T.isFinite (T.fmul k a b) = true) ∧
    (T.exact b ≠ 0 → T.Overflows (T.exact a * 2 ^ T.unitBits) (T.exact b).natAbs →
      T.fdiv k a b = T.infinity (T.sign a != T.sign b)) ∧
    (T.exact b ≠ 0 → ¬ T.Overflows (T.exact a * 2 ^ T.unitBits) (T.exact b).natAbs → T.isFinite (T.fdiv k a b) = true)

/-- 00_scope.md R17, 41_transform.md R146: an operation answers a NaN exactly when an operand is a NaN or the operation is
invalid: infinities that cancel, zero times infinity, zero by zero, infinity by infinity (log 12). -/
def Obligations.NansComeFromInvalidOperationsAlone : Prop :=
  ∀ (T : Fmt) (k : Nat) (a b : Word),
    (T.isNaN (T.fadd k a b) = true ↔ T.isNaN a = true ∨ T.isNaN b = true ∨
      (T.isInf a = true ∧ T.isInf b = true ∧ T.sign a ≠ T.sign b)) ∧
    (T.isNaN (T.fsub k a b) = true ↔ T.isNaN a = true ∨ T.isNaN b = true ∨
      (T.isInf a = true ∧ T.isInf b = true ∧ T.sign a = T.sign b)) ∧
    (T.isNaN (T.fmul k a b) = true ↔ T.isNaN a = true ∨ T.isNaN b = true ∨
      (T.isInf a = true ∧ T.mag b = 0) ∨ (T.mag a = 0 ∧ T.isInf b = true)) ∧
    (T.isNaN (T.fdiv k a b) = true ↔ T.isNaN a = true ∨ T.isNaN b = true ∨
      (T.isInf a = true ∧ T.isInf b = true) ∨ (T.mag a = 0 ∧ T.mag b = 0))

/-- 00_scope.md R17: what an infinite operand or a zero divisor gives where the operation is not invalid (log 12). -/
def Obligations.InfinitiesAndZeroDivisorsFollowIeee : Prop :=
  ∀ (T : Fmt) (k : Nat) (a b : Word),
    (T.isInf a = true → (T.isFinite b = true ∨ (T.isInf b = true ∧ T.sign b = T.sign a)) →
      T.fadd k a b = T.infinity (T.sign a) ∧ T.fadd k b a = T.infinity (T.sign a)) ∧
    (T.isInf a = true → (T.isFinite b = true ∨ (T.isInf b = true ∧ T.sign b ≠ T.sign a)) →
      T.fsub k a b = T.infinity (T.sign a) ∧ T.fsub k b a = T.infinity (!T.sign a)) ∧
    (T.isInf a = true → T.isNaN b = false → T.mag b ≠ 0 →
      T.fmul k a b = T.infinity (T.sign a != T.sign b) ∧ T.fmul k b a = T.infinity (T.sign a != T.sign b)) ∧
    (T.isInf a = true → T.isFinite b = true →
      T.fdiv k a b = T.infinity (T.sign a != T.sign b) ∧ T.fdiv k b a = T.pack (T.sign a != T.sign b) 0) ∧
    (T.isFinite a = true → T.mag a ≠ 0 → T.mag b = 0 → T.fdiv k a b = T.infinity (T.sign a != T.sign b))

/-- 00_scope.md R17, 93_implementation_defined.md K3: the signs of results of finite operands. A zero sum is `-0.0` only
when both addends are negative zeros, so `x + (-x)` is `+0.0`; another sum has the exact sum's sign; a product and a
quotient have the exclusive or of the signs, zeros included (log 12). -/
def Obligations.SignsOfResultsFollowIeee : Prop :=
  ∀ (T : Fmt) (k : Nat) (a b : Word), T.isFinite a = true → T.isFinite b = true →
    (T.exact a + T.exact b = 0 → T.fadd k a b = T.pack (decide (T.mag a = 0) && T.sign a && T.sign b) 0) ∧
    (T.exact a + T.exact b ≠ 0 → T.sign (T.fadd k a b) = decide (T.exact a + T.exact b < 0)) ∧
    (T.exact a - T.exact b = 0 → T.fsub k a b = T.pack (decide (T.mag a = 0) && T.sign a && !T.sign b) 0) ∧
    (T.exact a - T.exact b ≠ 0 → T.sign (T.fsub k a b) = decide (T.exact a - T.exact b < 0)) ∧
    T.sign (T.fmul k a b) = (T.sign a != T.sign b) ∧
    (T.exact b ≠ 0 → T.sign (T.fdiv k a b) = (T.sign a != T.sign b))

/-- 00_scope.md R17 (used by 42_coefficient_generators.md R170): `round_T` of every finite binary64 value is the value of
`T` nearest to it, ties to even, with its sign, or the infinity of its sign from the halfway point above the largest finite
value on; `round_T` and `widen64` keep infinities, keep the sign of every value but a NaN, and give a NaN for a NaN, and
`widen64` of a finite value is finite (log 9, log 12). -/
def Obligations.ConversionsRoundToNearest : Prop :=
  ∀ (T : Fmt) (k : Nat) (w : Word),
    let D := Fmt.binary64
    (D.isFinite w = true → ¬ T.Overflows (D.exact w * 2 ^ T.unitBits) (2 ^ D.unitBits) →
      T.isFinite (T.round64 k w) = true ∧ T.sign (T.round64 k w) = D.sign w ∧
        T.IsNearest (T.round64 k w) (D.exact w * 2 ^ T.unitBits) (2 ^ D.unitBits)) ∧
    (D.isFinite w = true → T.Overflows (D.exact w * 2 ^ T.unitBits) (2 ^ D.unitBits) →
      T.round64 k w = T.infinity (D.sign w)) ∧
    (D.isInf w = true → T.round64 k w = T.infinity (D.sign w)) ∧
    (D.isNaN w = true → T.isNaN (T.round64 k w) = true) ∧
    (T.isFinite w = true → D.isFinite (T.widen64 k w) = true ∧ D.sign (T.widen64 k w) = T.sign w) ∧
    (T.isInf w = true → D.isInf (T.widen64 k w) = true ∧ D.sign (T.widen64 k w) = T.sign w) ∧
    (T.isNaN w = true → D.isNaN (T.widen64 k w) = true)

/-! ### Responses over a byte-wide medium -/

/-- 20_memory.md R61, 30_encoding.md R84: a response goes over a byte-wide medium as its header's four bytes and, where
there is one, its beat's `W / 8` bytes, each least significant byte first; the response of a step, of a command or a
refused header, is added at the end of what the host receives, and the host reads it back whole. -/
def Obligations.ResponsesAreCarriedLittleEndian : Prop :=
  (∀ (T : Fmt) (h : Header), Response.bytes T ⟨h, none⟩ =
    [h.extractLsb' 0 8, h.extractLsb' 8 8, h.extractLsb' 16 8, h.extractLsb' 24 8]) ∧
  (∀ (h : Header) (w : Word), Response.bytes .binary32 ⟨h, some w⟩ =
    [h.extractLsb' 0 8, h.extractLsb' 8 8, h.extractLsb' 16 8, h.extractLsb' 24 8,
     w.extractLsb' 0 8, w.extractLsb' 8 8, w.extractLsb' 16 8, w.extractLsb' 24 8]) ∧
  (∀ (h : Header) (w : Word), Response.bytes .binary64 ⟨h, some w⟩ =
    [h.extractLsb' 0 8, h.extractLsb' 8 8, h.extractLsb' 16 8, h.extractLsb' 24 8,
     w.extractLsb' 0 8, w.extractLsb' 8 8, w.extractLsb' 16 8, w.extractLsb' 24 8,
     w.extractLsb' 32 8, w.extractLsb' 40 8, w.extractLsb' 48 8, w.extractLsb' 56 8]) ∧
  (∀ s t : State, s.Inv = true → (∀ e ∈ s.rx, isWord e = true) → step s = .next t →
    ∃ r : Response, t.tx = s.tx ++ [r] ∧ t.sentBytes = s.sentBytes ++ r.bytes s.fmt ∧
      ∀ bs : List Byte, frameResponse s.fmt (r.bytes s.fmt ++ bs) = some (r, bs))

/-- 70_reset_and_hazards.md R241, third line: in Direct-Transpose a non-finite `H[0]` makes the next output non-finite and a
non-finite `H[1]` the output after it, and neither is fed back: the history after one XFORM does not depend on `H[0]`, and
after two on neither, so what they held is gone. That two runs draw the same NaNs for the same operands is log 7. -/
def Obligations.FeedForwardStatesLeaveAfterTwoSteps : Prop :=
  ∀ (s : State) (x x' h0 h1 : Word), s.loaded = true → s.topo = .directTranspose →
    ∃ (t u t' u' : State) (v v' : Word),
      exec (.xform x) s = .next t ∧ t.tx = s.tx ++ [⟨0x03000000, some v⟩] ∧
      exec (.xform x') t = .next u ∧ u.tx = t.tx ++ [⟨0x03000000, some v'⟩] ∧
      (s.fmt.isFinite s.h.x_z1 = false → s.fmt.isFinite v = false) ∧
      (s.fmt.isFinite s.h.x_z2 = false → s.fmt.isFinite v' = false) ∧
      exec (.xform x) { s with h := { s.h with x_z1 := h0, x_z2 := h1 } } = .next t' ∧
      exec (.xform x') t' = .next u' ∧
      (h1 = s.h.x_z2 → t'.h = t.h) ∧ u'.h = u.h
end

