-- ==== Sys2Proof/Laws/Float.lean ====
section
/-! SUPPORT. What the primitives of Machine/Float.lean do: packing and unpacking, the three classes of values, NaN and
infinity through an operation, and that every result is one beat of the format. -/

namespace Sys2Proof

/-! ### The numbers of the formats -/

theorem Fmt.width_pos (T : Fmt) : 0 < T.width := by cases T <;> decide

theorem Fmt.width_le (T : Fmt) : T.width ≤ 64 := by cases T <;> decide

theorem Fmt.infMag_lt (T : Fmt) : T.infMag < 2 ^ (T.width - 1) := by cases T <;> decide +kernel

theorem Fmt.fracPow_pos (T : Fmt) : 0 < 2 ^ T.fracBits := Nat.two_pow_pos _

theorem Fmt.fracPow_lt_infMag (T : Fmt) : 2 ^ T.fracBits < T.infMag := by cases T <;> decide +kernel

theorem Fmt.infMag_add_fracPow (T : Fmt) : T.infMag + 2 ^ T.fracBits = 2 ^ (T.width - 1) := by
  cases T <;> decide +kernel

theorem Fmt.two_mul_signPow (T : Fmt) : 2 ^ (T.width - 1) + 2 ^ (T.width - 1) = 2 ^ T.width := by
  cases T <;> decide +kernel

theorem Fmt.widthPow_le (T : Fmt) : 2 ^ T.width ≤ 2 ^ 64 := by cases T <;> decide +kernel

theorem Fmt.infMag_pos (T : Fmt) : 0 < T.infMag := T.fracPow_pos.trans T.fracPow_lt_infMag

/-! ### pack, mag, sign -/

theorem Fmt.mag_lt (T : Fmt) (w : Word) : T.mag w < 2 ^ (T.width - 1) := Nat.mod_lt _ (Nat.two_pow_pos _)

theorem Fmt.toNat_pack (T : Fmt) (neg : Bool) {m : Nat} (h : m < 2 ^ (T.width - 1)) :
    (T.pack neg m).toNat = (if neg then 2 ^ (T.width - 1) else 0) + m := by
  have h1 := T.two_mul_signPow
  have h2 := T.widthPow_le
  unfold Fmt.pack
  rw [BitVec.toNat_ofNat]
  apply Nat.mod_eq_of_lt
  split <;> omega

@[simp] theorem Fmt.mag_pack (T : Fmt) (neg : Bool) {m : Nat} (h : m < 2 ^ (T.width - 1)) :
    T.mag (T.pack neg m) = m := by
  unfold Fmt.mag
  rw [T.toNat_pack neg h]
  cases neg
  · simp [Nat.mod_eq_of_lt h]
  · simp [Nat.mod_eq_of_lt h]

@[simp] theorem Fmt.sign_pack (T : Fmt) (neg : Bool) {m : Nat} (h : m < 2 ^ (T.width - 1)) :
    T.sign (T.pack neg m) = neg := by
  unfold Fmt.sign
  rw [← BitVec.testBit_toNat, T.toNat_pack neg h]
  cases neg
  · simp [Nat.testBit_lt_two_pow h]
  · have := Nat.testBit_two_pow_add_eq m (T.width - 1)
    simp [this, Nat.testBit_lt_two_pow h]

/-- A result of the arithmetic is one beat of the format. -/
@[simp] theorem Fmt.fits_pack (T : Fmt) (neg : Bool) {m : Nat} (h : m < 2 ^ (T.width - 1)) :
    T.fits (T.pack neg m) = true := by
  have h1 := T.two_mul_signPow
  simp only [Fmt.fits, decide_eq_true_eq]
  rw [T.toNat_pack neg h]
  split <;> omega

theorem Fmt.roundMag_le (T : Fmt) (num den : Nat) : T.roundMag num den ≤ T.infMag := Nat.min_le_right _ _

theorem Fmt.roundMag_lt (T : Fmt) (num den : Nat) : T.roundMag num den < 2 ^ (T.width - 1) :=
  (T.roundMag_le num den).trans_lt T.infMag_lt

/-- Rounding a value that the format has gives that value. -/
theorem Fmt.roundMag_magUnits (T : Fmt) {m den : Nat} (hd : 0 < den) (hm : m ≤ T.infMag) :
    T.roundMag (T.magUnits m * den) den = m := by
  have hp := T.fracPow_pos
  unfold Fmt.roundMag Fmt.magUnits
  split
  · rename_i h
    have hlt : m < 2 ^ T.fracBits := (Nat.div_eq_zero_iff_lt hp).1 h
    have hlog : Nat.log2 m - T.fracBits = 0 := by
      rcases Nat.eq_zero_or_pos m with rfl | h0
      · simp
      · have := (Nat.log2_lt (by omega)).2 hlt
        omega
    simp only [Nat.mul_div_cancel _ hd, hlog, pow_zero, mul_one, Nat.mul_mod_left, Nat.zero_mul, Nat.zero_add]
    rw [if_neg (by omega), Nat.min_eq_left hm]
  · rename_i h
    obtain ⟨k, hk⟩ : ∃ k, m / 2 ^ T.fracBits = k + 1 := ⟨m / 2 ^ T.fracBits - 1, (Nat.succ_pred h).symm⟩
    have hr : m % 2 ^ T.fracBits < 2 ^ T.fracBits := Nat.mod_lt _ hp
    have hlog : Nat.log2 ((2 ^ T.fracBits + m % 2 ^ T.fracBits) * 2 ^ k) - T.fracBits = k := by
      have : Nat.log2 ((2 ^ T.fracBits + m % 2 ^ T.fracBits) * 2 ^ k) = T.fracBits + k := by
        apply (Nat.log2_eq_iff (by positivity)).2
        constructor
        · rw [pow_add]; gcongr; omega
        · rw [pow_succ, pow_add]
          calc _ < (2 ^ T.fracBits + 2 ^ T.fracBits) * 2 ^ k := by gcongr
            _ = _ := by ring
      omega
    have hq : (2 ^ T.fracBits + m % 2 ^ T.fracBits) * 2 ^ k * den =
        (2 ^ T.fracBits + m % 2 ^ T.fracBits) * (den * 2 ^ k) := by ring
    have hmk : k * 2 ^ T.fracBits + (2 ^ T.fracBits + m % 2 ^ T.fracBits) = m := by
      have := Nat.div_add_mod m (2 ^ T.fracBits)
      rw [hk] at this
      linarith [this, Nat.mul_comm (2 ^ T.fracBits) (k + 1), Nat.succ_mul k (2 ^ T.fracBits)]
    have hd2 : 0 < den * 2 ^ k := by positivity
    have hdiv : (2 ^ T.fracBits + m % 2 ^ T.fracBits) * 2 ^ k * den / den =
        (2 ^ T.fracBits + m % 2 ^ T.fracBits) * 2 ^ k := Nat.mul_div_cancel _ hd
    simp only [hk, Nat.add_sub_cancel, hdiv, hlog]
    rw [hq, Nat.mul_div_cancel _ hd2, Nat.mul_mod_left, if_neg (by omega), hmk, Nat.min_eq_left hm]

/-! ### The three classes -/

theorem Fmt.unpack_eq_nan_iff (T : Fmt) (w : Word) : T.unpack w = .nan ↔ T.isNaN w = true := by
  unfold Fmt.unpack Fmt.isNaN
  split
  · simp_all
  · split <;> simp_all

theorem Fmt.isFinite_iff_unpack (T : Fmt) (w : Word) :
    T.isFinite w = true ↔ T.unpack w = .fin (T.sign w) (T.magUnits (T.mag w)) := by
  unfold Fmt.unpack Fmt.isFinite
  split
  · simp; omega
  · split <;> simp <;> omega

/-- The three shapes of an unpacked pattern, with the class each says. -/
theorem Fmt.unpack_cases (T : Fmt) (w : Word) :
    (T.unpack w = .nan ∧ T.isNaN w = true ∧ T.isFinite w = false) ∨
    ((∃ s, T.unpack w = .inf s) ∧ T.isNaN w = false ∧ T.isFinite w = false) ∨
    (T.unpack w = .fin (T.sign w) (T.magUnits (T.mag w)) ∧ T.isNaN w = false ∧ T.isFinite w = true) := by
  unfold Fmt.unpack Fmt.isNaN Fmt.isFinite
  split
  · left; simp; omega
  · split
    · right; left; simp_all
    · right; right; simp; omega

theorem Fmt.isFinite_pack (T : Fmt) (neg : Bool) {m : Nat} (h : m < 2 ^ (T.width - 1)) :
    T.isFinite (T.pack neg m) = decide (m < T.infMag) := by simp [Fmt.isFinite, h]

theorem Fmt.isNaN_pack (T : Fmt) (neg : Bool) {m : Nat} (h : m < 2 ^ (T.width - 1)) :
    T.isNaN (T.pack neg m) = decide (T.infMag < m) := by simp [Fmt.isNaN, h]

/-- Unpacking a packed finite magnitude gives its sign and units. -/
theorem Fmt.unpack_pack (T : Fmt) (neg : Bool) {m : Nat} (h : m < T.infMag) :
    T.unpack (T.pack neg m) = .fin neg (T.magUnits m) := by
  have h' := h.trans T.infMag_lt
  simp [Fmt.unpack, h', show ¬ T.infMag < m by omega, show ¬ m = T.infMag by omega]

theorem Fmt.isFinite_infinity (T : Fmt) (neg : Bool) : T.isFinite (T.infinity neg) = false := by
  simp [Fmt.infinity, T.isFinite_pack neg T.infMag_lt]

theorem Fmt.fits_infinity (T : Fmt) (neg : Bool) : T.fits (T.infinity neg) = true := T.fits_pack neg T.infMag_lt

theorem Fmt.nanMag_lt (T : Fmt) (n : Nat) : T.infMag + 1 + n % (2 ^ T.fracBits - 1) < 2 ^ (T.width - 1) := by
  have h := T.infMag_add_fracPow
  have h2 : 1 < 2 ^ T.fracBits := by cases T <;> decide
  have := Nat.mod_lt n (show 0 < 2 ^ T.fracBits - 1 by omega)
  omega

theorem Fmt.isNaN_nanOf (T : Fmt) (d : Word) : T.isNaN (T.nanOf d) = true := by
  unfold Fmt.nanOf
  rw [T.isNaN_pack _ (T.nanMag_lt _)]
  simp; omega

theorem Fmt.fits_nanOf (T : Fmt) (d : Word) : T.fits (T.nanOf d) = true := T.fits_pack _ (T.nanMag_lt _)

theorem Fmt.isFinite_of_isNaN (T : Fmt) {w : Word} (h : T.isNaN w = true) : T.isFinite w = false := by
  simp [Fmt.isNaN, Fmt.isFinite] at *; omega

/-! ### Operations on values that are not all finite -/

/-- A value that is neither an infinity nor a NaN. -/
def Val.isFin : Val → Bool
  | .fin _ _ => true
  | _ => false

theorem Fmt.isFinite_eq_isFin (T : Fmt) (w : Word) : T.isFinite w = (T.unpack w).isFin := by
  rcases T.unpack_cases w with ⟨h, _, h2⟩ | ⟨⟨s, h⟩, _, h2⟩ | ⟨h, _, h2⟩ <;> rw [h, h2] <;> rfl

@[simp] theorem Val.isFin_neg (v : Val) : v.neg.isFin = v.isFin := by cases v <;> rfl

/-- Addition with an operand that is not finite gives a result that is not finite. -/
theorem Fmt.addVal_nonfinite (T : Fmt) {n : Word} (hn : T.isFinite n = false) {u v : Val}
    (h : u.isFin = false ∨ v.isFin = false) : T.isFinite (T.addVal n u v) = false := by
  cases u <;> cases v <;> simp_all [Fmt.addVal, Val.isFin, Fmt.isFinite_infinity]
  split <;> simp_all [Fmt.isFinite_infinity]

/-- Multiplication with an operand that is not finite gives a result that is not finite. -/
theorem Fmt.mulVal_nonfinite (T : Fmt) {n : Word} (hn : T.isFinite n = false) {u v : Val}
    (h : u.isFin = false ∨ v.isFin = false) : T.isFinite (T.mulVal n u v) = false := by
  cases u <;> cases v <;> simp_all [Fmt.mulVal, Val.isFin, Fmt.isFinite_infinity] <;> split <;>
    simp_all [Fmt.isFinite_infinity]

theorem Fmt.nanResult_nonfinite (T : Fmt) (k : Nat) (a b : Word) : T.isFinite (T.nanResult k a b) = false :=
  T.isFinite_of_isNaN (T.isNaN_nanOf _)

/-! ### A NaN result is the free one -/

theorem Fmt.isNaN_infinity (T : Fmt) (neg : Bool) : T.isNaN (T.infinity neg) = false := by
  simp [Fmt.infinity, T.isNaN_pack neg T.infMag_lt]

theorem Fmt.isNaN_pack_roundMag (T : Fmt) (neg : Bool) (num den : Nat) :
    T.isNaN (T.pack neg (T.roundMag num den)) = false := by
  have := T.roundMag_le num den
  simp [T.isNaN_pack neg (T.roundMag_lt num den)]
  omega

theorem Fmt.isNaN_pack_zero (T : Fmt) (neg : Bool) : T.isNaN (T.pack neg 0) = false := by
  simp [T.isNaN_pack neg (Nat.two_pow_pos _)]

theorem Fmt.isNaN_roundSum (T : Fmt) (s : Bool) (a : Nat) (t : Bool) (b : Nat) :
    T.isNaN (T.roundSum s a t b) = false := by
  unfold Fmt.roundSum
  dsimp only
  split <;> simp only [T.isNaN_pack_zero, T.isNaN_pack_roundMag]

/-- Where a sum is a NaN, it is the NaN it was given. -/
theorem Fmt.addVal_of_isNaN (T : Fmt) {n : Word} {u v : Val} (h : T.isNaN (T.addVal n u v) = true) :
    T.addVal n u v = n := by
  cases u <;> cases v <;> simp_all [Fmt.addVal, T.isNaN_infinity, T.isNaN_roundSum]
  intro e
  simp [e, T.isNaN_infinity] at h

/-- Where a product is a NaN, it is the NaN it was given. -/
theorem Fmt.mulVal_of_isNaN (T : Fmt) {n : Word} {u v : Val} (h : T.isNaN (T.mulVal n u v) = true) :
    T.mulVal n u v = n := by
  cases u <;> cases v <;> simp_all [Fmt.mulVal, T.isNaN_infinity, T.isNaN_pack_roundMag] <;>
    (split at h <;> simp_all [T.isNaN_infinity])

/-- Where a quotient is a NaN, it is the NaN it was given. -/
theorem Fmt.divVal_of_isNaN (T : Fmt) {n : Word} {u v : Val} (h : T.isNaN (T.divVal n u v) = true) :
    T.divVal n u v = n := by
  cases u <;> cases v <;> simp_all [Fmt.divVal, T.isNaN_infinity, T.isNaN_pack_zero]
  repeat' split at h
  all_goals simp_all [T.isNaN_infinity, T.isNaN_pack_roundMag]

/-! ### Every result fits the format -/

theorem Fmt.fits_nanResult (T : Fmt) (k : Nat) (a b : Word) : T.fits (T.nanResult k a b) = true := T.fits_nanOf _

theorem Fmt.fits_roundSum (T : Fmt) (s : Bool) (a : Nat) (t : Bool) (b : Nat) : T.fits (T.roundSum s a t b) = true := by
  unfold Fmt.roundSum
  dsimp only
  split
  · exact T.fits_pack _ (Nat.two_pow_pos _)
  · exact T.fits_pack _ (T.roundMag_lt _ _)

theorem Fmt.fits_addVal (T : Fmt) {n : Word} (hn : T.fits n = true) (u v : Val) : T.fits (T.addVal n u v) = true := by
  cases u <;> cases v <;> simp only [Fmt.addVal, hn, T.fits_infinity, T.fits_roundSum]
  split <;> simp only [hn, T.fits_infinity]

theorem Fmt.fits_mulVal (T : Fmt) {n : Word} (hn : T.fits n = true) (u v : Val) : T.fits (T.mulVal n u v) = true := by
  cases u <;> cases v <;>
    simp only [Fmt.mulVal, hn, T.fits_infinity, T.fits_pack _ (T.roundMag_lt _ _)] <;>
    split <;> simp only [hn, T.fits_infinity]

theorem Fmt.fits_fadd (T : Fmt) (k : Nat) (a b : Word) : T.fits (T.fadd k a b) = true :=
  T.fits_addVal (T.fits_nanResult k a b) _ _

theorem Fmt.fits_fsub (T : Fmt) (k : Nat) (a b : Word) : T.fits (T.fsub k a b) = true :=
  T.fits_addVal (T.fits_nanResult k a b) _ _

theorem Fmt.fits_fmul (T : Fmt) (k : Nat) (a b : Word) : T.fits (T.fmul k a b) = true :=
  T.fits_mulVal (T.fits_nanResult k a b) _ _

theorem Fmt.fits_zero (T : Fmt) : T.fits 0 = true := by cases T <;> decide +kernel

/-- Flipping the sign bit keeps a beat a beat. -/
theorem Fmt.fits_fneg (T : Fmt) {w : Word} (h : T.fits w = true) : T.fits (T.fneg w) = true := by
  simp only [Fmt.fits, decide_eq_true_eq] at *
  unfold Fmt.fneg
  rw [BitVec.toNat_xor]
  apply Nat.xor_lt_two_pow h
  rw [BitVec.toNat_ofNat]
  have h1 := T.two_mul_signPow
  have h2 := T.widthPow_le
  have h3 : 0 < 2 ^ (T.width - 1) := Nat.two_pow_pos _
  rw [Nat.mod_eq_of_lt (by omega)]
  omega

/-- The snap of a beat is a beat. -/
theorem Fmt.fits_snap (T : Fmt) {v : Word} (h : T.fits v = true) : T.fits (T.snap v) = true := by
  unfold Fmt.snap
  split
  · exact T.fits_zero
  · exact h

theorem Fmt.fits_convert (S T : Fmt) {n : Word} (hn : T.fits n = true) (v : Val) :
    T.fits (Fmt.convert S T n v) = true := by
  cases v <;> simp only [Fmt.convert]
  · exact hn
  · exact T.fits_infinity _
  · exact T.fits_pack _ (T.roundMag_lt _ _)

/-- A rounded coefficient is a beat of the format. -/
theorem Fmt.fits_round64 (T : Fmt) (k : Nat) (w : Word) : T.fits (T.round64 k w) = true := by
  cases T
  · exact Fmt.fits_convert _ _ (Fmt.fits_nanResult _ _ _ _) _
  · simp [Fmt.round64, Fmt.fits, Fmt.width, w.isLt]

/-! ### clip -/

theorem Fmt.fits_iff (T : Fmt) (w : Word) : T.fits w = true ↔ w.toNat < 2 ^ T.width := by simp [Fmt.fits]

/-- The `W` low bits of a word as a number. -/
theorem Fmt.toNat_clip (T : Fmt) (w : Word) : (T.clip w).toNat = w.toNat % 2 ^ T.width := by
  cases T
  · have h : w.toNat % 2 ^ 32 < 2 ^ 64 := (Nat.mod_lt _ (by decide)).trans (by decide)
    simp only [Fmt.clip, Fmt.width, BitVec.toNat_setWidth, Nat.mod_eq_of_lt h]
  · simp only [Fmt.clip, Fmt.width, Nat.mod_eq_of_lt w.isLt]

/-- What a port beat leaves in a register is a beat of the format. -/
@[simp] theorem Fmt.fits_clip (T : Fmt) (w : Word) : T.fits (T.clip w) = true := by
  rw [T.fits_iff, T.toNat_clip]
  exact Nat.mod_lt _ (Nat.two_pow_pos _)

/-- A beat of the format is taken bit for bit (30_encoding.md R92). -/
theorem Fmt.clip_of_fits (T : Fmt) {w : Word} (h : T.fits w = true) : T.clip w = w := by
  apply BitVec.eq_of_toNat_eq
  rw [T.toNat_clip, Nat.mod_eq_of_lt ((T.fits_iff w).1 h)]

end Sys2Proof
end

