-- ==== Sys2Proof/Laws/Decode.lean ====
section
/-! SUPPORT. What the decoder and the encoder do, piece by piece: header fields, operand beats, and what becomes of a
demand for beats when words, or a reset, or nothing stand at the port. -/

namespace Sys2Proof

/-! ### Bits as numbers -/

theorem toNat_append_mul {n m : Nat} (x : BitVec n) (y : BitVec m) :
    (x ++ y).toNat = x.toNat * 2 ^ m + y.toNat := by
  rw [BitVec.toNat_append, Nat.shiftLeft_eq, Nat.mul_comm, Nat.two_pow_add_eq_or_of_lt y.isLt]

theorem toNat_extract_div {n : Nat} (x : BitVec n) (s l : Nat) :
    (x.extractLsb' s l).toNat = x.toNat / 2 ^ s % 2 ^ l := by
  rw [BitVec.extractLsb'_toNat, Nat.shiftRight_eq_div_pow]

/-! ### Header fields (30_encoding.md R80) -/

theorem toNat_encodeHeader (i : Instr) :
    (encodeHeader i).toNat = i.opcode.toNat * 2 ^ 24 + i.index.toNat * 2 ^ 20 := by
  unfold encodeHeader
  simp only [toNat_append_mul]
  simp
  ring

@[simp] theorem opcField_encodeHeader (i : Instr) : opcField (encodeHeader i) = i.opcode := by
  apply BitVec.eq_of_toNat_eq
  have h1 := i.opcode.isLt
  have h2 := i.index.isLt
  unfold opcField
  rw [toNat_extract_div, toNat_encodeHeader]
  omega

@[simp] theorem idxField_encodeHeader (i : Instr) : idxField (encodeHeader i) = i.index := by
  apply BitVec.eq_of_toNat_eq
  have h1 := i.opcode.isLt
  have h2 := i.index.isLt
  unfold idxField
  rw [toNat_extract_div, toNat_encodeHeader]
  omega

@[simp] theorem rsvField_encodeHeader (i : Instr) : rsvField (encodeHeader i) = 0 := by
  apply BitVec.eq_of_toNat_eq
  have h1 := i.opcode.isLt
  have h2 := i.index.isLt
  unfold rsvField
  rw [toNat_extract_div, toNat_encodeHeader]
  simp
  omega

/-- A header is nothing but its three fields. -/
theorem header_eq_fields (h : Header) : opcField h ++ idxField h ++ rsvField h = h := by
  apply BitVec.eq_of_toNat_eq
  have := h.isLt
  unfold opcField idxField rsvField
  simp only [toNat_append_mul, toNat_extract_div]
  omega

/-! ### Operand beats -/

theorem asBeat_beatEvent (T : Fmt) (d : Nat) {w : Word} (h : T.fits w = true) :
    (beatEvent T w).asBeat T d = w := by
  rw [T.fits_iff] at h
  cases T
  · apply BitVec.eq_of_toNat_eq
    simp only [beatEvent, PortEvent.asBeat, BitVec.toNat_setWidth, Fmt.width] at *
    omega
  · rfl

theorem fits_asBeat (T : Fmt) (d : Nat) (e : PortEvent) : T.fits (e.asBeat T d) = true := by
  rw [T.fits_iff]
  cases T <;> cases e <;> simp only [PortEvent.asBeat, BitVec.toNat_setWidth, Fmt.width, BitVec.isLt]
  · exact (Nat.mod_le _ _).trans_lt (BitVec.isLt _)
  · exact (Nat.mod_le _ _).trans_lt (Nat.mod_lt _ (by decide))
  · decide

theorem beatEvent_ne_reset (T : Fmt) (w : Word) : beatEvent T w ≠ .reset := by cases T <;> simp [beatEvent]

/-- Beats of the block's width are taken bit for bit (30_encoding.md R81, R92). -/
theorem takeBeats_beats (T : Fmt) (beats : List Word) (rest : List PortEvent) (d : Nat)
    (h : ∀ w ∈ beats, T.fits w = true) :
    takeBeats T d beats.length (beats.map (beatEvent T) ++ rest) = .got beats rest := by
  induction beats generalizing d with
  | nil => rfl
  | cons w ws ih =>
    simp only [List.mem_cons, forall_eq_or_imp] at h
    simp [takeBeats, beatEvent_ne_reset, ih _ h.2, asBeat_beatEvent T d h.1]

/-- Enough words: a demand for beats takes exactly them (30_encoding.md R89). -/
theorem takeBeats_words (T : Fmt) (words rest : List PortEvent) (d : Nat) (h : ∀ e ∈ words, e ≠ .reset) :
    ∃ beats, takeBeats T d words.length (words ++ rest) = .got beats rest ∧ beats.length = words.length := by
  induction words generalizing d with
  | nil => exact ⟨[], rfl, rfl⟩
  | cons e es ih =>
    simp only [List.mem_cons, forall_eq_or_imp] at h
    obtain ⟨bs, hb, hl⟩ := ih (d + 1) h.2
    exact ⟨e.asBeat T d :: bs, by simp [takeBeats, h.1, hb], by simp [hl]⟩

/-- Too few words and nothing behind them: the missing beats (70_reset_and_hazards.md R238). -/
theorem takeBeats_short (T : Fmt) (words : List PortEvent) (n d : Nat) (h : ∀ e ∈ words, e ≠ .reset)
    (hn : words.length < n) : takeBeats T d n words = .short (n - words.length) := by
  induction words generalizing d n with
  | nil => cases n <;> simp_all [takeBeats]
  | cons e es ih =>
    simp only [List.mem_cons, forall_eq_or_imp, List.length_cons] at h hn
    obtain ⟨m, rfl⟩ : ∃ m, n = m + 1 := ⟨n - 1, by omega⟩
    simp [takeBeats, h.1, ih m (d + 1) h.2 (by omega)]

/-- Too few words and a reset behind them: the reset (70_reset_and_hazards.md R230). -/
theorem takeBeats_reset (T : Fmt) (words rest : List PortEvent) (n d : Nat) (h : ∀ e ∈ words, e ≠ .reset)
    (hn : words.length < n) : takeBeats T d n (words ++ .reset :: rest) = .reset rest := by
  induction words generalizing d n with
  | nil => cases n <;> simp_all [takeBeats]
  | cons e es ih =>
    simp only [List.mem_cons, forall_eq_or_imp, List.length_cons] at h hn
    obtain ⟨m, rfl⟩ : ∃ m, n = m + 1 := ⟨n - 1, by omega⟩
    simp [takeBeats, h.1, ih m (d + 1) h.2 (by omega)]

/-- Everything `takeBeats` can answer with: the beats of the first `n` events, or a reset among them, or too few. -/
theorem takeBeats_cases (T : Fmt) (n d : Nat) (es : List PortEvent) :
    (∃ beats, takeBeats T d n es = .got beats (es.drop n) ∧ beats.length = n ∧ n ≤ es.length ∧
      ∀ e ∈ es.take n, e ≠ .reset) ∨
    (∃ words rest, es = words ++ .reset :: rest ∧ words.length < n ∧ (∀ e ∈ words, e ≠ .reset) ∧
      takeBeats T d n es = .reset rest) ∨
    (es.length < n ∧ (∀ e ∈ es, e ≠ .reset) ∧ takeBeats T d n es = .short (n - es.length)) := by
  induction n generalizing d es with
  | zero => left; exact ⟨[], by simp [takeBeats], rfl, by simp, by simp⟩
  | succ n ih =>
    cases es with
    | nil => right; right; simp [takeBeats]
    | cons e es =>
      by_cases he : e = .reset
      · subst he
        right; left
        exact ⟨[], es, by simp [takeBeats]⟩
      · rcases ih (d + 1) es with ⟨bs, h, hl, hn, hw⟩ | ⟨ws, rest, h1, h2, h3, h4⟩ | ⟨h1, h2, h3⟩
        · left
          refine ⟨e.asBeat T d :: bs, by simp [takeBeats, he, h], by simp [hl], by simp [hn], ?_⟩
          simpa [he] using hw
        · right; left
          refine ⟨e :: ws, rest, by simp [h1], by simp [h2], by simpa [he] using h3, by simp [takeBeats, he, h4]⟩
        · right; right
          exact ⟨by simp [h1], by simpa [he] using h2, by simp [takeBeats, he, h3]⟩

/-! ### Opcodes -/

/-- The opcodes of 30_encoding.md R86, and how many beats each takes. -/
theorem nin_eq_some {opc : BitVec 8} {n : Nat} (h : nin opc = some n) :
    (opc.toNat ∈ [1, 4, 5, 6, 7] ∧ n = 0) ∨ (opc.toNat = 2 ∧ n = 7) ∨ (opc.toNat = 3 ∧ n = 1) ∨
      (opc.toNat ∈ [16, 17, 18] ∧ n = 2) ∨ (opc.toNat ∈ [24, 25, 26] ∧ n = 3) := by
  unfold nin at h
  split at h <;> simp_all

/-- `build` answers for every legal opcode with the right number of beats. -/
theorem build_of_nin {opc : BitVec 8} {beats : List Word} (idx : BitVec 4) (h : nin opc = some beats.length) :
    ∃ i, build opc idx beats = some i ∧ i.opcode = opc ∧ i.beats = beats ∧
      i.index = if opc.toNat = 5 ∨ opc.toNat = 6 then idx else 0 := by
  have hopc : ∀ m : Nat, opc.toNat = m → opc = BitVec.ofNat 8 m := fun m hm => by
    rw [← hm, BitVec.ofNat_toNat, BitVec.setWidth_eq]
  rcases nin_eq_some h with ⟨h1, h2⟩ | ⟨h1, h2⟩ | ⟨h1, h2⟩ | ⟨h1, h2⟩ | ⟨h1, h2⟩
  · obtain rfl : beats = [] := List.eq_nil_of_length_eq_zero h2
    simp only [List.mem_cons, List.not_mem_nil, or_false] at h1
    rcases h1 with h1 | h1 | h1 | h1 | h1 <;> (rw [hopc _ h1]; exact ⟨_, rfl, rfl, rfl, rfl⟩)
  · match beats, h2 with
    | [a, b, c, d, e, f, g], _ => rw [hopc _ h1]; exact ⟨_, rfl, rfl, rfl, rfl⟩
  · match beats, h2 with
    | [a], _ => rw [hopc _ h1]; exact ⟨_, rfl, rfl, rfl, rfl⟩
  · match beats, h2 with
    | [a, b], _ =>
      simp only [List.mem_cons, List.not_mem_nil, or_false] at h1
      rcases h1 with h1 | h1 | h1 <;> (rw [hopc _ h1]; exact ⟨_, rfl, rfl, rfl, rfl⟩)
  · match beats, h2 with
    | [a, b, c], _ =>
      simp only [List.mem_cons, List.not_mem_nil, or_false] at h1
      rcases h1 with h1 | h1 | h1 <;> (rw [hopc _ h1]; exact ⟨_, rfl, rfl, rfl, rfl⟩)

end Sys2Proof
end

