-- ==== Sys2Proof/Laws/State.lean ====
section
/-! SUPPORT. One lemma per field per update of the state, so that no proof unfolds a record update. -/

namespace Sys2Proof.Machine

/-! ### setFlt -/

@[simp] theorem State.setFlt_topo (s : State) : s.setFlt.topo = s.topo := rfl
@[simp] theorem State.setFlt_fmt (s : State) : s.setFlt.fmt = s.fmt := rfl
@[simp] theorem State.setFlt_c (s : State) : s.setFlt.c = s.c := rfl
@[simp] theorem State.setFlt_h (s : State) : s.setFlt.h = s.h := rfl
@[simp] theorem State.setFlt_loaded (s : State) : s.setFlt.loaded = s.loaded := rfl
@[simp] theorem State.setFlt_flt (s : State) : s.setFlt.flt = true := rfl
@[simp] theorem State.setFlt_rx (s : State) : s.setFlt.rx = s.rx := rfl
@[simp] theorem State.setFlt_tx (s : State) : s.setFlt.tx = s.tx := rfl
@[simp] theorem State.setFlt_draw (s : State) : s.setFlt.draw = s.draw := rfl

/-! ### setLoaded -/

@[simp] theorem State.setLoaded_topo (s : State) : s.setLoaded.topo = s.topo := rfl
@[simp] theorem State.setLoaded_fmt (s : State) : s.setLoaded.fmt = s.fmt := rfl
@[simp] theorem State.setLoaded_c (s : State) : s.setLoaded.c = s.c := rfl
@[simp] theorem State.setLoaded_h (s : State) : s.setLoaded.h = s.h := rfl
@[simp] theorem State.setLoaded_loaded (s : State) : s.setLoaded.loaded = true := rfl
@[simp] theorem State.setLoaded_flt (s : State) : s.setLoaded.flt = s.flt := rfl
@[simp] theorem State.setLoaded_rx (s : State) : s.setLoaded.rx = s.rx := rfl
@[simp] theorem State.setLoaded_tx (s : State) : s.setLoaded.tx = s.tx := rfl
@[simp] theorem State.setLoaded_draw (s : State) : s.setLoaded.draw = s.draw := rfl

/-! ### respond -/

@[simp] theorem State.respond_topo (s : State) (opc : BitVec 8) (beat : Option Word) : (s.respond opc beat).topo = s.topo := rfl
@[simp] theorem State.respond_fmt (s : State) (opc : BitVec 8) (beat : Option Word) : (s.respond opc beat).fmt = s.fmt := rfl
@[simp] theorem State.respond_c (s : State) (opc : BitVec 8) (beat : Option Word) : (s.respond opc beat).c = s.c := rfl
@[simp] theorem State.respond_h (s : State) (opc : BitVec 8) (beat : Option Word) : (s.respond opc beat).h = s.h := rfl
@[simp] theorem State.respond_loaded (s : State) (opc : BitVec 8) (beat : Option Word) : (s.respond opc beat).loaded = s.loaded := rfl
@[simp] theorem State.respond_flt (s : State) (opc : BitVec 8) (beat : Option Word) : (s.respond opc beat).flt = s.flt := rfl
@[simp] theorem State.respond_rx (s : State) (opc : BitVec 8) (beat : Option Word) : (s.respond opc beat).rx = s.rx := rfl
@[simp] theorem State.respond_tx (s : State) (opc : BitVec 8) (beat : Option Word) : (s.respond opc beat).tx = s.tx ++ [⟨okHeader opc, beat⟩] := rfl
@[simp] theorem State.respond_draw (s : State) (opc : BitVec 8) (beat : Option Word) : (s.respond opc beat).draw = s.draw := rfl

/-! ### raise -/

@[simp] theorem State.raise_topo (s : State) (opc : BitVec 8) (cause : Cause) : (s.raise opc cause).topo = s.topo := rfl
@[simp] theorem State.raise_fmt (s : State) (opc : BitVec 8) (cause : Cause) : (s.raise opc cause).fmt = s.fmt := rfl
@[simp] theorem State.raise_c (s : State) (opc : BitVec 8) (cause : Cause) : (s.raise opc cause).c = s.c := rfl
@[simp] theorem State.raise_h (s : State) (opc : BitVec 8) (cause : Cause) : (s.raise opc cause).h = s.h := rfl
@[simp] theorem State.raise_loaded (s : State) (opc : BitVec 8) (cause : Cause) : (s.raise opc cause).loaded = s.loaded := rfl
@[simp] theorem State.raise_flt (s : State) (opc : BitVec 8) (cause : Cause) : (s.raise opc cause).flt = true := rfl
@[simp] theorem State.raise_rx (s : State) (opc : BitVec 8) (cause : Cause) : (s.raise opc cause).rx = s.rx := rfl
@[simp] theorem State.raise_tx (s : State) (opc : BitVec 8) (cause : Cause) : (s.raise opc cause).tx = s.tx ++ [⟨failHeader opc cause, none⟩] := rfl
@[simp] theorem State.raise_draw (s : State) (opc : BitVec 8) (cause : Cause) : (s.raise opc cause).draw = s.draw := rfl

/-! ### clearHistory -/

@[simp] theorem State.clearHistory_topo (s : State) : s.clearHistory.topo = s.topo := rfl
@[simp] theorem State.clearHistory_fmt (s : State) : s.clearHistory.fmt = s.fmt := rfl
@[simp] theorem State.clearHistory_c (s : State) : s.clearHistory.c = s.c := rfl
@[simp] theorem State.clearHistory_h (s : State) : s.clearHistory.h = History.zero := rfl
@[simp] theorem State.clearHistory_loaded (s : State) : s.clearHistory.loaded = s.loaded := rfl
@[simp] theorem State.clearHistory_flt (s : State) : s.clearHistory.flt = s.flt := rfl
@[simp] theorem State.clearHistory_rx (s : State) : s.clearHistory.rx = s.rx := rfl
@[simp] theorem State.clearHistory_tx (s : State) : s.clearHistory.tx = s.tx := rfl
@[simp] theorem State.clearHistory_draw (s : State) : s.clearHistory.draw = s.draw := rfl

/-! ### setHistory -/

@[simp] theorem State.setHistory_topo (s : State) (h : History Word) : (s.setHistory h).topo = s.topo := rfl
@[simp] theorem State.setHistory_fmt (s : State) (h : History Word) : (s.setHistory h).fmt = s.fmt := rfl
@[simp] theorem State.setHistory_c (s : State) (h : History Word) : (s.setHistory h).c = s.c := rfl
@[simp] theorem State.setHistory_h (s : State) (h : History Word) : (s.setHistory h).h = h := rfl
@[simp] theorem State.setHistory_loaded (s : State) (h : History Word) : (s.setHistory h).loaded = s.loaded := rfl
@[simp] theorem State.setHistory_flt (s : State) (h : History Word) : (s.setHistory h).flt = s.flt := rfl
@[simp] theorem State.setHistory_rx (s : State) (h : History Word) : (s.setHistory h).rx = s.rx := rfl
@[simp] theorem State.setHistory_tx (s : State) (h : History Word) : (s.setHistory h).tx = s.tx := rfl
@[simp] theorem State.setHistory_draw (s : State) (h : History Word) : (s.setHistory h).draw = s.draw := rfl

/-! ### adopt -/

@[simp] theorem State.adopt_topo (s : State) (c : Coeffs Word) : (s.adopt c).topo = s.topo := rfl
@[simp] theorem State.adopt_fmt (s : State) (c : Coeffs Word) : (s.adopt c).fmt = s.fmt := rfl
@[simp] theorem State.adopt_c (s : State) (c : Coeffs Word) : (s.adopt c).c = c := rfl
@[simp] theorem State.adopt_h (s : State) (c : Coeffs Word) : (s.adopt c).h = History.zero := rfl
@[simp] theorem State.adopt_loaded (s : State) (c : Coeffs Word) : (s.adopt c).loaded = true := rfl
@[simp] theorem State.adopt_flt (s : State) (c : Coeffs Word) : (s.adopt c).flt = s.flt := rfl
@[simp] theorem State.adopt_rx (s : State) (c : Coeffs Word) : (s.adopt c).rx = s.rx := rfl
@[simp] theorem State.adopt_tx (s : State) (c : Coeffs Word) : (s.adopt c).tx = s.tx := rfl
@[simp] theorem State.adopt_draw (s : State) (c : Coeffs Word) : (s.adopt c).draw = s.draw := rfl

/-! ### hwReset -/

@[simp] theorem State.hwReset_topo (s : State) : s.hwReset.topo = s.topo := rfl
@[simp] theorem State.hwReset_fmt (s : State) : s.hwReset.fmt = s.fmt := rfl
@[simp] theorem State.hwReset_c (s : State) : s.hwReset.c = Coeffs.atReset := rfl
@[simp] theorem State.hwReset_h (s : State) : s.hwReset.h = History.zero := rfl
@[simp] theorem State.hwReset_loaded (s : State) : s.hwReset.loaded = false := rfl
@[simp] theorem State.hwReset_flt (s : State) : s.hwReset.flt = false := rfl
@[simp] theorem State.hwReset_rx (s : State) : s.hwReset.rx = s.rx := rfl
@[simp] theorem State.hwReset_tx (s : State) : s.hwReset.tx = s.tx := rfl
@[simp] theorem State.hwReset_draw (s : State) : s.hwReset.draw = s.draw := rfl

/-! ### consume -/

@[simp] theorem State.consume_topo (s : State) (rest : List PortEvent) : (s.consume rest).topo = s.topo := rfl
@[simp] theorem State.consume_fmt (s : State) (rest : List PortEvent) : (s.consume rest).fmt = s.fmt := rfl
@[simp] theorem State.consume_c (s : State) (rest : List PortEvent) : (s.consume rest).c = s.c := rfl
@[simp] theorem State.consume_h (s : State) (rest : List PortEvent) : (s.consume rest).h = s.h := rfl
@[simp] theorem State.consume_loaded (s : State) (rest : List PortEvent) : (s.consume rest).loaded = s.loaded := rfl
@[simp] theorem State.consume_flt (s : State) (rest : List PortEvent) : (s.consume rest).flt = s.flt := rfl
@[simp] theorem State.consume_rx (s : State) (rest : List PortEvent) : (s.consume rest).rx = rest := rfl
@[simp] theorem State.consume_tx (s : State) (rest : List PortEvent) : (s.consume rest).tx = s.tx := rfl
@[simp] theorem State.consume_draw (s : State) (rest : List PortEvent) : (s.consume rest).draw = s.draw + (s.rx.length - rest.length) := rfl

/-! ### send -/

@[simp] theorem State.send_topo (s : State) (events : List PortEvent) : (s.send events).topo = s.topo := rfl
@[simp] theorem State.send_fmt (s : State) (events : List PortEvent) : (s.send events).fmt = s.fmt := rfl
@[simp] theorem State.send_c (s : State) (events : List PortEvent) : (s.send events).c = s.c := rfl
@[simp] theorem State.send_h (s : State) (events : List PortEvent) : (s.send events).h = s.h := rfl
@[simp] theorem State.send_loaded (s : State) (events : List PortEvent) : (s.send events).loaded = s.loaded := rfl
@[simp] theorem State.send_flt (s : State) (events : List PortEvent) : (s.send events).flt = s.flt := rfl
@[simp] theorem State.send_rx (s : State) (events : List PortEvent) : (s.send events).rx = s.rx ++ events := rfl
@[simp] theorem State.send_tx (s : State) (events : List PortEvent) : (s.send events).tx = s.tx := rfl
@[simp] theorem State.send_draw (s : State) (events : List PortEvent) : (s.send events).draw = s.draw := rfl

/-! ### State.init -/

@[simp] theorem State.init_topo (topo : Topo) (T : Fmt) : (State.init topo T).topo = topo := rfl
@[simp] theorem State.init_fmt (topo : Topo) (T : Fmt) : (State.init topo T).fmt = T := rfl
@[simp] theorem State.init_c (topo : Topo) (T : Fmt) : (State.init topo T).c = Coeffs.atReset := rfl
@[simp] theorem State.init_h (topo : Topo) (T : Fmt) : (State.init topo T).h = History.zero := rfl
@[simp] theorem State.init_loaded (topo : Topo) (T : Fmt) : (State.init topo T).loaded = false := rfl
@[simp] theorem State.init_flt (topo : Topo) (T : Fmt) : (State.init topo T).flt = false := rfl
@[simp] theorem State.init_rx (topo : Topo) (T : Fmt) : (State.init topo T).rx = [] := rfl
@[simp] theorem State.init_tx (topo : Topo) (T : Fmt) : (State.init topo T).tx = [] := rfl
@[simp] theorem State.init_draw (topo : Topo) (T : Fmt) : (State.init topo T).draw = 0 := rfl

/-! ### Two states are equal when their fields are -/

theorem State.ext_fields {s t : State} (h1 : s.topo = t.topo) (h2 : s.fmt = t.fmt) (h3 : s.c = t.c) (h4 : s.h = t.h)
    (h5 : s.loaded = t.loaded) (h6 : s.flt = t.flt) (h7 : s.rx = t.rx) (h8 : s.tx = t.tx) (h9 : s.draw = t.draw) :
    s = t := by
  cases s; cases t; simp_all

end Sys2Proof.Machine
end

