-- ==== Sys2Proof/Laws/Exec.lean ====
section
/-! SUPPORT. What each shared operation and each meaning can answer, said once, and what a step can do. -/

namespace Sys2Proof.Machine

/-! ### Response headers (30_encoding.md R84) -/

theorem toNat_okHeader (opc : BitVec 8) : (okHeader opc).toNat = opc.toNat * 2 ^ 24 := by
  unfold okHeader
  simp only [toNat_append_mul]
  simp
  ring

theorem toNat_failHeader (opc : BitVec 8) (cause : Cause) :
    (failHeader opc cause).toNat = opc.toNat * 2 ^ 24 + (causeCode cause).toNat * 16 + 2 := by
  unfold failHeader
  simp only [toNat_append_mul]
  simp
  ring

theorem okHeader_eq (opc : BitVec 8) : okHeader opc = BitVec.ofNat 32 (opc.toNat * 2 ^ 24) := by
  apply BitVec.eq_of_toNat_eq
  have := opc.isLt
  rw [toNat_okHeader, BitVec.toNat_ofNat]
  omega

theorem failHeader_eq (opc : BitVec 8) (cause : Cause) :
    failHeader opc cause = BitVec.ofNat 32 (opc.toNat * 2 ^ 24 + (causeCode cause).toNat * 16 + 2) := by
  apply BitVec.eq_of_toNat_eq
  have h1 := opc.isLt
  have h2 := (causeCode cause).isLt
  rw [toNat_failHeader, BitVec.toNat_ofNat]
  omega

/-! ### The shared operations -/

/-- A load that answers OK: the new set, a zero history, `LOADED`, one response. -/
theorem adopt_respond_eq (s : State) (c : Coeffs Word) (opc : BitVec 8) :
    (s.adopt c).respond opc none =
      { s with c := c, h := History.zero, loaded := true, tx := s.tx ++ [⟨okHeader opc, none⟩] } := rfl

/-- The one error operation: `FLT` and one response, nothing else (60_exceptions.md R201). -/
theorem raise_eq (s : State) (opc : BitVec 8) (cause : Cause) :
    s.raise opc cause = { s with flt := true, tx := s.tx ++ [⟨failHeader opc cause, none⟩] } := rfl

theorem runFirstOrder_cases (opc : BitVec 8) (base : Nat) (f : Word → Word → Coeffs Word) (fs fc : Word) (s : State) :
    (∃ c, runFirstOrder opc base f fs fc s = .next ((s.adopt (roundSet s.fmt (base + 0xF0) c)).respond opc none)) ∨
      runFirstOrder opc base f fs fc s = .next (s.raise opc .badArgument) := by
  unfold runFirstOrder
  dsimp only
  split
  · exact .inl ⟨_, rfl⟩
  · exact .inr rfl

theorem runSecondOrder_cases (opc : BitVec 8) (base : Nat) (f : Word → Word → Word → Coeffs Word) (fs fc q : Word)
    (s : State) :
    (∃ c, runSecondOrder opc base f fs fc q s =
        .next ((s.adopt (roundSet s.fmt (base + 0xF0) c)).respond opc none)) ∨
      runSecondOrder opc base f fs fc q s = .next (s.raise opc .badArgument) := by
  unfold runSecondOrder
  dsimp only
  split
  · exact .inl ⟨_, rfl⟩
  · exact .inr rfl

/-! ### What a command can do -/

/-- An index that names no coefficient is above 6. -/
theorem Coeffs.get_eq_none {α : Type} {c : Coeffs α} {k : BitVec 4} (h : c.get k = none) : 6 < k.toNat := by
  unfold Coeffs.get at h
  split at h <;> simp_all
  omega

/-- An index that names no history register is above 3. -/
theorem History.get_eq_none {α : Type} {h : History α} {k : BitVec 4} (e : h.get k = none) : 3 < k.toNat := by
  unfold History.get at e
  split at e <;> simp_all
  omega

/-- Everything `exec` can answer with: one response under the command's opcode, and of the state what the command may
write; or one failed response and `FLT` (10_state.md R33). -/
theorem exec_cases (i : Instr) (s : State) :
    (∃ cause, exec i s = .next (s.raise i.opcode cause)) ∨
    (∃ c : Coeffs Word, (∀ w ∈ c.toList, s.fmt.fits w = true) ∧ isLoad i = true ∧
      exec i s = .next ((s.adopt c).respond i.opcode none)) ∨
    (i = .clr ∧ exec i s = .next (s.clearHistory.respond 0x01 none)) ∨
    (∃ x, i = .xform x ∧ s.loaded = true ∧
      exec i s = .next ((s.setHistory (s.filter (s.opnd x)).2).respond 0x03
        (some (s.fmt.snap (s.filter (s.opnd x)).1)))) ∨
    (i = .stq ∧ s.loaded = true ∧ exec i s = .next (s.respond 0x04 (some (s.filter 0).1))) ∨
    (∃ k v, i = .rdc k ∧ s.loaded = true ∧ s.c.get k = some v ∧ exec i s = .next (s.respond 0x05 (some v))) ∨
    (∃ k v, i = .rds k ∧ s.h.get k = some v ∧ exec i s = .next (s.respond 0x06 (some v))) ∨
    (i = .rdstat ∧ exec i s = .next (s.respond 0x07 (some s.statusWord))) := by
  have fits_round : ∀ (k : Nat) (c : Coeffs Word), ∀ w ∈ (roundSet s.fmt k c).toList, s.fmt.fits w = true := by
    intro k c w h
    simp only [Coeffs.toList, roundSet, List.mem_cons, List.not_mem_nil, or_false] at h
    rcases h with h | h | h | h | h | h | h <;> (subst h; exact Fmt.fits_round64 _ _ _)
  cases i with
  | clr => right; right; left; exact ⟨rfl, rfl⟩
  | setc a0 a1 a2 b1 b2 c0 d0 =>
    right; left
    refine ⟨_, ?_, rfl, rfl⟩
    intro w h
    simp only [Coeffs.toList, State.opnd, List.mem_cons, List.not_mem_nil, or_false] at h
    rcases h with h | h | h | h | h | h | h <;> (subst h; exact Fmt.fits_clip _ _)
  | xform x =>
    by_cases h : s.loaded = true
    · right; right; right; left
      exact ⟨x, rfl, h, by simp [exec, execXform, h]⟩
    · left; exact ⟨.notLoaded, by simp [exec, execXform, h, Instr.opcode]⟩
  | stq =>
    by_cases h : s.loaded = true
    · right; right; right; right; left
      exact ⟨rfl, h, by simp [exec, execStq, h]⟩
    · left; exact ⟨.notLoaded, by simp [exec, execStq, h, Instr.opcode]⟩
  | rdc k =>
    cases hk : s.c.get k with
    | none => left; exact ⟨.indexRange, by simp [exec, execRdc, hk, Instr.opcode]⟩
    | some v =>
      by_cases h : s.loaded = true
      · right; right; right; right; right; left
        exact ⟨k, v, rfl, h, hk, by simp [exec, execRdc, hk, h]⟩
      · left; exact ⟨.notLoaded, by simp [exec, execRdc, hk, h, Instr.opcode]⟩
  | rds k =>
    cases hk : s.h.get k with
    | none => left; exact ⟨.indexRange, by simp [exec, execRds, hk, Instr.opcode]⟩
    | some v =>
      right; right; right; right; right; right; left
      exact ⟨k, v, rfl, hk, by simp [exec, execRds, hk]⟩
  | rdstat => right; right; right; right; right; right; right; exact ⟨rfl, rfl⟩
  | glpf1 fs fc =>
    rcases runFirstOrder_cases 0x10 0x1000 (glpf1Formula design64) fs fc s with ⟨c, h⟩ | h
    · exact .inr (.inl ⟨_, fits_round _ c, rfl, h⟩)
    · exact .inl ⟨_, h⟩
  | ghpf1 fs fc =>
    rcases runFirstOrder_cases 0x11 0x1100 (ghpf1Formula design64) fs fc s with ⟨c, h⟩ | h
    · exact .inr (.inl ⟨_, fits_round _ c, rfl, h⟩)
    · exact .inl ⟨_, h⟩
  | gapf1 fs fc =>
    rcases runFirstOrder_cases 0x12 0x1200 (gapf1Formula design64) fs fc s with ⟨c, h⟩ | h
    · exact .inr (.inl ⟨_, fits_round _ c, rfl, h⟩)
    · exact .inl ⟨_, h⟩
  | glpf2 fs fc q =>
    rcases runSecondOrder_cases 0x18 0x1800 (glpf2Formula design64) fs fc q s with ⟨c, h⟩ | h
    · exact .inr (.inl ⟨_, fits_round _ c, rfl, h⟩)
    · exact .inl ⟨_, h⟩
  | ghpf2 fs fc q =>
    rcases runSecondOrder_cases 0x19 0x1900 (ghpf2Formula design64) fs fc q s with ⟨c, h⟩ | h
    · exact .inr (.inl ⟨_, fits_round _ c, rfl, h⟩)
    · exact .inl ⟨_, h⟩
  | gapf2 fs fc q =>
    rcases runSecondOrder_cases 0x1A 0x1A00 (gapf2Formula design64) fs fc q s with ⟨c, h⟩ | h
    · exact .inr (.inl ⟨_, fits_round _ c, rfl, h⟩)
    · exact .inl ⟨_, h⟩

/-! ### What a step can do -/

/-- Everything a step that answers a next state can be: a reset, a refused transaction, or a command. -/
theorem step_cases {s t : State} (h : step s = .next t) :
    (∃ rest, decode s.fmt s.draw s.rx = .reset rest ∧ t = (s.consume rest).hwReset) ∨
    (∃ opc cause rest, decode s.fmt s.draw s.rx = .reject opc cause rest ∧ t = (s.consume rest).raise opc cause) ∨
    (∃ i rest, decode s.fmt s.draw s.rx = .run i rest ∧ exec i (s.consume rest) = .next t) := by
  unfold step at h
  split at h
  · exact .inr (.inr ⟨_, _, by assumption, h⟩)
  · exact .inr (.inl ⟨_, _, _, by assumption, by simpa using h.symm⟩)
  · exact .inl ⟨_, by assumption, by simpa using h.symm⟩
  · simp at h
  · simp at h

/-- Everything the decoder can answer on a header and what stands behind it. -/
theorem decodeFrom_cases (T : Fmt) (d : Nat) (hdr : Header) (es : List PortEvent) :
    (nin (opcField hdr) = none ∧ decodeFrom T d hdr es = .reject (opcField hdr) .illegalOpcode es) ∨
    (∃ n, nin (opcField hdr) = some n ∧
      ((∃ beats, takeBeats T d n es = .got beats (es.drop n) ∧ beats.length = n ∧ n ≤ es.length ∧
          (∀ e ∈ es.take n, e ≠ .reset) ∧
          ((∃ cause, headerError hdr = some cause ∧
              decodeFrom T d hdr es = .reject (opcField hdr) cause (es.drop n)) ∨
            (∃ i, headerError hdr = none ∧ build (opcField hdr) (idxField hdr) beats = some i ∧
              decodeFrom T d hdr es = .run i (es.drop n)))) ∨
        (∃ words rest, es = words ++ .reset :: rest ∧ words.length < n ∧ (∀ e ∈ words, e ≠ .reset) ∧
          decodeFrom T d hdr es = .reset rest) ∨
        (es.length < n ∧ (∀ e ∈ es, e ≠ .reset) ∧ decodeFrom T d hdr es = .awaitBeats (n - es.length)))) := by
  unfold decodeFrom
  cases hn : nin (opcField hdr) with
  | none => left; simp
  | some n =>
    right
    refine ⟨n, rfl, ?_⟩
    rcases takeBeats_cases T n d es with ⟨bs, h1, h2, h3, h4⟩ | ⟨ws, rest, h1, h2, h3, h4⟩ | ⟨h1, h2, h3⟩
    · left
      refine ⟨bs, h1, h2, h3, h4, ?_⟩
      simp only [h1, decodeBody]
      cases he : headerError hdr with
      | some cause => left; exact ⟨cause, rfl, rfl⟩
      | none =>
        right
        obtain ⟨i, hi, _⟩ := build_of_nin (beats := bs) (idxField hdr) (by rw [hn, h2])
        exact ⟨i, rfl, hi, by simp [hi]⟩
    · right; left
      exact ⟨ws, rest, h1, h2, h3, by simp only [h4]⟩
    · right; right
      exact ⟨h1, h2, by simp only [h3]⟩

/-! ### The fields of a response -/

@[simp] theorem Response.ropc_ok (opc : BitVec 8) (b : Option Word) : Response.ropc ⟨okHeader opc, b⟩ = opc := by
  revert opc; simp only [Response.ropc]; decide +kernel

@[simp] theorem Response.status_ok (opc : BitVec 8) (b : Option Word) : Response.status ⟨okHeader opc, b⟩ = 0b00 := by
  revert opc; simp only [Response.status]; decide +kernel

@[simp] theorem Response.cause_ok (opc : BitVec 8) (b : Option Word) : Response.cause ⟨okHeader opc, b⟩ = 0 := by
  revert opc; simp only [Response.cause]; decide +kernel

@[simp] theorem Response.ropc_fail (opc : BitVec 8) (cause : Cause) (b : Option Word) :
    Response.ropc ⟨failHeader opc cause, b⟩ = opc := by
  revert opc; cases cause <;> (simp only [Response.ropc]; decide +kernel)

@[simp] theorem Response.status_fail (opc : BitVec 8) (cause : Cause) (b : Option Word) :
    Response.status ⟨failHeader opc cause, b⟩ = 0b10 := by
  revert opc; cases cause <;> (simp only [Response.status]; decide +kernel)

@[simp] theorem Response.cause_fail (opc : BitVec 8) (cause : Cause) (b : Option Word) :
    Response.cause ⟨failHeader opc cause, b⟩ = causeCode cause := by
  revert opc; cases cause <;> (simp only [Response.cause]; decide +kernel)

theorem Response.wellFormed_ok (opc : BitVec 8) (b : Option Word) : Response.wellFormed ⟨okHeader opc, b⟩ = true := by
  have h1 : ∀ o, (okHeader o).extractLsb' 8 16 = 0 := by decide +kernel
  have h2 : ∀ o, (okHeader o).extractLsb' 2 2 = 0 := by decide +kernel
  simp [Response.wellFormed, h1, h2]

theorem Response.wellFormed_fail (opc : BitVec 8) (cause : Cause) :
    Response.wellFormed ⟨failHeader opc cause, none⟩ = true := by
  have h1 : ∀ o, (failHeader o cause).extractLsb' 8 16 = 0 := by cases cause <;> decide +kernel
  have h2 : ∀ o, (failHeader o cause).extractLsb' 2 2 = 0 := by cases cause <;> decide +kernel
  simp only [Response.wellFormed, Response.status_fail, Response.cause_fail, h1, h2]
  cases cause <;> decide

/-! ### A command's answer, and what it does not read -/

theorem nout_of_isLoad {i : Instr} (h : isLoad i = true) : nout i = false := by
  cases i <;> first | rfl | simp [isLoad] at h

/-- A command either fails by the one error operation, or answers OK with the beat its opcode has. -/
theorem exec_fails_or_answers (i : Instr) (s : State) :
    (∃ cause, exec i s = .next (s.raise i.opcode cause)) ∨
      ∃ t b, exec i s = .next t ∧ t.tx = s.tx ++ [⟨okHeader i.opcode, b⟩] ∧ b.isSome = nout i ∧ t.flt = s.flt ∧
        t.loaded = (s.loaded || isLoad i) := by
  rcases exec_cases i s with ⟨c, e⟩ | ⟨c, _, l, e⟩ | ⟨rfl, e⟩ | ⟨_, rfl, _, e⟩ | ⟨rfl, _, e⟩ | ⟨_, _, rfl, _, _, e⟩ |
    ⟨_, _, rfl, _, e⟩ | ⟨rfl, e⟩
  · exact .inl ⟨c, e⟩
  · exact .inr ⟨_, none, e, by simp, by rw [nout_of_isLoad l]; rfl, by simp, by simp [l]⟩
  · exact .inr ⟨_, none, e, by simp [Instr.opcode], rfl, by simp, by simp [isLoad]⟩
  all_goals exact .inr ⟨_, some _, e, by simp [Instr.opcode]; congr 1, rfl, by simp, by simp [isLoad]⟩

theorem runFirstOrder_port (opc : BitVec 8) (base : Nat) (f : Word → Word → Coeffs Word) (fs fc : Word) (s : State)
    (rx : List PortEvent) (d : Nat) :
    runFirstOrder opc base f fs fc { s with rx := rx, draw := d } =
      match runFirstOrder opc base f fs fc s with
      | .next t => .next { t with rx := rx, draw := d }
      | o => o := by
  have e : ∀ w k, State.wide { s with rx := rx, draw := d } k w = s.wide k w := fun _ _ => rfl
  simp only [runFirstOrder, e]
  by_cases h : firstOrderOk (s.wide (base + 0xE0) fs) (s.wide (base + 0xE1) fc) = true
  · rw [if_pos h, if_pos h]; rfl
  · rw [if_neg h, if_neg h]; rfl

theorem runSecondOrder_port (opc : BitVec 8) (base : Nat) (f : Word → Word → Word → Coeffs Word) (fs fc q : Word)
    (s : State) (rx : List PortEvent) (d : Nat) :
    runSecondOrder opc base f fs fc q { s with rx := rx, draw := d } =
      match runSecondOrder opc base f fs fc q s with
      | .next t => .next { t with rx := rx, draw := d }
      | o => o := by
  have e : ∀ w k, State.wide { s with rx := rx, draw := d } k w = s.wide k w := fun _ _ => rfl
  simp only [runSecondOrder, e]
  by_cases h : secondOrderOk (s.wide (base + 0xE0) fs) (s.wide (base + 0xE1) fc) (s.wide (base + 0xE2) q) = true
  · rw [if_pos h, if_pos h]; rfl
  · rw [if_neg h, if_neg h]; rfl

/-- A command neither reads nor writes what waits at the port and the event counter. -/
theorem exec_port (i : Instr) (s : State) (rx : List PortEvent) (d : Nat) :
    exec i { s with rx := rx, draw := d } =
      match exec i s with
      | .next t => .next { t with rx := rx, draw := d }
      | o => o := by
  cases i with
  | clr => rfl
  | setc => rfl
  | xform x =>
    simp only [exec, execXform]
    by_cases h : s.loaded = true
    · rw [if_pos h, if_pos h]; rfl
    · rw [if_neg h, if_neg h]; rfl
  | stq =>
    simp only [exec, execStq]
    by_cases h : s.loaded = true
    · rw [if_pos h, if_pos h]; rfl
    · rw [if_neg h, if_neg h]; rfl
  | rdc k =>
    simp only [exec, execRdc]
    cases s.c.get k with
    | none => rfl
    | some v =>
      by_cases h : s.loaded = true
      · simp [h, State.respond]
      · simp [h, State.raise, State.setFlt]
  | rds k =>
    simp only [exec, execRds]
    cases s.h.get k with
    | none => rfl
    | some v => rfl
  | rdstat => rfl
  | glpf1 fs fc => exact runFirstOrder_port ..
  | ghpf1 fs fc => exact runFirstOrder_port ..
  | gapf1 fs fc => exact runFirstOrder_port ..
  | glpf2 fs fc q => exact runSecondOrder_port ..
  | ghpf2 fs fc q => exact runSecondOrder_port ..
  | gapf2 fs fc q => exact runSecondOrder_port ..

/-- While no reset stands at the port, a step refuses a transaction or runs a command. -/
theorem step_words {s t : State} (hw : ∀ e ∈ s.rx, isWord e = true) (h : step s = .next t) :
    (∃ opc cause rest, decode s.fmt s.draw s.rx = .reject opc cause rest ∧ t = (s.consume rest).raise opc cause) ∨
      ∃ i rest, decode s.fmt s.draw s.rx = .run i rest ∧ exec i (s.consume rest) = .next t := by
  have none_reset : ∀ (hdr : Header) (es rest : List PortEvent), (∀ e ∈ es, isWord e = true) →
      decodeFrom s.fmt (s.draw + 1) hdr es ≠ .reset rest := by
    intro hdr es rest he hd
    rcases decodeFrom_cases s.fmt (s.draw + 1) hdr es with ⟨_, h1⟩ | ⟨n, _, ⟨_, _, _, _, _, (⟨_, _, h1⟩ | ⟨_, _, _, h1⟩)⟩ |
      ⟨words, rest', e, _, _, _⟩ | ⟨_, _, h1⟩⟩
    · simp [h1] at hd
    · simp [h1] at hd
    · simp [h1] at hd
    · have := he .reset (by simp [e])
      simp [isWord] at this
    · simp [h1] at hd
  rcases step_cases h with ⟨rest, hd, _⟩ | h | h
  · exfalso
    cases hr : s.rx with
    | nil => simp [hr, decode] at hd
    | cons e es =>
      rw [hr] at hd hw
      simp only [List.mem_cons, forall_eq_or_imp] at hw
      cases e with
      | reset => simp [isWord] at hw
      | narrow w => exact none_reset _ _ _ hw.2 hd
      | wide w => exact none_reset _ _ _ hw.2 hd
  · exact .inl h
  · exact .inr h

end Sys2Proof.Machine
end

