-- ==== Sys2Proof/Laws/Medium.lean ====
section
/-! SUPPORT. Bytes over a byte-wide medium: their number, that they give the number back, and how a response is read. -/

namespace Sys2Proof

@[simp] theorem length_leBytes (n v : Nat) : (leBytes n v).length = n := by
  induction n generalizing v with
  | zero => rfl
  | succ n ih => simp [leBytes, ih]

/-- A number that fits `n` bytes comes back from them. -/
theorem ofLeBytes_leBytes (n v : Nat) (h : v < 256 ^ n) : ofLeBytes (leBytes n v) = v := by
  induction n generalizing v with
  | zero => simp_all [leBytes, ofLeBytes]
  | succ n ih =>
    have := ih (v / 256) (by rw [pow_succ] at h; omega)
    simp only [leBytes, ofLeBytes, this, BitVec.toNat_ofNat]
    omega

theorem Fmt.pow_beatBytes (T : Fmt) : 256 ^ T.beatBytes = 2 ^ T.width := by cases T <;> decide +kernel

/-- A beat of the format comes back from its bytes. -/
theorem ofLeBytes_beat (T : Fmt) {w : Word} (h : T.fits w = true) :
    BitVec.ofNat 64 (ofLeBytes (leBytes T.beatBytes w.toNat)) = w := by
  rw [ofLeBytes_leBytes _ _ (by rw [T.pow_beatBytes]; exact (T.fits_iff w).1 h)]
  simp

/-- A header comes back from its bytes. -/
theorem ofLeBytes_header (h : Header) : BitVec.ofNat 32 (ofLeBytes (leBytes 4 h.toNat)) = h := by
  rw [ofLeBytes_leBytes _ _ (by have := h.isLt; omega)]
  simp

namespace Machine

@[simp] theorem Response.bytes_none (T : Fmt) (h : Header) : Response.bytes T ⟨h, none⟩ = leBytes 4 h.toNat := by
  simp [Response.bytes]

@[simp] theorem Response.bytes_some (T : Fmt) (h : Header) (w : Word) :
    Response.bytes T ⟨h, some w⟩ = leBytes 4 h.toNat ++ leBytes T.beatBytes w.toNat := rfl

@[simp] theorem State.sentBytes_respond (s : State) (opc : BitVec 8) (b : Option Word) :
    (s.respond opc b).sentBytes = s.sentBytes ++ Response.bytes s.fmt ⟨okHeader opc, b⟩ := by
  simp [State.sentBytes]

@[simp] theorem State.sentBytes_raise (s : State) (opc : BitVec 8) (cause : Cause) :
    (s.raise opc cause).sentBytes = s.sentBytes ++ Response.bytes s.fmt ⟨failHeader opc cause, none⟩ := by
  simp [State.sentBytes]

theorem opcodeAnswers_opcode (i : Instr) : opcodeAnswers i.opcode = nout i := by cases i <;> rfl

/-- The host reads a response without a beat from its header's bytes. -/
theorem frameResponse_none (T : Fmt) (h : Header) (bs : List Byte)
    (hb : ¬ (h.extractLsb' 0 2 = 0b00 ∧ opcodeAnswers (h.extractLsb' 24 8) = true)) :
    frameResponse T (Response.bytes T ⟨h, none⟩ ++ bs) = some (⟨h, none⟩, bs) := by
  have ht : (leBytes 4 h.toNat ++ bs).take 4 = leBytes 4 h.toNat := List.take_left' (length_leBytes 4 _)
  have hd : (leBytes 4 h.toNat ++ bs).drop 4 = bs := List.drop_left' (length_leBytes 4 _)
  have hl : ¬ (leBytes 4 h.toNat ++ bs).length < 4 := by simp
  rw [Response.bytes_none]
  simp only [frameResponse, if_neg hl, ht, hd, ofLeBytes_header, if_neg hb]

/-- The host reads a response with a beat from the bytes of both. -/
theorem frameResponse_some (T : Fmt) (h : Header) {w : Word} (bs : List Byte) (hw : T.fits w = true)
    (hb : h.extractLsb' 0 2 = 0b00 ∧ opcodeAnswers (h.extractLsb' 24 8) = true) :
    frameResponse T (Response.bytes T ⟨h, some w⟩ ++ bs) = some (⟨h, some w⟩, bs) := by
  rw [Response.bytes_some, List.append_assoc]
  generalize hr : leBytes T.beatBytes w.toNat ++ bs = rest
  have ht : (leBytes 4 h.toNat ++ rest).take 4 = leBytes 4 h.toNat := List.take_left' (length_leBytes 4 _)
  have hd : (leBytes 4 h.toNat ++ rest).drop 4 = rest := List.drop_left' (length_leBytes 4 _)
  have hl : ¬ (leBytes 4 h.toNat ++ rest).length < 4 := by simp
  have ht' : rest.take T.beatBytes = leBytes T.beatBytes w.toNat := by rw [← hr]; exact List.take_left' (length_leBytes _ _)
  have hd' : rest.drop T.beatBytes = bs := by rw [← hr]; exact List.drop_left' (length_leBytes _ _)
  have hl' : ¬ rest.length < T.beatBytes := by simp [← hr]
  simp only [frameResponse, if_neg hl, ht, hd, ofLeBytes_header, if_pos hb, if_neg hl', ht', hd', ofLeBytes_beat T hw]

end Machine

end Sys2Proof
end

