-- ==== Sys2Proof/Laws/PerInstr.lean ====
section
/-! SUPPORT. Per command, as a term: the facts about its encoding that the round trip is made of. -/

namespace Sys2Proof

/-- The number of beats is the one the opcode map gives, the command is what its opcode, index and beats build, and its
header passes the checks of 30_encoding.md R87 when its index is legal. -/
def Laws.Encoding.Statement (i : Instr) : Prop :=
  nin i.opcode = some i.beats.length ∧ build i.opcode i.index i.beats = some i ∧
    (i.idxLegal = true → headerError (encodeHeader i) = none)

theorem Laws.Encoding.clr : Laws.Encoding.Statement .clr :=
  ⟨rfl, rfl, fun _ => by simp [headerError, Instr.opcode, Instr.index]⟩

theorem Laws.Encoding.setc (a0 a1 a2 b1 b2 c0 d0 : Word) :
    Laws.Encoding.Statement (.setc a0 a1 a2 b1 b2 c0 d0) :=
  ⟨rfl, rfl, fun _ => by simp [headerError, Instr.opcode, Instr.index]⟩

theorem Laws.Encoding.xform (x : Word) : Laws.Encoding.Statement (.xform x) :=
  ⟨rfl, rfl, fun _ => by simp [headerError, Instr.opcode, Instr.index]⟩

theorem Laws.Encoding.stq : Laws.Encoding.Statement .stq :=
  ⟨rfl, rfl, fun _ => by simp [headerError, Instr.opcode, Instr.index]⟩

theorem Laws.Encoding.rdc (idx : BitVec 4) : Laws.Encoding.Statement (.rdc idx) :=
  ⟨rfl, rfl, fun h => by
    simp [Instr.idxLegal] at h
    simp [headerError, Instr.opcode, Instr.index, h]⟩

theorem Laws.Encoding.rds (idx : BitVec 4) : Laws.Encoding.Statement (.rds idx) :=
  ⟨rfl, rfl, fun h => by
    simp [Instr.idxLegal] at h
    simp [headerError, Instr.opcode, Instr.index, h]⟩

theorem Laws.Encoding.rdstat : Laws.Encoding.Statement .rdstat :=
  ⟨rfl, rfl, fun _ => by simp [headerError, Instr.opcode, Instr.index]⟩

theorem Laws.Encoding.glpf1 (fs fc : Word) : Laws.Encoding.Statement (.glpf1 fs fc) :=
  ⟨rfl, rfl, fun _ => by simp [headerError, Instr.opcode, Instr.index]⟩

theorem Laws.Encoding.ghpf1 (fs fc : Word) : Laws.Encoding.Statement (.ghpf1 fs fc) :=
  ⟨rfl, rfl, fun _ => by simp [headerError, Instr.opcode, Instr.index]⟩

theorem Laws.Encoding.gapf1 (fs fc : Word) : Laws.Encoding.Statement (.gapf1 fs fc) :=
  ⟨rfl, rfl, fun _ => by simp [headerError, Instr.opcode, Instr.index]⟩

theorem Laws.Encoding.glpf2 (fs fc q : Word) : Laws.Encoding.Statement (.glpf2 fs fc q) :=
  ⟨rfl, rfl, fun _ => by simp [headerError, Instr.opcode, Instr.index]⟩

theorem Laws.Encoding.ghpf2 (fs fc q : Word) : Laws.Encoding.Statement (.ghpf2 fs fc q) :=
  ⟨rfl, rfl, fun _ => by simp [headerError, Instr.opcode, Instr.index]⟩

theorem Laws.Encoding.gapf2 (fs fc q : Word) : Laws.Encoding.Statement (.gapf2 fs fc q) :=
  ⟨rfl, rfl, fun _ => by simp [headerError, Instr.opcode, Instr.index]⟩

end Sys2Proof
end

