-- ==== Sys2Proof/Tests/Slice0.lean ====
section
/-! SUPPORT. Small tests whose expected values stand in spec/ (the id of a vector of 95_test_vectors.md is in each
docstring), and for every statement with hypotheses a concrete instance that meets them. -/

namespace Sys2Proof.Tests

open Sys2Proof.Machine

/-! ### Well-formedness -/

/-- Index 6 is the last coefficient, 7 is refused (30_encoding.md R82). -/
theorem test_wf_rdc : (Instr.rdc 6).wellFormed .binary32 = true ∧ (Instr.rdc 7).wellFormed .binary32 = false ∧
    (Instr.rdc 15).wellFormed .binary64 = false := by decide

/-- Index 3 is the last history register, 4 is refused (R82). -/
theorem test_wf_rds : (Instr.rds 3).wellFormed .binary64 = true ∧ (Instr.rds 4).wellFormed .binary64 = false := by
  decide

/-- An operand of more than 32 bits is no beat of a binary32 block (20_memory.md R63). -/
theorem test_wf_width : (Instr.xform 0xFFFFFFFF).wellFormed .binary32 = true ∧
    (Instr.xform 0x100000000).wellFormed .binary32 = false ∧
    (Instr.glpf2 0 0 0x100000000).wellFormed .binary32 = false ∧
    (Instr.setc 0 0 0 0 0 0 0x100000000).wellFormed .binary32 = false ∧
    (Instr.xform 0xFFFFFFFFFFFFFFFF).wellFormed .binary64 = true := by decide

/-! ### Decoding: header words and beats written out from 30_encoding.md R80, R81, R86 -/

/-- CLR and STQ and RDSTAT: header alone. -/
theorem test_decode_plain :
    decode .binary32 0 [.narrow 0x01000000] = .run .clr [] ∧ decode .binary64 0 [.narrow 0x04000000] = .run .stq [] ∧
      decode .binary64 0 [.narrow 0x07000000, .narrow 0x01000000] = .run .rdstat [.narrow 0x01000000] := by decide

/-- SETC: seven beats in the order a0, a1, a2, b1, b2, c0, d0. -/
theorem test_decode_setc :
    decode .binary32 0 (.narrow 0x02000000 :: [1, 2, 3, 4, 5, 6, 7].map PortEvent.narrow) =
        .run (.setc 1 2 3 4 5 6 7) [] ∧
      decode .binary64 0 (.narrow 0x02000000 :: [1, 2, 3, 4, 5, 6, 7, 8].map PortEvent.wide) =
        .run (.setc 1 2 3 4 5 6 7) [.wide 8] := by decide

/-- XFORM: one beat, bit for bit. -/
theorem test_decode_xform :
    decode .binary32 0 [.narrow 0x03000000, .narrow 0x83800000] = .run (.xform 0x83800000) [] ∧
      decodeTableWord 96 0xBFF000000000000103000000 = some (.xform 0xBFF0000000000001) := by decide

/-- RDC: IDX is bits 23 to 20. -/
theorem test_decode_rdc :
    [0x05000000, 0x05100000, 0x05300000, 0x05600000].map (decodeTableWord 32) =
      [some (.rdc 0), some (.rdc 1), some (.rdc 3), some (.rdc 6)] := by decide

/-- RDS: IDX is bits 23 to 20. -/
theorem test_decode_rds :
    [0x06000000, 0x06100000, 0x06200000, 0x06300000].map (decodeTableWord 32) =
      [some (.rds 0), some (.rds 1), some (.rds 2), some (.rds 3)] := by decide

/-- The first-order generators: fs, then fc. -/
theorem test_decode_first_order :
    decode .binary32 0 [.narrow 0x10000000, .narrow 1, .narrow 2] = .run (.glpf1 1 2) [] ∧
      decode .binary32 0 [.narrow 0x11000000, .narrow 1, .narrow 2] = .run (.ghpf1 1 2) [] ∧
      decode .binary64 0 [.narrow 0x12000000, .wide 1, .wide 2] = .run (.gapf1 1 2) [] := by decide

/-- The second-order generators: fs, fc, Q. -/
theorem test_decode_second_order :
    decode .binary32 0 [.narrow 0x18000000, .narrow 1, .narrow 2, .narrow 3] = .run (.glpf2 1 2 3) [] ∧
      decode .binary64 0 [.narrow 0x19000000, .wide 1, .wide 2, .wide 3] = .run (.ghpf2 1 2 3) [] ∧
      decode .binary64 0 [.narrow 0x1A000000, .wide 1, .wide 2, .wide 3] = .run (.gapf2 1 2 3) [] := by decide

/-- The illegal headers of R95, and how many words each takes (R89). -/
theorem test_decode_rejects :
    decode .binary64 0 [.narrow 0x00000000, .wide 0] = .reject 0x00 .illegalOpcode [.wide 0] ∧
      decode .binary64 0 [.narrow 0x03000001, .wide 0] = .reject 0x03 .reservedField [] ∧
      decode .binary64 0 [.narrow 0x03100000, .wide 0] = .reject 0x03 .reservedField [] ∧
      decode .binary64 0 [.narrow 0x05700000] = .reject 0x05 .indexRange [] ∧
      decode .binary64 0 [.narrow 0x06400000] = .reject 0x06 .indexRange [] ∧
      decode .binary64 0 [.narrow 0x05F00001] = .reject 0x05 .reservedField [] := by decide

/-- The encoder against the header words of R95. -/
theorem test_encode :
    [Instr.clr, .setc 0 0 0 0 0 0 0, .xform 0, .stq, .rdc 0, .rdc 3, .rdc 6, .rds 0, .rds 3, .rdstat, .glpf1 0 0,
        .ghpf1 0 0, .gapf1 0 0, .glpf2 0 0 0, .ghpf2 0 0 0, .gapf2 0 0 0].map encodeHeader =
      [0x01000000, 0x02000000, 0x03000000, 0x04000000, 0x05000000, 0x05300000, 0x05600000, 0x06000000, 0x06300000,
        0x07000000, 0x10000000, 0x11000000, 0x12000000, 0x18000000, 0x19000000, 0x1A000000] := by decide

/-- Least significant byte first (20_memory.md R61). -/
theorem test_bytes : (PortEvent.narrow 0x03000001).bytes = [0x01, 0x00, 0x00, 0x03] := by decide

/-! ### Steps -/

/-- The set DY of 95_test_vectors.md in binary64. -/
def dy : Coeffs Word :=
  ⟨0x3FE0000000000000, 0x3FD0000000000000, 0x3FC0000000000000, 0xBFE0000000000000, 0x3FD0000000000000,
    0x3FF0000000000000, 0⟩

/-- A block with a set loaded. -/
def loaded (topo : Topo) (T : Fmt) (c : Coeffs Word) (h : History Word) : State :=
  { State.init topo T with c := c, h := h, loaded := true }

/-- What can be compared of an outcome: the state, if there is one. -/
def after (r : Result) : Option State :=
  match r with
  | .next t => some t
  | _ => none

/-- One step on words sent by the host. -/
def sent (s : State) (words : List PortEvent) : Option State := after (step (s.send words))

/-- The response's header and beat (0 for none) as numbers. -/
def shown (r : Response) : Nat × Nat := (r.header.toNat, (r.beat.getD 0).toNat)

/-- The answers of a step, and the history it leaves. -/
def seen (o : Option State) : Option (List (Nat × Nat) × History Word) := o.map (fun t => (t.tx.map shown, t.h))

/-- V-C10: CLR zeroes the history and keeps the set. -/
theorem test_clr :
    sent (loaded .direct .binary64 dy ⟨0x3FF0000000000000, 0, 0x3FE0000000000000, 0⟩) [.narrow 0x01000000] =
      some { loaded .direct .binary64 dy ⟨0, 0, 0, 0⟩ with tx := [⟨0x01000000, none⟩], draw := 1 } := by decide

/-- V-C5: SETC after reset. -/
theorem test_setc :
    sent State.reset (.narrow 0x02000000 :: dy.toList.map PortEvent.wide) =
      some { loaded .canonicalTranspose .binary64 dy ⟨0, 0, 0, 0⟩ with tx := [⟨0x02000000, none⟩], draw := 8 } := by
  decide

/-- V-C6, V-C7: RDC answers the stored pattern. -/
theorem test_rdc :
    seen (sent (loaded .direct .binary64 dy ⟨0, 0, 0, 0⟩) [.narrow 0x05300000]) =
        some ([(0x05000000, 0xBFE0000000000000)], ⟨0, 0, 0, 0⟩) ∧
      seen (sent (loaded .direct .binary64 dy ⟨0, 0, 0, 0⟩) [.narrow 0x05600000]) =
        some ([(0x05000000, 0)], ⟨0, 0, 0, 0⟩) := by decide

/-- V-E15, V-E12: RDC without a set; the index is checked first. -/
theorem test_rdc_stops :
    seen (sent State.reset [.narrow 0x05000000]) = some ([(0x05000042, 0)], ⟨0, 0, 0, 0⟩) ∧
      seen (sent State.reset [.narrow 0x05700000]) = some ([(0x05000032, 0)], ⟨0, 0, 0, 0⟩) := by decide

/-- V-C4 and V-E10: RDS of each register after reset, and of index 4; then of four different values (R82). -/
theorem test_rds :
    seen (sent State.reset [.narrow 0x06200000]) = some ([(0x06000000, 0)], ⟨0, 0, 0, 0⟩) ∧
      seen (sent State.reset [.narrow 0x06400000]) = some ([(0x06000032, 0)], ⟨0, 0, 0, 0⟩) ∧
      ([0x06000000, 0x06100000, 0x06200000, 0x06300000].map fun w =>
          (seen (sent (loaded .direct .binary64 dy ⟨1, 2, 3, 4⟩) [.narrow w])).map Prod.fst) =
        [some [(0x06000000, 1)], some [(0x06000000, 2)], some [(0x06000000, 3)], some [(0x06000000, 4)]] := by decide

/-- V-C1, V-C2, V-C3: RDSTAT after reset. -/
theorem test_rdstat :
    seen (sent State.reset [.narrow 0x07000000]) = some ([(0x07000000, 0xB1000103)], ⟨0, 0, 0, 0⟩) ∧
      seen (sent (State.init .direct .binary32) [.narrow 0x07000000]) =
        some ([(0x07000000, 0xB1000000)], ⟨0, 0, 0, 0⟩) ∧
      seen (sent (State.init .directTranspose .binary32) [.narrow 0x07000000]) =
        some ([(0x07000000, 0xB1000002)], ⟨0, 0, 0, 0⟩) := by decide

/-- V-C14: RDSTAT with `LOADED` and `FLT` at 1. -/
theorem test_rdstat_flags :
    seen (sent { loaded .canonicalTranspose .binary64 dy ⟨0, 0, 0, 0⟩ with flt := true } [.narrow 0x07000000]) =
      some ([(0x07000000, 0xB1030103)], ⟨0, 0, 0, 0⟩) := by decide

/-- V-T1, step 2 in each realization, binary64: the output and the history after it. -/
theorem test_xform_steps :
    seen (sent (loaded .direct .binary64 dy ⟨0x3FF0000000000000, 0, 0x3FE0000000000000, 0⟩)
        [.narrow 0x03000000, .wide 0]) =
      some ([(0x03000000, 0x3FE0000000000000)],
        ⟨0, 0x3FF0000000000000, 0x3FE0000000000000, 0x3FE0000000000000⟩) ∧
    seen (sent (loaded .canonical .binary64 dy ⟨0x3FF0000000000000, 0, 0, 0⟩) [.narrow 0x03000000, .wide 0]) =
      some ([(0x03000000, 0x3FE0000000000000)], ⟨0x3FE0000000000000, 0x3FF0000000000000, 0, 0⟩) ∧
    seen (sent (loaded .directTranspose .binary64 dy
        ⟨0x3FD0000000000000, 0x3FC0000000000000, 0x3FE0000000000000, 0xBFD0000000000000⟩)
        [.narrow 0x03000000, .wide 0]) =
      some ([(0x03000000, 0x3FE0000000000000)],
        ⟨0x3FD0000000000000, 0x3FB0000000000000, 0, 0xBFC0000000000000⟩) ∧
    seen (sent (loaded .canonicalTranspose .binary64 dy ⟨0x3FE0000000000000, 0, 0, 0⟩)
        [.narrow 0x03000000, .wide 0]) =
      some ([(0x03000000, 0x3FE0000000000000)], ⟨0x3FD0000000000000, 0xBFC0000000000000, 0, 0⟩) := by
  decide +kernel

/-- V-T3 (x negative, Direct), V-T4, V-T9 and V-T12 in binary32: snap, smallest normal, rounding, a subnormal input; V-T2:
minus zero through the identity comes out as plus zero; and, by hand from R141 and R142 (log 19), the fourth input `-1` after
`mute`: `+0.0` in Direct, where `H = (-1, -1, -0.0, +0.0)`, and `-0.0` in Canonical. -/
theorem test_xform_snap_and_zero :
    seen (sent (loaded .direct .binary32 ⟨0x3A800000, 0, 0, 0, 0, 0x3F800000, 0⟩ ⟨0, 0, 0, 0⟩)
        [.narrow 0x03000000, .narrow 0x83800000]) =
      some ([(0x03000000, 0)], ⟨0x83800000, 0, 0x80080000, 0⟩) ∧
    seen (sent (loaded .canonical .binary32 ⟨0x3C800000, 0, 0, 0, 0, 0x3F800000, 0⟩ ⟨0, 0, 0, 0⟩)
        [.narrow 0x03000000, .narrow 0x03800000]) =
      some ([(0x03000000, 0x00800000)], ⟨0x03800000, 0, 0, 0⟩) ∧
    (seen (sent (loaded .direct .binary32 ⟨0x3DCCCCCD, 0, 0, 0, 0, 0x3F800000, 0⟩ ⟨0, 0, 0, 0⟩)
        [.narrow 0x03000000, .narrow 0x40400000])).map Prod.fst = some [(0x03000000, 0x3E99999A)] ∧
    seen (sent (loaded .canonicalTranspose .binary64 ⟨0x3FF0000000000000, 0, 0, 0, 0, 0x3FF0000000000000, 0⟩
        ⟨0, 0, 0, 0⟩) [.narrow 0x03000000, .wide 0x8000000000000000]) =
      some ([(0x03000000, 0)], ⟨0, 0x8000000000000000, 0, 0⟩) ∧
    seen (sent (loaded .canonicalTranspose .binary32 ⟨0x3F800000, 0, 0, 0, 0, 0x3F800000, 0⟩ ⟨0, 0, 0, 0⟩)
        [.narrow 0x03000000, .narrow 1]) =
      some ([(0x03000000, 0)], ⟨0, 0, 0, 0⟩) ∧
    seen (sent (loaded .direct .binary64 ⟨0, 0, 0, 0, 0, 0x3FF0000000000000, 0⟩
        ⟨0xBFF0000000000000, 0xBFF0000000000000, 0x8000000000000000, 0⟩)
        [.narrow 0x03000000, .wide 0xBFF0000000000000]) =
      some ([(0x03000000, 0)], ⟨0xBFF0000000000000, 0xBFF0000000000000, 0, 0x8000000000000000⟩) ∧
    seen (sent (loaded .canonical .binary64 ⟨0, 0, 0, 0, 0, 0x3FF0000000000000, 0⟩
        ⟨0xBFF0000000000000, 0xBFF0000000000000, 0, 0⟩) [.narrow 0x03000000, .wide 0xBFF0000000000000]) =
      some ([(0x03000000, 0x8000000000000000)], ⟨0xBFF0000000000000, 0xBFF0000000000000, 0, 0⟩) := by
  refine ⟨?_, ?_, ?_, ?_, ?_, ?_, ?_⟩ <;> decide +kernel

/-- V-S2: STQ does not snap. V-E14: STQ without a set. -/
theorem test_stq :
    seen (sent (loaded .direct .binary32 ⟨0x3A800000, 0x3A800000, 0, 0, 0, 0x3F800000, 0⟩
        ⟨0x03800000, 0, 0x00080000, 0⟩) [.narrow 0x04000000]) =
      some ([(0x04000000, 0x00080000)], ⟨0x03800000, 0, 0x00080000, 0⟩) ∧
    seen (sent State.reset [.narrow 0x04000000]) = some ([(0x04000042, 0)], ⟨0, 0, 0, 0⟩) := by decide +kernel

/-- R150's pseudocode with R142 and R143 by hand, `a0` infinite (log 19): `theta` is `0.5` in Canonical (`b1 = -0.5`,
`H[0] = 1`) and `1` in Direct-Transpose (`H[2] = 1`), so the answer is `+inf`, no NaN. -/
theorem test_stq_infinite_a0 :
    seen (sent (loaded .canonical .binary64 ⟨0x7FF0000000000000, 0, 0, 0xBFE0000000000000, 0, 0, 0⟩
        ⟨0x3FF0000000000000, 0, 0, 0⟩) [.narrow 0x04000000]) =
      some ([(0x04000000, 0x7FF0000000000000)], ⟨0x3FF0000000000000, 0, 0, 0⟩) ∧
    seen (sent (loaded .directTranspose .binary64 ⟨0x7FF0000000000000, 0, 0, 0, 0, 0, 0⟩
        ⟨0, 0, 0x3FF0000000000000, 0⟩) [.narrow 0x04000000]) =
      some ([(0x04000000, 0x7FF0000000000000)], ⟨0, 0, 0x3FF0000000000000, 0⟩) := by decide +kernel

/-- V-E17, V-E19, V-E20: the first-order generators refuse. -/
theorem test_first_order_refuse :
    (sent State.reset [.narrow 0x10000000, .wide 0x8000000000000000, .wide 0x408F400000000000]).map (·.tx.map shown) =
        some [(0x10000052, 0)] ∧
      (sent State.reset [.narrow 0x11000000, .wide 0xC0E7700000000000, .wide 0x408F400000000000]).map
        (·.tx.map shown) = some [(0x11000052, 0)] ∧
      (sent State.reset [.narrow 0x12000000, .wide 0x7FF0000000000000, .wide 0x408F400000000000]).map
        (·.tx.map shown) = some [(0x12000052, 0)] := by decide +kernel

/-- V-E24, V-E25, V-E26: the second-order generators refuse. -/
theorem test_second_order_refuse :
    (sent State.reset [.narrow 0x18000000, .wide 0x40E7700000000000, .wide 0x408F400000000000, .wide 0]).map
        (·.tx.map shown) = some [(0x18000052, 0)] ∧
      (sent State.reset [.narrow 0x19000000, .wide 0x40E7700000000000, .wide 0x408F400000000000,
        .wide 0xBFF0000000000000]).map (·.tx.map shown) = some [(0x19000052, 0)] ∧
      (sent State.reset [.narrow 0x1A000000, .wide 0x40E7700000000000, .wide 0x408F400000000000,
        .wide 0x7FF0000000000000]).map (·.tx.map shown) = some [(0x1A000052, 0)] := by decide +kernel

/-- V-E27: a reserved bit is reported before a bad argument. V-E28: a negative cutoff is accepted. -/
theorem test_generator_order :
    (sent State.reset [.narrow 0x10000001, .wide 0, .wide 0x408F400000000000]).map (·.tx.map shown) =
        some [(0x10000022, 0)] ∧
      firstOrderOk 0x40E7700000000000 0xC08F400000000000 = true := by decide +kernel

/-- The functions of 93_implementation_defined.md K11 at the arguments of the V-G vectors (0 elsewhere). -/
def k11 : DesignArith Word :=
  design64With (fun x => if x = 0x3FF921FB54442D18 then 0x3FF0000000000000 else 0)
    (fun x => if x = 0x3FF921FB54442D18 then 0x3C91A62633145C07 else if x = 0 then 0x3FF0000000000000 else 0)
    (fun x => if x = 0x3FE921FB54442D18 then 0x3FEFFFFFFFFFFFFF else 0)

/-- V-G1, V-G2, V-G3 in binary64. -/
theorem test_first_order_formulas :
    glpf1Formula k11 0x40E7700000000000 0x40C7700000000000 =
        ⟨0x3FE0000000000000, 0x3FE0000000000000, 0, 0xBC81A62633145C07, 0, 0x3FF0000000000000, 0⟩ ∧
      ghpf1Formula k11 0x40E7700000000000 0x40C7700000000000 =
        ⟨0x3FE0000000000000, 0xBFE0000000000000, 0, 0xBC81A62633145C07, 0, 0x3FF0000000000000, 0⟩ ∧
      gapf1Formula k11 0x40E7700000000000 0x40C7700000000000 =
        ⟨0xBC90000000000000, 0x3FF0000000000000, 0, 0xBC90000000000000, 0, 0x3FF0000000000000, 0⟩ := by decide +kernel

/-- V-G4, V-G5, V-G6 in binary64. -/
theorem test_second_order_formulas :
    glpf2Formula k11 0x40E7700000000000 0x40C7700000000000 0x3FF0000000000000 =
        ⟨0x3FD5555555555555, 0x3FE5555555555555, 0x3FD5555555555555, 0xBC978832EEC5D009, 0x3FD5555555555555,
          0x3FF0000000000000, 0⟩ ∧
      ghpf2Formula k11 0x40E7700000000000 0x40C7700000000000 0x3FF0000000000000 =
        ⟨0x3FD5555555555555, 0xBFE5555555555555, 0x3FD5555555555555, 0xBC978832EEC5D009, 0x3FD5555555555555,
          0x3FF0000000000000, 0⟩ ∧
      gapf2Formula k11 0x40E7700000000000 0x40C7700000000000 0x3FF0000000000000 =
        ⟨0x3C90000000000000, 0xBC91A62633145C07, 0x3FF0000000000000, 0xBC91A62633145C07, 0x3C90000000000000,
          0x3FF0000000000000, 0⟩ := by decide +kernel

/-- V-G4 and V-G6 in binary32: the widened operands, and the rounded sets. -/
theorem test_binary32_sets :
    Fmt.widen64 .binary32 0 0x473B8000 = 0x40E7700000000000 ∧ Fmt.widen64 .binary32 0 0x463B8000 = 0x40C7700000000000 ∧
      roundSet .binary32 0 (glpf2Formula k11 0x40E7700000000000 0x40C7700000000000 0x3FF0000000000000) =
        ⟨0x3EAAAAAB, 0x3F2AAAAB, 0x3EAAAAAB, 0xA4BC4197, 0x3EAAAAAB, 0x3F800000, 0⟩ ∧
      roundSet .binary32 0 (gapf2Formula k11 0x40E7700000000000 0x40C7700000000000 0x3FF0000000000000) =
        ⟨0x24800000, 0xA48D3132, 0x3F800000, 0xA48D3132, 0x24800000, 0x3F800000, 0⟩ := by decide +kernel

/-- V-E31, V-E32, V-E33: an XFORM without its beat waits; reset discards it; another header becomes its operand. -/
theorem test_incomplete :
    sent State.reset [.narrow 0x03000000] = none ∧
      sent State.reset [.narrow 0x03000000, .reset] = some { State.reset with draw := 2 } ∧
      decode .binary32 0 [.narrow 0x03000000, .narrow 0x07000000] = .run (.xform 0x07000000) [] := by decide

/-- V-E4, V-E5, V-E16: causes in their order. -/
theorem test_causes :
    (sent State.reset [.narrow 0xFF0FFFFF]).map (·.tx.map shown) = some [(0xFF000012, 0)] ∧
      (sent State.reset [.narrow 0x03100000, .wide 0]).map (·.tx.map shown) = some [(0x03000022, 0)] ∧
      sent (loaded .direct .binary64 dy ⟨1, 2, 3, 4⟩) [.narrow 0x03000001, .wide 0] =
        some { loaded .direct .binary64 dy ⟨1, 2, 3, 4⟩ with flt := true, tx := [⟨0x03000022, none⟩], draw := 2 } := by
  decide

/-- The identity string (00_scope.md R2). -/
theorem test_config_string : configString .canonicalTranspose .binary64 = "biquad_iir_filter-CT-b64" := by decide

/-- The assembler lines of 30_encoding.md R93, on binary64. -/
theorem test_assembler :
    assembleLine .binary64 "setc 0.5, 0.25, 0.125, -0.5, 0.25, 1.0, 0.0" =
        some [.setc dy.a0 dy.a1 dy.a2 dy.b1 dy.b2 dy.c0 dy.d0] ∧
      assembleLine .binary64 "rdc b1 ; a comment" = some [.rdc 3] ∧
      assembleLine .binary32 "xform bits:0x3F800000" = some [.xform 0x3F800000] ∧
      assembleLine .binary32 "xform -3e-2" = some [.xform 0xBCF5C28F] ∧
      assembleLine .binary32 "xform 0x1.8p-3" = some [.xform 0x3E400000] ∧
      assembleLine .binary32 "rds 4" = none := by decide +kernel

/-! ### Witnesses: instances that meet the hypotheses of a statement, named after it -/

theorem witness_DecodingAnEncodedCommandGivesItBack :
    (Instr.rdc 6).wellFormed .binary32 = true ∧ (Instr.rds 3).wellFormed .binary64 = true ∧
      (Instr.gapf2 0xFFFFFFFF 0 1).wellFormed .binary32 = true := by decide

theorem witness_OnlyItsEncodingDecodesToACommand :
    (∀ e ∈ [PortEvent.narrow 0xFFFFFFFF, .reset].take (Instr.xform 0xFFFFFFFF).beats.length,
        beatSized .binary32 e = true) ∧
      decode .binary32 0 (.narrow 0x03000000 :: [.narrow 0xFFFFFFFF, .reset]) = .run (.xform 0xFFFFFFFF) [.reset] := by
  decide

theorem witness_BytesCarryATransactionLittleEndian :
    (Instr.xform 0xFFFFFFFF).wellFormed .binary32 = true ∧
      frame .binary32 [0, 0, 0, 3, 0, 0, 128, 63, 7] = some (encode .binary32 (.xform 0x3F800000), [7]) := by decide

theorem witness_TransactionLengthIsFixedByTheOpcode :
    ∃ t, step (State.reset.send [.narrow 0x03000001, .wide 5, .wide 6]) = .next t ∧
      ∀ e ∈ [PortEvent.wide 5, .wide 6], isWord e = true := ⟨_, rfl, by decide⟩

/-- The four ranges of illegal opcodes at their ends; a reserved bit at each end; an index where none may be; the first
and the last index that is out of range. -/
theorem witness_IllegalEncodingsFailInStep :
    ([0x00000000, 0x08000000, 0x0FFFFFFF, 0x13000000, 0x17000000, 0x1B000000, 0xFF0FFFFF].all fun w : Header =>
        let opc := (opcField w).toNat
        decide (opc = 0 ∨ (0x08 ≤ opc ∧ opc ≤ 0x0F) ∨ (0x13 ≤ opc ∧ opc ≤ 0x17) ∨ 0x1B ≤ opc)) = true ∧
      (nin (opcField 0x03080000) = some [PortEvent.wide 0].length ∧ rsvField 0x03080000 ≠ 0 ∧ rsvField 0x03000001 ≠ 0 ∧
        isWord (.wide 0) = true) ∧
      (nin (opcField 0x01100000) = some 0 ∧ rsvField 0x01100000 = 0 ∧ idxField 0x01100000 ≠ 0) ∧
      (nin (opcField 0x05700000) = some 0 ∧ rsvField 0x05700000 = 0 ∧ 7 ≤ (idxField 0x05700000).toNat ∧
        7 ≤ (idxField 0x05F00000).toNat) ∧
      (nin (opcField 0x06400000) = some 0 ∧ rsvField 0x06400000 = 0 ∧ 4 ≤ (idxField 0x06400000).toNat ∧
        4 ≤ (idxField 0x06F00000).toNat) := by decide

theorem witness_AStepRunsTheDecodedCommand :
    (Instr.xform 1).wellFormed State.reset.fmt = true ∧
      (State.reset.send [.narrow 0x03000000, .wide 1, .reset]).rx = encode State.reset.fmt (.xform 1) ++ [.reset] := by
  decide

theorem witness_CommandsExecuteInArrivalOrder :
    (∀ i ∈ [Instr.clr, .xform 1], i.wellFormed .binary64 = true) ∧
      (State.reset.send [.narrow 0x01000000, .narrow 0x03000000, .wide 1]).rx =
        [Instr.clr, .xform 1].flatMap (encode .binary64) ++ [] := by decide

theorem witness_AnIncompleteTransactionWaits :
    State.reset.rx = [] ∧
      (nin (opcField 0x02000000) = some 7 ∧ [PortEvent.wide 1].length < 7 ∧ isWord (.wide 1) = true ∧
        [PortEvent.wide 1].length + (List.replicate 6 (PortEvent.wide 0)).length = 7) ∧
      ((∀ e ∈ [PortEvent.wide 1] ++ List.replicate 6 (PortEvent.wide 0), beatSized .binary64 e = true) ∧
        headerError 0x02000000 = none) ∧
      (State.init .direct .binary32).fmt = .binary32 ∧
      ((State.init .direct .binary32).send [.narrow 0x03000000, .narrow 0x07000000]).rx =
        [.narrow 0x03000000, .narrow 0x07000000] := by decide

theorem witness_HardwareResetRestoresTheStatedValues :
    (State.reset.send [.reset, .wide 1]).rx = [] ++ .reset :: [.wide 1] ∧
      ((State.reset.send [.narrow 0x03000000, .reset]).rx = [.narrow 0x03000000] ++ .reset :: [] ∧
        nin (opcField 0x03000000) = some 1 ∧ ([] : List PortEvent).length < 1) ∧
      ∃ t, step ({ State.reset with flt := true, loaded := true, rx := [.narrow 0x01000000] }) = .next t ∧
        isWord (.narrow 0x01000000) = true :=
  ⟨rfl, ⟨rfl, rfl, by decide⟩, _, rfl, rfl⟩

theorem witness_StrapsNeverChange : ∃ t, step (State.reset.send [.reset]) = .next t := ⟨_, rfl⟩

theorem witness_EveryCommandGivesExactlyOneResponse :
    (∃ t r, exec (.rds 3) State.reset = .next t ∧ t.tx = State.reset.tx ++ [r] ∧ r.status = 0b00) ∧
      ∃ t, step (State.reset.send [.narrow 0xFF000000, .wide 3]) = .next t ∧ isWord (.wide 3) = true :=
  ⟨⟨_, _, rfl, rfl, by decide⟩, _, rfl, rfl⟩

theorem witness_AFailedCommandChangesFltOnly :
    ∃ t r, step (State.reset.send [.narrow 0x05000000]) = .next t ∧ t.tx = State.reset.tx ++ [r] ∧ r.status = 0b10 ∧
      isWord (.narrow 0x05000000) = true := ⟨_, _, rfl, rfl, by decide, rfl⟩

/-- Each cause, and none, is the first of some transaction (V-E1, V-E5, V-E9, V-E13, V-E17). -/
theorem witness_TheFirstCauseThatAppliesIsReported :
    firstCause .binary64 false 0x00000000 [] = some .illegalOpcode ∧
      firstCause .binary64 false 0x03000001 [0] = some .reservedField ∧
      firstCause .binary64 false 0x05700000 [] = some .indexRange ∧
      firstCause .binary64 false 0x03000000 [0] = some .notLoaded ∧
      firstCause .binary64 false 0x10000000 [0, 0x408F400000000000] = some .badArgument ∧
      firstCause .binary64 true 0x03000000 [0] = none ∧
      (nin (opcField 0x00000000)).getD 0 = ([] : List Word).length ∧
      (nin (opcField 0x10000000)).getD 0 = [(0 : Word), 0x408F400000000000].length ∧
      Fmt.fits .binary64 0x408F400000000000 = true := by decide

theorem witness_FltIsStickyAndStopsNothing :
    (∃ t, step ({ State.reset with flt := true, rx := [.reset] }) = .next t ∧ t.flt = false) ∧
      decode .binary64 0 [.narrow 0x03000001, .wide 0] = .reject 0x03 .reservedField [] ∧
      (∃ t r, step (State.reset.send [.narrow 0x05000000]) = .next t ∧ t.tx = State.reset.tx ++ [r] ∧ r.status = 0b10) ∧
      (∃ t r, exec (.rdc 7) { State.reset with flt := true } = .next t ∧
        t.tx = State.reset.tx ++ [r] ∧ r.status = 0b10) ∧
      (∃ t, exec .rdstat State.reset = .next t) :=
  ⟨⟨_, rfl, rfl⟩, by decide, ⟨_, _, rfl, rfl, by decide⟩, ⟨_, _, rfl, rfl, by decide⟩, _, rfl⟩

theorem witness_LoadedGatesAndIsSetByLoads :
    (∃ t, step ({ State.reset with loaded := true, rx := [.reset] }) = .next t ∧ t.loaded = false) ∧
      State.reset.loaded = false ∧ (6 : BitVec 4).toNat ≤ 6 ∧
      ∃ t r, exec (.setc 0 0 0 0 0 0 0) State.reset = .next t ∧ t.tx = State.reset.tx ++ [r] :=
  ⟨⟨_, rfl, rfl⟩, rfl, by decide, _, _, rfl, rfl⟩

theorem witness_CommandsWriteOnlyWhatTheTableSays :
    isLoad (.rdc 0) = false ∧ (Instr.rdc 0 ≠ .clr ∧ ∀ x, Instr.rdc 0 ≠ .xform x) ∧
      ∃ t, exec (.rdc 0) State.reset = .next t := ⟨rfl, ⟨by decide, by simp⟩, _, rfl⟩

theorem witness_EveryStepKeepsTheInvariant :
    (State.reset.send [.narrow 0x01000000]).Inv = true ∧
      ∃ t, step (State.reset.send [.narrow 0x01000000]) = .next t := ⟨by decide, _, rfl⟩

theorem witness_UnloadedCoefficientsAreUnobservable :
    State.reset.loaded = false ∧ (∃ t, exec (.setc 0 0 0 0 0 0 0) State.reset = .next t ∧ t.loaded = true) ∧
      ∃ t, exec .clr State.reset = .next t ∧ t.loaded = false := ⟨rfl, ⟨_, rfl, rfl⟩, _, rfl, rfl⟩

theorem witness_SetcLoadsTheWholeSet :
    (∀ w ∈ [0xFFFFFFFF, 0, 0, 0, 0, 0, 0xFFFFFFFF], (State.init .direct .binary32).fmt.fits w = true) ∧
      ∀ w ∈ dy.toList, State.reset.fmt.fits w = true :=
  ⟨List.all_eq_true.mp (by decide), List.all_eq_true.mp (by decide)⟩

theorem witness_RdcAnswersTheStoredCoefficient :
    (loaded .direct .binary64 dy ⟨0, 0, 0, 0⟩).loaded = true ∧ (0 : BitVec 4).toNat ≤ 6 ∧ (6 : BitVec 4).toNat ≤ 6 ∧
      7 ≤ (7 : BitVec 4).toNat ∧ 7 ≤ (15 : BitVec 4).toNat := by decide

theorem witness_RdsAnswersTheStoredHistory :
    (0 : BitVec 4).toNat ≤ 3 ∧ (3 : BitVec 4).toNat ≤ 3 ∧ 4 ≤ (4 : BitVec 4).toNat ∧ 4 ≤ (15 : BitVec 4).toNat := by
  decide

theorem witness_ReadsRepeatWithTheSameValue :
    ∃ t r, exec (.rds 3) State.reset = .next t ∧ t.tx = State.reset.tx ++ [r] ∧ r.status = 0b00 :=
  ⟨_, _, rfl, rfl, by decide⟩

/-- The four XFORM statements: a loaded block of each realization, and an operand of each format. -/
theorem witness_Xform :
    (∀ topo ∈ [Topo.direct, .canonical, .directTranspose, .canonicalTranspose],
      (loaded topo .binary32 ⟨0, 0, 0, 0, 0, 0, 0⟩ ⟨0, 0, 0, 0⟩).loaded = true ∧
        (loaded topo .binary32 ⟨0, 0, 0, 0, 0, 0, 0⟩ ⟨0, 0, 0, 0⟩).topo = topo) ∧
      Fmt.fits .binary32 0x3F800000 = true ∧ Fmt.fits .binary64 0x3FF0000000000000 = true := by decide

theorem witness_StqAnswersTheNextZeroInputOutput :
    ∀ topo ∈ [Topo.direct, .canonical, .directTranspose, .canonicalTranspose],
      (loaded topo .binary64 dy ⟨0, 0, 0, 0⟩).loaded = true ∧ (loaded topo .binary64 dy ⟨0, 0, 0, 0⟩).topo = topo := by
  decide

/-- A subnormal on both ends of its range, and the smallest normal value (for the clauses of the snap). -/
theorem witness_SnapClearsExactlyTheSubnormals :
    (0 < Fmt.mag .binary32 1 ∧ Fmt.mag .binary32 0x807FFFFF < 2 ^ Fmt.fracBits .binary32) ∧
      ¬ Fmt.mag .binary32 0x00800000 < 2 ^ Fmt.fracBits .binary32 ∧ Fmt.mag .binary32 0x80000000 = 0 := by decide

theorem witness_XformNeverAnswersASubnormal :
    ∃ t v hdr, exec (.xform 0) (loaded .direct .binary64 dy ⟨0, 0, 0, 0⟩) = .next t ∧
      t.tx = (loaded .direct .binary64 dy ⟨0, 0, 0, 0⟩).tx ++ [⟨hdr, some v⟩] := ⟨_, _, _, rfl, rfl⟩

theorem witness_C0AndD0AreNotApplied :
    (∃ t, exec (.rdc 4) State.reset = .next t) ∧ (Instr.rdc 4 ≠ .rdc 5 ∧ Instr.rdc 4 ≠ .rdc 6) ∧
      Fmt.fits .binary32 0xFFFFFFFF = true ∧ isLoad (.glpf1 0x40E7700000000000 0) = true ∧
      firstOrderOk 0x40E7700000000000 0 = true ∧
      badArguments State.reset.fmt 0x10 [0x40E7700000000000, 0] = false :=
  ⟨⟨_, rfl⟩, by decide, by decide, rfl, by decide +kernel, by decide⟩

/-- The first and the last NaN pattern of each format; the infinities are no NaN and not finite. -/
theorem witness_NansPropagateAndMayBeAnyNan :
    Fmt.isNaN .binary32 0x7F800001 = true ∧ Fmt.isNaN .binary32 0xFFFFFFFF = true ∧
      Fmt.fits .binary32 0xFFFFFFFF = true ∧ Fmt.isNaN .binary64 0x7FF0000000000001 = true ∧
      Fmt.isNaN .binary64 0xFFFFFFFFFFFFFFFF = true ∧ Fmt.isNaN .binary32 0x7F800000 = false ∧
      Fmt.isFinite .binary32 0x7F800000 = false := by decide

/-- Each operation answers a NaN somewhere without a NaN operand: `inf + -inf`, `inf - inf`, `0 * inf`, `0 / 0`. -/
theorem witness_NansPropagateAndMayBeAnyNan_invalid (k : Nat) :
    Fmt.isNaN .binary32 (Fmt.fadd .binary32 k 0x7F800000 0xFF800000) = true ∧
      Fmt.isNaN .binary32 (Fmt.fsub .binary32 k 0x7F800000 0x7F800000) = true ∧
      Fmt.isNaN .binary32 (Fmt.fmul .binary32 k 0 0x7F800000) = true ∧
      Fmt.isNaN .binary32 (Fmt.fdiv .binary32 k 0 0) = true := by
  have h0 : Fmt.unpack .binary32 0 = .fin false 0 := by decide
  have h1 : Fmt.unpack .binary32 0x7F800000 = .inf false := by decide
  have h2 : Fmt.unpack .binary32 0xFF800000 = .inf true := by decide
  simp only [Fmt.fadd, Fmt.fsub, Fmt.fmul, Fmt.fdiv, h0, h1, h2]
  exact ⟨Fmt.isNaN_nanOf .., Fmt.isNaN_nanOf .., Fmt.isNaN_nanOf .., Fmt.isNaN_nanOf ..⟩

theorem witness_NonFiniteHistoryPersists :
    (∀ topo ∈ [Topo.direct, .canonical, .canonicalTranspose],
        feedsBack (loaded topo .binary32 ⟨0, 0, 0, 0, 0, 0, 0⟩ ⟨0x7F800000, 0, 0, 0⟩) = true) ∧
      feedsBack (loaded .directTranspose .binary32 ⟨0, 0, 0, 0, 0, 0, 0⟩ ⟨0, 0, 0xFF800000, 0⟩) = true ∧
      feedsBackLater (loaded .directTranspose .binary32 ⟨0, 0, 0, 0, 0, 0, 0⟩ ⟨0, 0, 0, 0x7F800001⟩) = true ∧
      feedsBackLater (loaded .canonicalTranspose .binary64 dy ⟨0, 0x7FF0000000000000, 0, 0⟩) = true := by decide

theorem witness_RealizationsHaveTheTransferFunction : 0 < [(1 : ℝ)].length := by simp

/-- The smallest and the largest finite magnitude below infinity; a ratio at the halfway point. -/
theorem witness_RoundingIsToNearestTiesToEven :
    0 < 2 ∧ Fmt.roundMag .binary32 3 2 < Fmt.infMag .binary32 ∧ Fmt.infMag .binary32 - 1 < Fmt.infMag .binary32 ∧
      Fmt.roundMag .binary32 3 2 = 2 ∧ Fmt.roundMag .binary32 1 2 = 0 := by decide +kernel

/-- `1 / 3`: finite operands, a divisor that is not zero, a finite quotient; and finite sums and products. -/
theorem witness_ArithmeticIsCorrectlyRounded :
    Fmt.isFinite .binary32 0x3F800000 = true ∧ Fmt.isFinite .binary32 0x40400000 = true ∧
      Fmt.exact .binary32 0x40400000 ≠ 0 ∧
      Fmt.fdiv .binary32 0 0x3F800000 0x40400000 = 0x3EAAAAAB ∧ Fmt.isFinite .binary32 0x3EAAAAAB = true ∧
      Fmt.isFinite .binary32 (Fmt.fadd .binary32 0 0x3F800000 0x40400000) = true ∧
      Fmt.isFinite .binary32 (Fmt.fsub .binary32 0 0x3F800000 0x40400000) = true ∧
      Fmt.isFinite .binary32 (Fmt.fmul .binary32 0 0x3F800000 0x40400000) = true := by decide +kernel

theorem witness_WideningIsExactAndRoundsBack :
    Fmt.isFinite .binary32 0x00000001 = true ∧ Fmt.fits .binary32 0xFF800000 = true ∧
      Fmt.isNaN .binary32 0xFF800000 = false := by decide

/-- The smallest and the largest normal value. -/
theorem witness_PassReturnsNormalSamplesUnchanged :
    ∀ x ∈ [(0x00800000 : Word), 0xFF7FFFFF],
      Fmt.fits .binary32 x = true ∧ Fmt.isFinite .binary32 x = true ∧ 2 ^ Fmt.fracBits .binary32 ≤ Fmt.mag .binary32 x := by
  intro x hx
  simp only [List.mem_cons, List.not_mem_nil, or_false] at hx
  rcases hx with rfl | rfl <;> decide +kernel

/-- An accepted and a refused set of operands for a generator of each order, at the ends of the accepted range. -/
theorem witness_GeneratorsRefuseExactlyBadArguments :
    (Instr.glpf1 1 0).opcode.toNat ∈ [0x10, 0x11, 0x12, 0x18, 0x19, 0x1A] ∧
      (∀ w ∈ (Instr.gapf2 1 0 0x7F7FFFFF).beats, Fmt.fits .binary32 w = true) ∧
      badArguments .binary32 0x10 (Instr.glpf1 1 0).beats = false ∧
      badArguments .binary32 0x10 (Instr.glpf1 0 0).beats = true ∧
      badArguments .binary32 0x10 (Instr.glpf1 1 0x7F800000).beats = true ∧
      badArguments .binary32 0x1A (Instr.gapf2 1 0 0x7F7FFFFF).beats = false ∧
      badArguments .binary32 0x1A (Instr.gapf2 1 0 0x7F800000).beats = true :=
  ⟨by decide, List.all_eq_true.mp (by decide), by decide⟩

/-- The six generator statements: operands of 95_test_vectors.md V-G1 to V-G6 on both formats. -/
theorem witness_Generators :
    (∀ opc ∈ [0x10, 0x11, 0x12], badArguments .binary64 opc [0x40E7700000000000, 0x40C7700000000000] = false ∧
        badArguments .binary32 opc [0x473B8000, 0x463B8000] = false) ∧
      (∀ opc ∈ [0x18, 0x19, 0x1A],
        badArguments .binary64 opc [0x40E7700000000000, 0x40C7700000000000, 0x3FF0000000000000] = false ∧
        badArguments .binary32 opc [0x473B8000, 0x463B8000, 0x3F800000] = false) ∧
      (∀ w ∈ [0x473B8000, 0x463B8000, 0x3F800000], Fmt.fits .binary32 w = true) :=
  ⟨by decide, by decide, List.all_eq_true.mp (by decide)⟩

/-- No denominator is zero for a sine, cosine and tangent of 0. -/
theorem witness_DesignsHaveTheStatedGains :
    let A := exactDesign 0 (fun _ => 0) (fun _ => 0) (fun _ => 0)
    (¬ 1 + (glpf1Formula A 1 1).b1 + (glpf1Formula A 1 1).b2 = 0) ∧
      (¬ 1 + (glpf2Formula A 1 1 1).b1 + (glpf2Formula A 1 1 1).b2 = 0) ∧
      (¬ 1 - (ghpf1Formula A 1 1).b1 + (ghpf1Formula A 1 1).b2 = 0) ∧
      (¬ 1 - (ghpf2Formula A 1 1 1).b1 + (ghpf2Formula A 1 1 1).b2 = 0) := by
  simp [exactDesign, exactArith, glpf1Formula, glpf2Formula, ghpf1Formula, ghpf2Formula]

theorem witness_AllPassesHaveUnitMagnitude : ‖(1 : ℂ)‖ = 1 ∧ ‖Complex.I‖ = 1 := by simp

/-- The largest finite value doubled overflows, its sum with a half unit in the last place does too, with less it does not;
one by the smallest subnormal overflows, one by three does not. -/
theorem witness_OverflowGivesTheInfinityOfTheSign :
    Fmt.isFinite .binary32 0x7F7FFFFF = true ∧ Fmt.isFinite .binary32 0x73000000 = true ∧
      Fmt.Overflows .binary32 (Fmt.exact .binary32 0x7F7FFFFF + Fmt.exact .binary32 0x73000000) 1 ∧
      ¬ Fmt.Overflows .binary32 (Fmt.exact .binary32 0x7F7FFFFF + Fmt.exact .binary32 0x72FFFFFF) 1 ∧
      Fmt.Overflows .binary32 (Fmt.exact .binary32 0x7F7FFFFF - Fmt.exact .binary32 0xF3000000) 1 ∧
      ¬ Fmt.Overflows .binary32 (Fmt.exact .binary32 0x7F7FFFFF - Fmt.exact .binary32 0x7F7FFFFF) 1 ∧
      Fmt.Overflows .binary32 (Fmt.exact .binary32 0x7F7FFFFF * Fmt.exact .binary32 0x40000000) (2 ^ 149) ∧
      ¬ Fmt.Overflows .binary32 (Fmt.exact .binary32 0x7F7FFFFF * Fmt.exact .binary32 0x3F800000) (2 ^ 149) ∧
      Fmt.exact .binary32 0x00000001 ≠ 0 ∧
      Fmt.Overflows .binary32 (Fmt.exact .binary32 0x3F800000 * 2 ^ 149) (Fmt.exact .binary32 0x00000001).natAbs ∧
      ¬ Fmt.Overflows .binary32 (Fmt.exact .binary32 0x3F800000 * 2 ^ 149) (Fmt.exact .binary32 0x40400000).natAbs := by
  unfold Fmt.Overflows
  decide +kernel

theorem witness_InfinitiesAndZeroDivisorsFollowIeee :
    Fmt.isInf .binary32 0xFF800000 = true ∧ Fmt.isFinite .binary32 0x7F7FFFFF = true ∧
      Fmt.sign .binary32 0xFF800000 ≠ Fmt.sign .binary32 0x7F800000 ∧ Fmt.isNaN .binary32 0x00000001 = false ∧
      Fmt.mag .binary32 0x00000001 ≠ 0 ∧ Fmt.mag .binary32 0x80000000 = 0 ∧ Fmt.isFinite .binary32 0x00000001 = true := by
  decide

/-- `1 + (-1)`, `-0 + -0`, `1 + 1`, `-0 - (+0)`, `1 - (-1)`, `1 / 1`. -/
theorem witness_SignsOfResultsFollowIeee :
    Fmt.isFinite .binary32 0x3F800000 = true ∧ Fmt.isFinite .binary32 0xBF800000 = true ∧
      Fmt.exact .binary32 0x3F800000 + Fmt.exact .binary32 0xBF800000 = 0 ∧
      Fmt.exact .binary32 0x80000000 + Fmt.exact .binary32 0x80000000 = 0 ∧
      Fmt.exact .binary32 0x3F800000 + Fmt.exact .binary32 0x3F800000 ≠ 0 ∧
      Fmt.exact .binary32 0x80000000 - Fmt.exact .binary32 0x00000000 = 0 ∧
      Fmt.exact .binary32 0x3F800000 - Fmt.exact .binary32 0xBF800000 ≠ 0 ∧ Fmt.exact .binary32 0x3F800000 ≠ 0 := by
  decide +kernel

/-- The smallest subnormal of binary64, its largest finite value, and the halfway point above binary32's largest. -/
theorem witness_ConversionsRoundToNearest :
    Fmt.isFinite .binary64 0x0000000000000001 = true ∧
      ¬ Fmt.Overflows .binary32 (Fmt.exact .binary64 0x0000000000000001 * 2 ^ 149) (2 ^ 1074) ∧
      Fmt.isFinite .binary64 0x47EFFFFFF0000000 = true ∧
      Fmt.Overflows .binary32 (Fmt.exact .binary64 0x47EFFFFFF0000000 * 2 ^ 149) (2 ^ 1074) ∧
      ¬ Fmt.Overflows .binary32 (Fmt.exact .binary64 0x47EFFFFFEFFFFFFF * 2 ^ 149) (2 ^ 1074) ∧
      Fmt.isInf .binary64 0xFFF0000000000000 = true ∧ Fmt.isNaN .binary64 0x7FF0000000000001 = true ∧
      Fmt.isFinite .binary32 0x80000001 = true ∧ Fmt.isInf .binary32 0xFF800000 = true ∧
      Fmt.isNaN .binary32 0x7F800001 = true := by
  unfold Fmt.Overflows
  decide +kernel

/-- The bytes of V-C1's response, by the rule; a step that meets the statement's hypotheses. -/
theorem witness_ResponsesAreCarriedLittleEndian :
    (State.reset.send [.narrow 0x07000000]).Inv = true ∧ isWord (.narrow 0x07000000) = true ∧
      (sent State.reset [.narrow 0x07000000]).map State.sentBytes =
        some [0, 0, 0, 7, 0x03, 0x01, 0x00, 0xB1, 0, 0, 0, 0] := by decide

theorem witness_FeedForwardStatesLeaveAfterTwoSteps :
    (loaded .directTranspose .binary32 ⟨0, 0, 0, 0, 0, 0, 0⟩ ⟨0x7F800000, 0xFF800000, 0, 0⟩).loaded = true ∧
      Fmt.isFinite .binary32 0x7F800000 = false ∧ Fmt.isFinite .binary32 0xFF800000 = false := by decide

end Sys2Proof.Tests
end

/-! ## The port: what a step does with the words at hand (00_scope.md R14, 30_encoding.md R87) -/

namespace Sys2Proof

/-- The facts of Laws/PerInstr.lean, for every command. -/
theorem encoding_statement (i : Instr) : Laws.Encoding.Statement i := by
  cases i with
  | clr => exact Laws.Encoding.clr
  | setc a0 a1 a2 b1 b2 c0 d0 => exact Laws.Encoding.setc a0 a1 a2 b1 b2 c0 d0
  | xform x => exact Laws.Encoding.xform x
  | stq => exact Laws.Encoding.stq
  | rdc idx => exact Laws.Encoding.rdc idx
  | rds idx => exact Laws.Encoding.rds idx
  | rdstat => exact Laws.Encoding.rdstat
  | glpf1 fs fc => exact Laws.Encoding.glpf1 fs fc
  | ghpf1 fs fc => exact Laws.Encoding.ghpf1 fs fc
  | gapf1 fs fc => exact Laws.Encoding.gapf1 fs fc
  | glpf2 fs fc q => exact Laws.Encoding.glpf2 fs fc q
  | ghpf2 fs fc q => exact Laws.Encoding.ghpf2 fs fc q
  | gapf2 fs fc q => exact Laws.Encoding.gapf2 fs fc q

theorem Instr.wellFormed_iff (T : Fmt) (i : Instr) :
    i.wellFormed T = true ↔ i.idxLegal = true ∧ ∀ w ∈ i.beats, T.fits w = true := by
  simp [Instr.wellFormed]

@[simp] theorem length_encode (T : Fmt) (i : Instr) : (encode T i).length = 1 + i.beats.length := by
  simp [encode, Nat.add_comm]

/-- A command's transaction decodes to the command, whatever stands behind it (30_encoding.md R87). -/
theorem decode_encode (T : Fmt) (d : Nat) {i : Instr} (rest : List PortEvent) (h : i.wellFormed T = true) :
    decode T d (encode T i ++ rest) = .run i rest := by
  obtain ⟨hidx, hfits⟩ := (i.wellFormed_iff T).1 h
  obtain ⟨hnin, hbuild, hcheck⟩ := encoding_statement i
  simp [encode, decode, decodeFrom, decodeBody, PortEvent.asHeader, hnin, takeBeats_beats T _ rest _ hfits, hcheck hidx,
    hbuild]

/-- The header word of XFORM (30_encoding.md R95). -/
theorem encodeHeader_xform (x : Word) : encodeHeader (.xform x) = 0x03000000 := by
  show (0x03 : BitVec 8) ++ (0 : BitVec 4) ++ (0 : BitVec 20) = 0x03000000
  decide

/-- A word of the block's width is the beat it is read as. -/
theorem beatEvent_asBeat (T : Fmt) (d : Nat) {e : PortEvent} (h : Machine.beatSized T e = true) :
    beatEvent T (e.asBeat T d) = e := by
  cases T <;> cases e <;> simp_all [Machine.beatSized, beatEvent, PortEvent.asBeat]

/-- Words of the block's width are operand beats (20_memory.md R63, R67). -/
theorem exists_beats_of_beatSized (T : Fmt) {es : List PortEvent} (h : ∀ e ∈ es, Machine.beatSized T e = true) :
    ∃ beats : List Word, es = beats.map (beatEvent T) ∧ ∀ w ∈ beats, T.fits w = true := by
  refine ⟨es.map (PortEvent.asBeat T 0), ?_, ?_⟩
  · rw [List.map_map]
    exact ((List.map_congr_left (fun e he => beatEvent_asBeat T 0 (h e he))).trans (List.map_id _)).symm
  · simp [fits_asBeat]

/-- The checks of 30_encoding.md R87 as one condition on the header's fields. -/
theorem headerError_eq_none_iff (hdr : Header) :
    headerError hdr = none ↔
      rsvField hdr = 0 ∧ ((opcField hdr).toNat = 5 ∨ (opcField hdr).toNat = 6 ∨ idxField hdr = 0) ∧
        ((opcField hdr).toNat = 5 → (idxField hdr).toNat ≤ 6) ∧ ((opcField hdr).toNat = 6 → (idxField hdr).toNat ≤ 3) := by
  have hzero : (idxField hdr).toNat = 0 ↔ idxField hdr = 0 := by simp [← BitVec.toNat_inj]
  unfold headerError
  grind

/-- A header that passes the checks is the header of the command with its opcode and index, and that index is legal. -/
theorem encodeHeader_eq_of_headerError {hdr : Header} {i : Instr} (herr : headerError hdr = none)
    (hopc : i.opcode = opcField hdr)
    (hidx : i.index = if (opcField hdr).toNat = 5 ∨ (opcField hdr).toNat = 6 then idxField hdr else 0) :
    encodeHeader i = hdr ∧ i.idxLegal = true := by
  obtain ⟨hrsv, hzero, hrdc, hrds⟩ := (headerError_eq_none_iff hdr).1 herr
  have hindex : i.index = idxField hdr := by
    rw [hidx]
    split
    · rfl
    · next h => exact ((hzero.resolve_left (h ∘ .inl)).resolve_left (h ∘ .inr)).symm
  constructor
  · conv_rhs => rw [← header_eq_fields hdr, ← hopc, ← hindex, hrsv]
    rfl
  · rw [← hopc, ← hindex] at hrdc hrds
    cases i with
    | rdc idx => simpa [Instr.idxLegal, Instr.opcode, Instr.index] using hrdc
    | rds idx => simpa [Instr.idxLegal, Instr.opcode, Instr.index] using hrds
    | _ => rfl

/-- A header that passes the checks and the beats its opcode needs are the transaction of a well-formed command. -/
theorem exists_encode_eq {T : Fmt} {hdr : Header} {es : List PortEvent} (hnin : nin (opcField hdr) = some es.length)
    (hsized : ∀ e ∈ es, Machine.beatSized T e = true) (herr : headerError hdr = none) :
    ∃ i : Instr, i.wellFormed T = true ∧ encode T i = .narrow hdr :: es ∧ i.beats.length = es.length := by
  obtain ⟨beats, rfl, hfits⟩ := exists_beats_of_beatSized T hsized
  rw [List.length_map] at hnin ⊢
  obtain ⟨i, _, hopc, rfl, hidx⟩ := build_of_nin (idxField hdr) hnin
  obtain ⟨hhdr, hlegal⟩ := encodeHeader_eq_of_headerError herr hopc hidx
  exact ⟨i, (i.wellFormed_iff T).2 ⟨hlegal, hfits⟩, by rw [encode, hhdr], rfl⟩

end Sys2Proof

namespace Sys2Proof.Machine

/-- Settles O7: the transaction decodes to its command, and as many events are taken as it has words. -/
theorem aStepRunsTheDecodedCommand : Obligations.AStepRunsTheDecodedCommand := by
  intro s i rest hwf hrx
  have hdec : decode s.fmt s.draw s.rx = .run i rest := by rw [hrx]; exact decode_encode s.fmt s.draw rest hwf
  have hlen : s.rx.length - rest.length = 1 + i.beats.length := by simp [hrx]
  simp only [step, hdec, State.consume, hlen]

/-- Every command answers a next state and takes nothing from the port (30_encoding.md R84). -/
theorem exec_answers (i : Instr) (s : State) : ∃ t, exec i s = .next t ∧ t.rx = s.rx := by
  rcases exec_cases i s with ⟨_, e⟩ | ⟨_, _, _, e⟩ | ⟨_, e⟩ | ⟨_, _, _, e⟩ | ⟨_, _, e⟩ | ⟨_, _, _, _, _, e⟩ |
    ⟨_, _, _, _, e⟩ | ⟨_, e⟩ <;> exact ⟨_, e, rfl⟩

/-- A legal header with too few words behind it: the block waits for the missing beats. -/
theorem step_of_short {s : State} {hdr : Header} {words : List PortEvent} {n : Nat} (hrx : s.rx = .narrow hdr :: words)
    (hnin : nin (opcField hdr) = some n) (hw : ∀ e ∈ words, e ≠ .reset) (hlt : words.length < n) :
    step s = .fault (.awaitingBeats (n - words.length)) := by
  have hdec : decode s.fmt s.draw s.rx = .awaitBeats (n - words.length) := by
    simp [hrx, decode, decodeFrom, PortEvent.asHeader, hnin, takeBeats_short s.fmt words n _ hw hlt]
  simp only [step, hdec]

/-- A legal header with as many words behind it as it needs: the step takes them all. -/
theorem step_of_enough {s : State} {hdr : Header} {words : List PortEvent} (hrx : s.rx = .narrow hdr :: words)
    (hnin : nin (opcField hdr) = some words.length) (hw : ∀ e ∈ words, e ≠ .reset) :
    ∃ t, step s = .next t ∧ t.rx = [] := by
  obtain ⟨beats, htake, hlen⟩ := takeBeats_words s.fmt words [] (s.draw + 1) hw
  obtain ⟨i, hbuild, -⟩ := build_of_nin (idxField hdr) (hnin.trans (congrArg some hlen.symm))
  have hdec : decode s.fmt s.draw s.rx = decodeBody hdr beats [] := by
    rw [List.append_nil] at htake
    simp [hrx, decode, decodeFrom, PortEvent.asHeader, hnin, htake]
  cases herr : headerError hdr with
  | some cause => exact ⟨(s.consume []).raise (opcField hdr) cause, by simp only [step, hdec, decodeBody, herr], rfl⟩
  | none =>
    simp only [step, hdec, decodeBody, herr, hbuild]
    exact exec_answers i (s.consume [])

theorem ne_reset_of_isWord {e : PortEvent} (h : isWord e = true) : e ≠ .reset := by simpa [isWord] using h

/-- Settles O9: with the missing words the port holds a whole transaction, so the step is that of O7. -/
theorem anIncompleteTransactionWaits : Obligations.AnIncompleteTransactionWaits := by
  refine ⟨?_, ?_, ?_⟩
  · intro s hrx
    simp only [step, hrx, decode]
  · intro s hdr words n hrx hnin hwords hlt
    refine ⟨step_of_short hrx hnin (fun e he => ne_reset_of_isWord (hwords e he)) hlt, fun more hmore hlen => ?_⟩
    have hsent : (s.send more).rx = .narrow hdr :: (words ++ more) := by rw [State.send_rx, hrx]; rfl
    have hnin' : nin (opcField hdr) = some (words ++ more).length := by rw [List.length_append, hlen, hnin]
    have hw : ∀ e ∈ words ++ more, e ≠ .reset := fun e he =>
      ne_reset_of_isWord ((List.mem_append.1 he).elim (hwords e) (hmore e))
    refine ⟨step_of_enough hsent hnin' hw, fun hsized herr => ?_⟩
    obtain ⟨i, hwf, henc, hbeats⟩ := exists_encode_eq hnin' hsized herr
    refine ⟨i, hwf, henc, ?_⟩
    rw [aStepRunsTheDecodedCommand (s.send more) i [] hwf (by rw [hsent, State.send_fmt, henc, List.append_nil]), hbeats,
      List.length_append, hlen]
    rfl
  · intro s w rest hfmt hrx
    refine aStepRunsTheDecodedCommand s (.xform (w.setWidth 64)) rest ?_ ?_
    · have hfits : Fmt.fits .binary32 (w.setWidth 64) = true := fits_asBeat .binary32 0 (.narrow w)
      simp [hfmt, Instr.wellFormed_iff, Instr.idxLegal, Instr.beats, hfits]
    · have hbeat : beatEvent .binary32 (w.setWidth 64) = .narrow w := beatEvent_asBeat .binary32 0 (e := .narrow w) rfl
      have hhdr : encodeHeader (.xform (w.setWidth 64)) = 0x03000000 := encodeHeader_xform _
      simp [hrx, hfmt, encode, Instr.beats, hbeat, hhdr]

end Sys2Proof.Machine

namespace Sys2Proof

/-! ## Magnitudes as numbers of units (00_scope.md R16) -/

/-- A magnitude with exponent step `e` and significand `t` stands for `t * 2^e` units. The significand `2^(fracBits + 1)`,
the first of the next exponent, is included. -/
theorem Fmt.magUnits_step_add (T : Fmt) {e t : Nat} (ht : t ≤ 2 ^ (T.fracBits + 1)) (he : e = 0 ∨ 2 ^ T.fracBits ≤ t) :
    T.magUnits (e * 2 ^ T.fracBits + t) = t * 2 ^ e := by
  have hp := T.fracPow_pos
  rw [pow_succ] at ht
  unfold Fmt.magUnits
  generalize 2 ^ T.fracBits = P at *
  rcases lt_or_ge t P with hlt | hge
  · obtain rfl : e = 0 := he.resolve_right (by omega)
    simp [Nat.div_eq_of_lt hlt]
  · rcases ht.lt_or_eq with hlt | rfl
    · obtain ⟨u, rfl⟩ : ∃ u, t = P + u := ⟨t - P, by omega⟩
      have hdiv : (e * P + (P + u)) / P = e + 1 := by
        rw [← Nat.add_assoc, ← Nat.succ_mul, Nat.mul_comm, Nat.mul_add_div hp, Nat.div_eq_of_lt (by omega)]
      have hmod : (e * P + (P + u)) % P = u := by
        rw [← Nat.add_assoc, ← Nat.succ_mul, Nat.mul_add_mod', Nat.mod_eq_of_lt (by omega)]
      rw [hdiv, hmod, if_neg (by omega), Nat.add_sub_cancel]
    · have hdiv : (e * P + P * 2) / P = e + 2 := by
        rw [Nat.mul_comm P 2, ← Nat.add_mul, Nat.mul_div_cancel _ hp]
      have hmod : (e * P + P * 2) % P = 0 := by simp
      rw [hdiv, hmod, if_neg (by omega), show e + 2 - 1 = e + 1 from rfl]
      ring

/-- Every magnitude has an exponent step and a significand. -/
theorem Fmt.exists_step_add (T : Fmt) (m : Nat) :
    ∃ e t, m = e * 2 ^ T.fracBits + t ∧ t < 2 ^ (T.fracBits + 1) ∧ (e = 0 ∨ 2 ^ T.fracBits ≤ t) := by
  have hdiv := Nat.div_add_mod' m (2 ^ T.fracBits)
  have hmod := Nat.mod_lt m T.fracPow_pos
  rw [pow_succ]
  cases h : m / 2 ^ T.fracBits with
  | zero => exact ⟨0, m, by omega, by rw [h] at hdiv; omega, .inl rfl⟩
  | succ e =>
    rw [h, Nat.succ_mul] at hdiv
    exact ⟨e, 2 ^ T.fracBits + m % 2 ^ T.fracBits, by omega, by omega, .inr (by omega)⟩

/-- Of two magnitude patterns the greater stands for the greater value. -/
theorem Fmt.magUnits_strictMono (T : Fmt) : StrictMono T.magUnits := by
  refine strictMono_nat_of_lt_succ fun m => ?_
  obtain ⟨e, t, rfl, ht, he⟩ := T.exists_step_add m
  rw [Nat.add_assoc, T.magUnits_step_add ht.le he, T.magUnits_step_add ht (he.imp_right (Nat.le_succ_of_le))]
  gcongr
  omega

@[simp] theorem Fmt.magUnits_zero (T : Fmt) : T.magUnits 0 = 0 := by simp [Fmt.magUnits]

@[simp] theorem Fmt.magUnits_eq_zero_iff (T : Fmt) {m : Nat} : T.magUnits m = 0 ↔ m = 0 :=
  ⟨fun h => T.magUnits_strictMono.injective (h.trans T.magUnits_zero.symm), fun h => by simp [h]⟩

/-- The whole part of a value, with the bits that do not fit cut off, is a significand. -/
theorem Fmt.significand_bounds (T : Fmt) (q : Nat) :
    q / 2 ^ (Nat.log2 q - T.fracBits) < 2 ^ (T.fracBits + 1) ∧
      (Nat.log2 q - T.fracBits = 0 ∨ 2 ^ T.fracBits ≤ q / 2 ^ (Nat.log2 q - T.fracBits)) := by
  constructor
  · refine Nat.div_lt_of_lt_mul (Nat.lt_log2_self.trans_le ?_)
    rw [← pow_add]
    exact Nat.pow_le_pow_right (by omega) (by omega)
  · rcases Nat.eq_zero_or_pos (Nat.log2 q - T.fracBits) with h | h
    · exact .inl h
    · have hq : q ≠ 0 := by rintro rfl; simp at h
      refine .inr ((Nat.le_div_iff_mul_le (Nat.two_pow_pos _)).2 ?_)
      rw [← pow_add, Nat.add_sub_cancel' (by omega)]
      exact Nat.log2_self_le hq

/-- A number of units with at most `fracBits + 1` significant bits is a magnitude of the format, infinity and beyond
included. -/
theorem Fmt.exists_magUnits_eq (T : Fmt) {t : Nat} (j : Nat) (ht : t < 2 ^ (T.fracBits + 1)) :
    ∃ m, T.magUnits m = t * 2 ^ j := by
  obtain ⟨hlt, hge⟩ := T.significand_bounds (t * 2 ^ j)
  set e := Nat.log2 (t * 2 ^ j) - T.fracBits with he
  have hej : e ≤ j := by
    rcases Nat.eq_zero_or_pos t with rfl | h0
    · simp [he]
    · have hlog : Nat.log2 (t * 2 ^ j) < T.fracBits + 1 + j := by
        rw [Nat.log2_lt (by positivity), pow_add]
        gcongr
      omega
  refine ⟨e * 2 ^ T.fracBits + t * 2 ^ j / 2 ^ e, ?_⟩
  rw [T.magUnits_step_add hlt.le hge, Nat.div_mul_cancel]
  exact (pow_dvd_pow 2 hej).mul_left t

/-! ## Rounding to nearest, ties to even (00_scope.md R17) -/

/-- The magnitude pattern that `roundMag` computes before it is cut to infinity. -/
def Fmt.nearestMag (T : Fmt) (num den : Nat) : Nat :=
  let e := Nat.log2 (num / den) - T.fracBits
  let d := den * 2 ^ e
  let m := num / d
  let r := num % d
  e * 2 ^ T.fracBits + if d < 2 * r ∨ (2 * r = d ∧ m % 2 = 1) then m + 1 else m

theorem Fmt.roundMag_eq_min (T : Fmt) (num den : Nat) : T.roundMag num den = min (T.nearestMag num den) T.infMag := rfl

theorem Fmt.roundMag_of_lt (T : Fmt) {num den : Nat} (h : T.roundMag num den < T.infMag) :
    T.roundMag num den = T.nearestMag num den := by
  rw [T.roundMag_eq_min] at h ⊢
  omega

/-- `p` is the pattern that roundTiesToEven gives for `num / den` units: the ratio is not past the midpoint between `p`
and any other pattern, and on such a midpoint only when `p` is even. -/
structure Fmt.RoundsTo (T : Fmt) (num den p : Nat) : Prop where
  below : ∀ m < p, (T.magUnits m + T.magUnits p) * den ≤ 2 * num ∧
    ((T.magUnits m + T.magUnits p) * den = 2 * num → p % 2 = 0)
  above : ∀ m > p, 2 * num ≤ (T.magUnits p + T.magUnits m) * den ∧
    (2 * num = (T.magUnits p + T.magUnits m) * den → p % 2 = 0)

theorem Fmt.roundsTo_nearestMag (T : Fmt) (num : Nat) {den : Nat} (hden : 0 < den) :
    T.RoundsTo num den (T.nearestMag num den) := by
  obtain ⟨hlt, hge⟩ := T.significand_bounds (num / den)
  unfold Fmt.nearestMag
  rw [Nat.div_div_eq_div_mul] at hlt hge
  dsimp only
  generalize Nat.log2 (num / den) - T.fracBits = e at *
  have hr := Nat.mod_lt num (show 0 < den * 2 ^ e by positivity)
  have hnum := Nat.div_add_mod' num (den * 2 ^ e)
  generalize num / (den * 2 ^ e) = t at *
  generalize num % (den * 2 ^ e) = r at *
  generalize hp : e * 2 ^ T.fracBits + t = p
  have hlow : T.magUnits p * den = t * (den * 2 ^ e) := by rw [← hp, T.magUnits_step_add hlt.le hge]; ring
  have hhigh : T.magUnits (p + 1) * den = t * (den * 2 ^ e) + den * 2 ^ e := by
    rw [← hp, Nat.add_assoc, T.magUnits_step_add hlt (hge.imp_right Nat.le_succ_of_le), Nat.succ_eq_add_one]; ring
  have hparity : p % 2 = t % 2 := by
    have heven : 2 ^ T.fracBits % 2 = 0 := by cases T <;> decide
    simp [← hp, Nat.add_mod, Nat.mul_mod, heven]
  have hmono : ∀ {m n : Nat}, m < n → T.magUnits m * den < T.magUnits n * den := fun h =>
    Nat.mul_lt_mul_of_pos_right (T.magUnits_strictMono h) hden
  have hmono' : ∀ {m n : Nat}, m ≤ n → T.magUnits m * den ≤ T.magUnits n * den := fun h =>
    Nat.mul_le_mul_right den (T.magUnits_strictMono.monotone h)
  split
  · next hup =>
    rw [← Nat.add_assoc, hp]
    refine ⟨fun m hm => ?_, fun m hm => ?_⟩
    · have := hmono' (Nat.le_of_lt_succ hm)
      rw [Nat.add_mul, hhigh]
      omega
    · have := hmono hm
      rw [Nat.add_mul, hhigh]
      omega
  · next hdown =>
    rw [hp]
    refine ⟨fun m hm => ?_, fun m hm => ?_⟩
    · have := hmono hm
      rw [Nat.add_mul, hlow]
      omega
    · have := hmono' (show p + 1 ≤ m from hm)
      rw [Nat.add_mul, hlow]
      omega

/-- On `y`'s side of the midpoint between `x` and `y`, `y` is nearer than `x`, and as near only on the midpoint. -/
theorem abs_sub_le_of_midpoint {x y n : Int} (h : (x < y ∧ x + y ≤ 2 * n) ∨ (y < x ∧ 2 * n ≤ x + y)) :
    |y - n| ≤ |x - n| ∧ (|y - n| = |x - n| → x + y = 2 * n) := by
  rcases abs_cases (x - n) with hx | hx <;> rcases abs_cases (y - n) with hy | hy <;> omega

/-- What rounds to nearest is nearest: no magnitude is nearer, and one that is as near leaves an even pattern. -/
theorem Fmt.RoundsTo.nearest {T : Fmt} {num den p : Nat} (h : T.RoundsTo num den p) (hden : 0 < den) (m : Nat) :
    |(T.magUnits p * den : Int) - num| ≤ |(T.magUnits m * den : Int) - num| ∧
      (|(T.magUnits p * den : Int) - num| = |(T.magUnits m * den : Int) - num| → m ≠ p → p % 2 = 0) := by
  have hmono : ∀ {m n : Nat}, m < n → T.magUnits m * den < T.magUnits n * den := fun h =>
    Nat.mul_lt_mul_of_pos_right (T.magUnits_strictMono h) hden
  simp only [← Nat.cast_mul]
  rcases lt_trichotomy m p with hm | rfl | hm
  · obtain ⟨hmid, htie⟩ := h.below m hm
    rw [Nat.add_mul] at hmid htie
    have := hmono hm
    obtain ⟨hle, heq⟩ := abs_sub_le_of_midpoint (x := ↑(T.magUnits m * den)) (y := ↑(T.magUnits p * den)) (n := num)
      (.inl (by omega))
    exact ⟨hle, fun h _ => htie (by have := heq h; omega)⟩
  · simp
  · obtain ⟨hmid, htie⟩ := h.above m hm
    rw [Nat.add_mul] at hmid htie
    have := hmono hm
    obtain ⟨hle, heq⟩ := abs_sub_le_of_midpoint (x := ↑(T.magUnits m * den)) (y := ↑(T.magUnits p * den)) (n := num)
      (.inr (by omega))
    exact ⟨hle, fun h _ => htie (by have := heq h; omega)⟩

/-- Rounding to nearest reaches infinity exactly from the halfway point above the largest finite value on: infinity's
pattern is even, the largest finite one's is odd. -/
theorem Fmt.RoundsTo.infMag_le_iff {T : Fmt} {num den p : Nat} (h : T.RoundsTo num den p) (hden : 0 < den) :
    T.infMag ≤ p ↔ (T.magUnits (T.infMag - 1) + T.magUnits T.infMag) * den ≤ 2 * num := by
  have hpos := T.infMag_pos
  have hodd : (T.infMag - 1) % 2 = 1 := by cases T <;> decide
  constructor
  · intro hp
    refine le_trans ?_ (h.below (T.infMag - 1) (by omega)).1
    gcongr
    exact T.magUnits_strictMono.monotone hp
  · intro hmid
    by_contra! hp
    obtain ⟨hle, htie⟩ := h.above T.infMag hp
    have hmono : T.magUnits p ≤ T.magUnits (T.infMag - 1) := T.magUnits_strictMono.monotone (by omega)
    have heq : T.magUnits p = T.magUnits (T.infMag - 1) := by
      have := Nat.le_of_mul_le_mul_right (hmid.trans hle) hden
      omega
    have hpeq := T.magUnits_strictMono.injective heq
    have := htie (le_antisymm hle (by rwa [heq]))
    omega

theorem Fmt.roundMag_eq_infMag_iff (T : Fmt) (num : Nat) {den : Nat} (hden : 0 < den) :
    T.roundMag num den = T.infMag ↔ (T.magUnits (T.infMag - 1) + T.magUnits T.infMag) * den ≤ 2 * num := by
  rw [← (T.roundsTo_nearestMag num hden).infMag_le_iff hden, T.roundMag_eq_min, min_eq_right_iff]

/-- Settles O40: the pattern that `roundMag` cuts to infinity rounds to nearest, ties to even. -/
theorem roundingIsToNearestTiesToEven : Obligations.RoundingIsToNearestTiesToEven := by
  intro T num den hden
  refine ⟨fun hlt m _ => ?_, T.roundMag_eq_infMag_iff num hden, T.roundMag_le num den⟩
  rw [T.roundMag_of_lt hlt]
  exact (T.roundsTo_nearestMag num hden).nearest hden m

/-! ## The classes of a pattern and its value (00_scope.md R16) -/

theorem Fmt.unpack_eq_inf_iff (T : Fmt) (w : Word) (s : Bool) :
    T.unpack w = .inf s ↔ T.isInf w = true ∧ T.sign w = s := by
  unfold Fmt.unpack Fmt.isInf
  split
  · simp; omega
  · split <;> simp_all

theorem Fmt.unpack_eq_zero_iff (T : Fmt) (w : Word) (s : Bool) :
    T.unpack w = .fin s 0 ↔ T.mag w = 0 ∧ T.sign w = s := by
  have hpos := T.infMag_pos
  unfold Fmt.unpack
  split
  · simp; omega
  · split
    · simp; omega
    · simp [and_comm]

theorem Fmt.unpack_of_isFinite {T : Fmt} {w : Word} (h : T.isFinite w = true) :
    T.unpack w = .fin (T.sign w) (T.magUnits (T.mag w)) := (T.isFinite_iff_unpack w).1 h

theorem Fmt.unpack_of_isInf {T : Fmt} {w : Word} (h : T.isInf w = true) : T.unpack w = .inf (T.sign w) :=
  (T.unpack_eq_inf_iff w _).2 ⟨h, rfl⟩

/-- A beat is its sign and its magnitude. -/
theorem Fmt.pack_sign_mag (T : Fmt) {w : Word} (h : T.fits w = true) : T.pack (T.sign w) (T.mag w) = w := by
  apply BitVec.eq_of_toNat_eq
  rw [T.toNat_pack _ (T.mag_lt w)]
  rw [T.fits_iff, ← T.two_mul_signPow] at h
  have hdiv := Nat.div_add_mod' w.toNat (2 ^ (T.width - 1))
  have hsign : T.sign w = decide (w.toNat / 2 ^ (T.width - 1) % 2 = 1) := by
    rw [Fmt.sign, ← BitVec.testBit_toNat, Nat.testBit_eq_decide_div_mod_eq]
  have hlt : w.toNat / 2 ^ (T.width - 1) < 2 := Nat.div_lt_of_lt_mul (by omega)
  rw [hsign, Fmt.mag]
  generalize 2 ^ (T.width - 1) = P at *
  rcases Nat.lt_succ_iff_lt_or_eq.1 hlt with h0 | h1
  · rw [Nat.lt_one_iff.1 h0] at hdiv ⊢
    simpa using hdiv
  · rw [h1] at hdiv ⊢
    simpa using hdiv

theorem natAbs_signedUnits (s : Bool) (n : Nat) : (signedUnits s n).natAbs = n := by cases s <;> simp [signedUnits]

theorem signedUnits_eq_zero_iff (s : Bool) (n : Nat) : signedUnits s n = 0 ↔ n = 0 := by
  rw [← Int.natAbs_eq_zero, natAbs_signedUnits]

theorem signedUnits_not (s : Bool) (n : Nat) : signedUnits (!s) n = -signedUnits s n := by cases s <;> simp [signedUnits]

theorem signedUnits_mul (s t : Bool) (m n : Nat) :
    signedUnits s m * signedUnits t n = signedUnits (s != t) (m * n) := by
  cases s <;> cases t <;> simp [signedUnits]

/-- A number of units is its sign and its size. -/
theorem signedUnits_natAbs (z : Int) : signedUnits (decide (z < 0)) z.natAbs = z := by
  rcases lt_or_ge z 0 with h | h
  · simp [signedUnits, h, abs_of_neg h]
  · simp [signedUnits, h.not_gt, abs_of_nonneg h]

/-- The distance between two values of one sign is that of their sizes. -/
theorem abs_signedUnits_sub_same (s : Bool) (a d n : Nat) :
    |signedUnits s a * d - signedUnits s n| = |(a * d : Int) - n| := by
  cases s
  · simp [signedUnits]
  · rw [← abs_neg]
    congr 1
    simp only [signedUnits, if_true]
    ring

/-- The distance between two values of opposite signs is the sum of their sizes. -/
theorem abs_signedUnits_sub_opposite {s t : Bool} (h : t ≠ s) (a d n : Nat) :
    |signedUnits t a * d - signedUnits s n| = (a * d : Int) + n := by
  have hsum : signedUnits t a * d - signedUnits s n = signedUnits t (a * d + n) := by
    cases s <;> cases t <;> simp_all [signedUnits]
    ring
  rw [hsum, Int.abs_eq_natAbs, natAbs_signedUnits]
  push_cast
  rfl

theorem Fmt.exact_of_isFinite {T : Fmt} {w : Word} (h : T.isFinite w = true) :
    T.exact w = signedUnits (T.sign w) (T.magUnits (T.mag w)) := by
  rw [Fmt.exact, Fmt.unpack_of_isFinite h]

theorem Fmt.exact_pack (T : Fmt) (s : Bool) {m : Nat} (h : m < T.infMag) :
    T.exact (T.pack s m) = signedUnits s (T.magUnits m) := by
  rw [Fmt.exact, T.unpack_pack s h]

/-! ## A ratio of units, rounded once -/

/-- `r` is the exact ratio `num / den` units rounded to the format, with sign `s`. -/
structure Fmt.IsRounding (T : Fmt) (r : Word) (s : Bool) (num : Int) (den : Nat) : Prop where
  sign_eq : T.sign r = s
  eq_infinity : T.Overflows num den → r = T.infinity s
  isFinite : ¬ T.Overflows num den → T.isFinite r = true
  isNearest : T.isFinite r = true → T.IsNearest r num den

theorem Fmt.overflows_signedUnits_iff (T : Fmt) (s : Bool) (n : Nat) {den : Nat} (hden : 0 < den) :
    T.Overflows (signedUnits s n) den ↔ T.roundMag n den = T.infMag := by
  rw [Fmt.Overflows, natAbs_signedUnits, T.roundMag_eq_infMag_iff n hden]

/-- A pattern with the rounded magnitude is the nearest also among the patterns of the other sign: they lie beyond zero. -/
theorem Fmt.isNearest_pack_roundMag (T : Fmt) (s : Bool) (n : Nat) {den : Nat} (hden : 0 < den)
    (hfin : T.roundMag n den < T.infMag) : T.IsNearest (T.pack s (T.roundMag n den)) (signedUnits s n) den := by
  have hnear := (T.roundsTo_nearestMag n hden).nearest hden
  rw [← T.roundMag_of_lt hfin] at hnear
  generalize T.roundMag n den = p at *
  intro w _ hw
  rw [T.exact_pack s hfin, Fmt.exact_of_isFinite hw, T.mag_pack s (hfin.trans T.infMag_lt),
    abs_signedUnits_sub_same]
  by_cases hsign : T.sign w = s
  · rw [hsign, abs_signedUnits_sub_same]
    obtain ⟨hle, htie⟩ := hnear (T.mag w)
    exact ⟨hle, fun heq hne => htie heq fun hm => hne (by rw [hm])⟩
  · rw [abs_signedUnits_sub_opposite hsign]
    obtain ⟨hle, htie⟩ := hnear 0
    have hzero : |(T.magUnits 0 * den : Int) - n| = n := by simp
    have hnonneg : (0 : Int) ≤ T.magUnits (T.mag w) * den := by positivity
    rw [hzero] at hle htie
    refine ⟨by omega, fun heq _ => ?_⟩
    rcases Nat.eq_zero_or_pos p with rfl | hp
    · rfl
    · exact htie (by omega) hp.ne

theorem Fmt.isRounding_pack_roundMag (T : Fmt) (s : Bool) (n : Nat) {den : Nat} (hden : 0 < den) :
    T.IsRounding (T.pack s (T.roundMag n den)) s (signedUnits s n) den := by
  have hover := T.overflows_signedUnits_iff s n hden
  have hle := T.roundMag_le n den
  have hfin := T.isFinite_pack s (T.roundMag_lt n den)
  refine ⟨T.sign_pack s (T.roundMag_lt n den), fun h => ?_, fun h => ?_, fun h => ?_⟩
  · rw [hover.1 h, Fmt.infinity]
  · rw [hover] at h
    rw [hfin, decide_eq_true_eq]
    omega
  · rw [hfin, decide_eq_true_eq] at h
    exact T.isNearest_pack_roundMag s n hden h

/-! ## The four operations on finite operands (00_scope.md R17) -/

theorem Fmt.roundMag_zero (T : Fmt) {den : Nat} (hden : 0 < den) : T.roundMag 0 den = 0 := by
  simpa using T.roundMag_magUnits hden (Nat.zero_le T.infMag)

theorem Fmt.roundSum_of_eq_zero (T : Fmt) {s t : Bool} {a b : Nat} (h : signedUnits s a + signedUnits t b = 0) :
    T.roundSum s a t b = T.pack (s && t) 0 := by simp [Fmt.roundSum, h]

theorem Fmt.roundSum_of_ne_zero (T : Fmt) {s t : Bool} {a b : Nat} (h : signedUnits s a + signedUnits t b ≠ 0) :
    T.roundSum s a t b = T.pack (decide (signedUnits s a + signedUnits t b < 0))
      (T.roundMag (signedUnits s a + signedUnits t b).natAbs 1) := by simp [Fmt.roundSum, h]

theorem Fmt.isRounding_roundSum (T : Fmt) (s t : Bool) (a b : Nat) {z : Int}
    (hz : signedUnits s a + signedUnits t b = z) :
    T.IsRounding (T.roundSum s a t b) (if z = 0 then s && t else decide (z < 0)) z 1 := by
  subst hz
  split
  · next h =>
    have hround := T.isRounding_pack_roundMag (s && t) 0 one_pos
    rwa [T.roundMag_zero one_pos, (signedUnits_eq_zero_iff _ 0).2 rfl, ← T.roundSum_of_eq_zero h, ← h] at hround
  · next h =>
    have hround := T.isRounding_pack_roundMag (decide (signedUnits s a + signedUnits t b < 0))
      (signedUnits s a + signedUnits t b).natAbs one_pos
    rwa [signedUnits_natAbs, ← T.roundSum_of_ne_zero h] at hround

theorem sign_signedUnits (s : Bool) {n : Nat} (h : n ≠ 0) : (signedUnits s n).sign = signedUnits s 1 := by
  cases s <;> simp [signedUnits, Nat.pos_of_ne_zero h]

theorem signedUnits_mul_two_pow (s : Bool) (n k : Nat) : signedUnits s n * 2 ^ k = signedUnits s (n * 2 ^ k) := by
  cases s <;> simp [signedUnits]

section
variable {T : Fmt} {a b : Word} (k : Nat) (ha : T.isFinite a = true) (hb : T.isFinite b = true)
include ha hb

theorem Fmt.fadd_of_isFinite :
    T.fadd k a b = T.roundSum (T.sign a) (T.magUnits (T.mag a)) (T.sign b) (T.magUnits (T.mag b)) := by
  rw [Fmt.fadd, Fmt.unpack_of_isFinite ha, Fmt.unpack_of_isFinite hb, Fmt.addVal]

theorem Fmt.fsub_of_isFinite :
    T.fsub k a b = T.roundSum (T.sign a) (T.magUnits (T.mag a)) (!T.sign b) (T.magUnits (T.mag b)) := by
  rw [Fmt.fsub, Fmt.unpack_of_isFinite ha, Fmt.unpack_of_isFinite hb, Val.neg, Fmt.addVal]

theorem Fmt.fadd_isRounding :
    T.IsRounding (T.fadd k a b)
      (if T.exact a + T.exact b = 0 then T.sign a && T.sign b else decide (T.exact a + T.exact b < 0))
      (T.exact a + T.exact b) 1 := by
  rw [Fmt.fadd_of_isFinite k ha hb]
  exact T.isRounding_roundSum _ _ _ _ (by rw [Fmt.exact_of_isFinite ha, Fmt.exact_of_isFinite hb])

theorem Fmt.fsub_isRounding :
    T.IsRounding (T.fsub k a b)
      (if T.exact a - T.exact b = 0 then T.sign a && !T.sign b else decide (T.exact a - T.exact b < 0))
      (T.exact a - T.exact b) 1 := by
  rw [Fmt.fsub_of_isFinite k ha hb]
  exact T.isRounding_roundSum _ _ _ _
    (by rw [Fmt.exact_of_isFinite ha, Fmt.exact_of_isFinite hb, signedUnits_not, sub_eq_add_neg])

theorem Fmt.fmul_isRounding :
    T.IsRounding (T.fmul k a b) (T.sign a != T.sign b) (T.exact a * T.exact b) (2 ^ T.unitBits) := by
  rw [Fmt.fmul, Fmt.unpack_of_isFinite ha, Fmt.unpack_of_isFinite hb, Fmt.mulVal, Fmt.exact_of_isFinite ha,
    Fmt.exact_of_isFinite hb, signedUnits_mul]
  exact T.isRounding_pack_roundMag _ _ (Nat.two_pow_pos _)

/-- A quotient is taken of sizes: the divisor's sign goes to the dividend. -/
theorem Fmt.fdiv_isRounding (h0 : T.exact b ≠ 0) :
    T.IsRounding (T.fdiv k a b) (T.sign a != T.sign b) (T.exact a * 2 ^ T.unitBits * (T.exact b).sign)
      (T.exact b).natAbs := by
  rw [Fmt.exact_of_isFinite hb] at h0 ⊢
  have hmag : T.magUnits (T.mag b) ≠ 0 := fun h => h0 ((signedUnits_eq_zero_iff _ _).2 h)
  have hnum : T.exact a * 2 ^ T.unitBits * (signedUnits (T.sign b) (T.magUnits (T.mag b))).sign =
      signedUnits (T.sign a != T.sign b) (T.magUnits (T.mag a) * 2 ^ T.unitBits) := by
    rw [sign_signedUnits _ hmag, Fmt.exact_of_isFinite ha, mul_right_comm, signedUnits_mul, Nat.mul_one,
      signedUnits_mul_two_pow]
  rw [hnum, natAbs_signedUnits, Fmt.fdiv, Fmt.unpack_of_isFinite ha, Fmt.unpack_of_isFinite hb, Fmt.divVal, if_neg hmag]
  exact T.isRounding_pack_roundMag _ _ (Nat.pos_of_ne_zero hmag)

end

theorem Fmt.overflows_mul_sign_iff (T : Fmt) (num : Int) (den : Nat) {z : Int} (hz : z ≠ 0) :
    T.Overflows (num * z.sign) den ↔ T.Overflows num den := by
  rw [Fmt.Overflows, Fmt.Overflows, Int.natAbs_mul, Int.natAbs_sign_of_ne_zero hz, Nat.mul_one]

/-- Settles O41: each operation on finite operands is one rounding of its exact result. -/
theorem arithmeticIsCorrectlyRounded : Obligations.ArithmeticIsCorrectlyRounded := fun _ k _ _ ha hb =>
  ⟨(Fmt.fadd_isRounding k ha hb).isNearest, (Fmt.fsub_isRounding k ha hb).isNearest,
    (Fmt.fmul_isRounding k ha hb).isNearest, fun h0 => (Fmt.fdiv_isRounding k ha hb h0).isNearest⟩

/-- No zero result overflows, so an overflow has the sign of the exact result. -/
theorem Fmt.Overflows.ne_zero {T : Fmt} {num : Int} {den : Nat} (hden : 0 < den) (h : T.Overflows num den) : num ≠ 0 := by
  rintro rfl
  have := T.magUnits_strictMono T.infMag_pos
  have hpos : 0 < (T.magUnits (T.infMag - 1) + T.magUnits T.infMag) * den := by
    apply Nat.mul_pos _ hden; omega
  simp only [Fmt.Overflows, Int.natAbs_zero] at h
  omega

/-- Settles O53: each operation on finite operands is one rounding, whose overflow is the infinity of its sign. -/
theorem overflowGivesTheInfinityOfTheSign : Obligations.OverflowGivesTheInfinityOfTheSign := by
  intro T k a b ha hb
  have hadd := Fmt.fadd_isRounding k ha hb
  have hsub := Fmt.fsub_isRounding k ha hb
  have hmul := Fmt.fmul_isRounding k ha hb
  refine ⟨fun h => ?_, hadd.isFinite, fun h => ?_, hsub.isFinite, hmul.eq_infinity, hmul.isFinite, fun h0 h => ?_,
    fun h0 h => ?_⟩
  · rw [hadd.eq_infinity h, if_neg (h.ne_zero one_pos)]
  · rw [hsub.eq_infinity h, if_neg (h.ne_zero one_pos)]
  · exact (Fmt.fdiv_isRounding k ha hb h0).eq_infinity ((T.overflows_mul_sign_iff _ _ h0).2 h)
  · exact (Fmt.fdiv_isRounding k ha hb h0).isFinite (mt (T.overflows_mul_sign_iff _ _ h0).1 h)

/-- Two negative values add up to zero only when they are zeros, so the magnitude in the sign of a zero sum is redundant. -/
theorem signs_and_of_add_eq_zero {s t : Bool} {m n : Nat} (h : signedUnits s m + signedUnits t n = 0) :
    (s && t) = (decide (m = 0) && s && t) := by
  cases s <;> cases t <;> simp_all [signedUnits]
  omega

/-- Settles O56: the sign of each operation's rounding, and for zero sums that of the addends. -/
theorem signsOfResultsFollowIeee : Obligations.SignsOfResultsFollowIeee := by
  intro T k a b ha hb
  have hadd := Fmt.fadd_isRounding k ha hb
  have hsub := Fmt.fsub_isRounding k ha hb
  refine ⟨fun h => ?_, fun h => ?_, fun h => ?_, fun h => ?_, (Fmt.fmul_isRounding k ha hb).sign_eq,
    fun h0 => (Fmt.fdiv_isRounding k ha hb h0).sign_eq⟩
  · rw [Fmt.exact_of_isFinite ha, Fmt.exact_of_isFinite hb] at h
    rw [Fmt.fadd_of_isFinite k ha hb, T.roundSum_of_eq_zero h, signs_and_of_add_eq_zero h]
    simp only [T.magUnits_eq_zero_iff]
  · rw [hadd.sign_eq, if_neg h]
  · rw [Fmt.exact_of_isFinite ha, Fmt.exact_of_isFinite hb, sub_eq_add_neg, ← signedUnits_not] at h
    rw [Fmt.fsub_of_isFinite k ha hb, T.roundSum_of_eq_zero h, signs_and_of_add_eq_zero h]
    simp only [T.magUnits_eq_zero_iff]
  · rw [hsub.sign_eq, if_neg h]

/-! ## NaNs, infinities and zero divisors (00_scope.md R17, 41_transform.md R146) -/

section
variable {T : Fmt} {n : Word} (hn : T.isNaN n = true)
include hn

theorem Fmt.isNaN_addVal_iff (u v : Val) :
    T.isNaN (T.addVal n u v) = true ↔ u = .nan ∨ v = .nan ∨ ∃ s, u = .inf s ∧ v = .inf (!s) := by
  cases u <;> cases v
  case inf.inf s t => cases s <;> cases t <;> simp [Fmt.addVal, hn, T.isNaN_infinity]
  all_goals simp [Fmt.addVal, hn, T.isNaN_infinity, T.isNaN_roundSum]

theorem Fmt.isNaN_mulVal_iff (u v : Val) :
    T.isNaN (T.mulVal n u v) = true ↔ u = .nan ∨ v = .nan ∨
      (∃ s t, u = .inf s ∧ v = .fin t 0) ∨ ∃ s t, u = .fin s 0 ∧ v = .inf t := by
  cases u <;> cases v
  case inf.fin s t b => by_cases hb : b = 0 <;> simp [Fmt.mulVal, hb, hn, T.isNaN_infinity]
  case fin.inf s a t => by_cases ha : a = 0 <;> simp [Fmt.mulVal, ha, hn, T.isNaN_infinity]
  all_goals simp [Fmt.mulVal, hn, T.isNaN_infinity, T.isNaN_pack_roundMag]

theorem Fmt.isNaN_divVal_iff (u v : Val) :
    T.isNaN (T.divVal n u v) = true ↔ u = .nan ∨ v = .nan ∨
      (∃ s t, u = .inf s ∧ v = .inf t) ∨ ∃ s t, u = .fin s 0 ∧ v = .fin t 0 := by
  cases u <;> cases v
  case fin.fin s a t b =>
    by_cases hb : b = 0 <;> by_cases ha : a = 0 <;>
      simp [Fmt.divVal, ha, hb, hn, T.isNaN_infinity, T.isNaN_pack_roundMag]
  all_goals simp [Fmt.divVal, hn, T.isNaN_infinity, T.isNaN_pack_zero]

end

theorem Fmt.isNaN_nanResult (T : Fmt) (k : Nat) (a b : Word) : T.isNaN (T.nanResult k a b) = true := T.isNaN_nanOf _

theorem Val.neg_eq_nan_iff (v : Val) : v.neg = .nan ↔ v = .nan := by cases v <;> simp [Val.neg]

theorem Val.neg_eq_inf_iff (v : Val) (s : Bool) : v.neg = .inf (!s) ↔ v = .inf s := by cases v <;> simp [Val.neg]

/-- Settles O54: the pairs of values on which an operation answers its NaN, read back as classes of the patterns. -/
theorem nansComeFromInvalidOperationsAlone : Obligations.NansComeFromInvalidOperationsAlone := by
  intro T k a b
  have hn := T.isNaN_nanResult k a b
  refine ⟨?_, ?_, ?_, ?_⟩
  · rw [Fmt.fadd, Fmt.isNaN_addVal_iff hn]
    simp only [T.unpack_eq_nan_iff, T.unpack_eq_inf_iff]
    grind
  · rw [Fmt.fsub, Fmt.isNaN_addVal_iff hn]
    simp only [Val.neg_eq_nan_iff, Val.neg_eq_inf_iff, T.unpack_eq_nan_iff, T.unpack_eq_inf_iff]
    grind
  · rw [Fmt.fmul, Fmt.isNaN_mulVal_iff hn]
    simp only [T.unpack_eq_nan_iff, T.unpack_eq_inf_iff, T.unpack_eq_zero_iff]
    grind
  · rw [Fmt.fdiv, Fmt.isNaN_divVal_iff hn]
    simp only [T.unpack_eq_nan_iff, T.unpack_eq_inf_iff, T.unpack_eq_zero_iff]
    grind

/-- A pattern that is not a NaN is an infinity or finite. -/
theorem Fmt.isInf_or_isFinite {T : Fmt} {w : Word} (h : T.isNaN w = false) : T.isInf w = true ∨ T.isFinite w = true := by
  simp only [Fmt.isNaN, Fmt.isInf, Fmt.isFinite, decide_eq_false_iff_not, decide_eq_true_eq] at *
  omega

/-- Settles O55, clause by clause from the classes of the two operands. -/
theorem infinitiesAndZeroDivisorsFollowIeee : Obligations.InfinitiesAndZeroDivisorsFollowIeee := by
  intro T k a b
  refine ⟨fun ha hb => ?_, fun ha hb => ?_, fun ha hb h0 => ?_, fun ha hb => ?_, fun ha ha0 hb0 => ?_⟩
  · rw [Fmt.fadd, Fmt.fadd, Fmt.unpack_of_isInf ha]
    rcases hb with hb | ⟨hb, hs⟩
    · simp [Fmt.unpack_of_isFinite hb, Fmt.addVal]
    · simp [Fmt.unpack_of_isInf hb, Fmt.addVal, hs]
  · rw [Fmt.fsub, Fmt.fsub, Fmt.unpack_of_isInf ha]
    rcases hb with hb | ⟨hb, hs⟩
    · simp [Fmt.unpack_of_isFinite hb, Fmt.addVal, Val.neg]
    · simp [Fmt.unpack_of_isInf hb, Fmt.addVal, Val.neg, Bool.eq_not.2 hs]
  · rw [Fmt.fmul, Fmt.fmul, Fmt.unpack_of_isInf ha, bne_comm (a := T.sign a)]
    rcases Fmt.isInf_or_isFinite hb with hb | hb
    · simp [Fmt.unpack_of_isInf hb, Fmt.mulVal, bne_comm]
    · simp [Fmt.unpack_of_isFinite hb, Fmt.mulVal, h0, bne_comm]
  · simp [Fmt.fdiv, Fmt.unpack_of_isInf ha, Fmt.unpack_of_isFinite hb, Fmt.divVal, bne_comm]
  · have hb : T.unpack b = .fin (T.sign b) 0 := (T.unpack_eq_zero_iff b _).2 ⟨hb0, rfl⟩
    simp [Fmt.fdiv, Fmt.unpack_of_isFinite ha, hb, Fmt.divVal, ha0]

/-! ## Conversions between the formats (00_scope.md R17) -/

theorem Fmt.fits_binary64 (w : Word) : Fmt.fits .binary64 w = true := (Fmt.fits_iff .binary64 w).2 w.isLt

theorem Fmt.infinity_of_isInf {T : Fmt} {w : Word} (hfits : T.fits w = true) (h : T.isInf w = true) :
    T.infinity (T.sign w) = w := by
  rw [Fmt.infinity, ← of_decide_eq_true h, T.pack_sign_mag hfits]

theorem Fmt.mag_le_of_isFinite {T : Fmt} {w : Word} (h : T.isFinite w = true) : T.mag w ≤ T.infMag :=
  (of_decide_eq_true h).le

/-- `round_T` of a finite value is one rounding, on binary64 too, where it is the identity. -/
theorem Fmt.round64_of_isFinite (T : Fmt) (k : Nat) {w : Word} (h : Fmt.isFinite .binary64 w = true) :
    T.round64 k w = T.pack (Fmt.sign .binary64 w)
      (T.roundMag (Fmt.magUnits .binary64 (Fmt.mag .binary64 w) * 2 ^ T.unitBits) (2 ^ Fmt.unitBits .binary64)) := by
  cases T with
  | binary32 => rw [Fmt.round64, Fmt.unpack_of_isFinite h, Fmt.convert]
  | binary64 =>
    rw [Fmt.roundMag_magUnits .binary64 (Nat.two_pow_pos _) (Fmt.mag_le_of_isFinite h),
      Fmt.pack_sign_mag .binary64 (Fmt.fits_binary64 w), Fmt.round64]

theorem Fmt.round64_of_isInf (T : Fmt) (k : Nat) {w : Word} (h : Fmt.isInf .binary64 w = true) :
    T.round64 k w = T.infinity (Fmt.sign .binary64 w) := by
  cases T with
  | binary32 => rw [Fmt.round64, Fmt.unpack_of_isInf h, Fmt.convert]
  | binary64 => rw [Fmt.infinity_of_isInf (Fmt.fits_binary64 w) h, Fmt.round64]

theorem Fmt.isNaN_round64 (T : Fmt) (k : Nat) {w : Word} (h : Fmt.isNaN .binary64 w = true) :
    T.isNaN (T.round64 k w) = true := by
  cases T with
  | binary32 => rw [Fmt.round64, (Fmt.unpack_eq_nan_iff _ w).2 h, Fmt.convert]; exact Fmt.isNaN_nanResult ..
  | binary64 => exact h

/-- The binary64 magnitude of a finite magnitude of `T`: binary64 has all of `T`'s significant bits and a wider range. -/
theorem Fmt.exists_widened_mag (T : Fmt) {m : Nat} (h : m < T.infMag) :
    ∃ m', m' < Fmt.infMag .binary64 ∧
      Fmt.magUnits .binary64 m' * 2 ^ T.unitBits = T.magUnits m * 2 ^ Fmt.unitBits .binary64 := by
  cases T with
  | binary64 => exact ⟨m, h, rfl⟩
  | binary32 =>
    obtain ⟨e, t, rfl, ht, he⟩ := Fmt.exists_step_add .binary32 m
    obtain ⟨m', hm'⟩ := Fmt.exists_magUnits_eq .binary64 (t := t) (e + 925) (ht.trans (by decide))
    have hunits : Fmt.magUnits .binary64 m' * 2 ^ Fmt.unitBits .binary32 =
        Fmt.magUnits .binary32 (e * 2 ^ Fmt.fracBits .binary32 + t) * 2 ^ Fmt.unitBits .binary64 := by
      rw [hm', Fmt.magUnits_step_add .binary32 ht.le he, show Fmt.unitBits .binary64 = 925 + Fmt.unitBits .binary32 from rfl,
        pow_add, pow_add, Nat.mul_assoc, Nat.mul_assoc, Nat.mul_assoc]
    refine ⟨m', (Fmt.magUnits_strictMono .binary64).lt_iff_lt.1 ?_, hunits⟩
    have hrange : Fmt.magUnits .binary32 (Fmt.infMag .binary32) * 2 ^ Fmt.unitBits .binary64 ≤
        Fmt.magUnits .binary64 (Fmt.infMag .binary64) * 2 ^ Fmt.unitBits .binary32 := by decide +kernel
    refine Nat.lt_of_mul_lt_mul_right (a := 2 ^ Fmt.unitBits .binary32) (lt_of_lt_of_le ?_ hrange)
    rw [hunits]
    exact Nat.mul_lt_mul_of_pos_right (Fmt.magUnits_strictMono .binary32 h) (Nat.two_pow_pos _)

/-- `widen64` of a finite value has its sign and its exact value. -/
theorem Fmt.widen64_of_isFinite (T : Fmt) (k : Nat) {w : Word} (h : T.isFinite w = true) :
    ∃ m, m < Fmt.infMag .binary64 ∧
      Fmt.magUnits .binary64 m * 2 ^ T.unitBits = T.magUnits (T.mag w) * 2 ^ Fmt.unitBits .binary64 ∧
      T.widen64 k w = Fmt.pack .binary64 (T.sign w) m := by
  cases T with
  | binary64 =>
    exact ⟨_, of_decide_eq_true h, rfl, (Fmt.pack_sign_mag .binary64 (Fmt.fits_binary64 w)).symm⟩
  | binary32 =>
    obtain ⟨m, hm, hunits⟩ := Fmt.exists_widened_mag .binary32 (of_decide_eq_true h)
    refine ⟨m, hm, hunits, ?_⟩
    rw [Fmt.widen64, Fmt.unpack_of_isFinite h, Fmt.convert, ← hunits,
      Fmt.roundMag_magUnits .binary64 (Nat.two_pow_pos _) hm.le]

theorem Fmt.widen64_of_isInf (T : Fmt) (k : Nat) {w : Word} (h : T.isInf w = true) :
    T.widen64 k w = Fmt.infinity .binary64 (T.sign w) := by
  cases T with
  | binary32 => rw [Fmt.widen64, Fmt.unpack_of_isInf h, Fmt.convert]
  | binary64 => rw [Fmt.infinity_of_isInf (Fmt.fits_binary64 w) h, Fmt.widen64]

theorem Fmt.isNaN_widen64 (T : Fmt) (k : Nat) {w : Word} (h : T.isNaN w = true) :
    Fmt.isNaN .binary64 (T.widen64 k w) = true := by
  cases T with
  | binary32 => rw [Fmt.widen64, (Fmt.unpack_eq_nan_iff _ w).2 h, Fmt.convert]; exact Fmt.isNaN_nanResult ..
  | binary64 => exact h

theorem Fmt.isInf_infinity (T : Fmt) (s : Bool) : T.isInf (T.infinity s) = true := by
  simp [Fmt.isInf, Fmt.infinity, T.infMag_lt]

theorem Fmt.sign_infinity (T : Fmt) (s : Bool) : T.sign (T.infinity s) = s := T.sign_pack s T.infMag_lt

/-- Settles O57: `round_T` of a finite value is one rounding on either format, and a finite widened value is packed from a
magnitude that binary64 has. -/
theorem conversionsRoundToNearest : Obligations.ConversionsRoundToNearest := by
  intro T k w
  dsimp only
  have hround : Fmt.isFinite .binary64 w = true → T.IsRounding (T.round64 k w) (Fmt.sign .binary64 w)
      (Fmt.exact .binary64 w * 2 ^ T.unitBits) (2 ^ Fmt.unitBits .binary64) := fun h => by
    rw [T.round64_of_isFinite k h, Fmt.exact_of_isFinite h, signedUnits_mul_two_pow]
    exact T.isRounding_pack_roundMag _ _ (Nat.two_pow_pos _)
  refine ⟨fun h hover => ?_, fun h => (hround h).eq_infinity, T.round64_of_isInf k, T.isNaN_round64 k, fun h => ?_,
    fun h => ?_, T.isNaN_widen64 k⟩
  · have hfin := (hround h).isFinite hover
    exact ⟨hfin, (hround h).sign_eq, (hround h).isNearest hfin⟩
  · obtain ⟨m, hm, -, hwiden⟩ := T.widen64_of_isFinite k h
    have hlt := hm.trans (Fmt.infMag_lt .binary64)
    rw [hwiden, Fmt.isFinite_pack _ _ hlt, Fmt.sign_pack _ _ hlt]
    exact ⟨decide_eq_true hm, rfl⟩
  · rw [T.widen64_of_isInf k h]
    exact ⟨Fmt.isInf_infinity .binary64 _, Fmt.sign_infinity .binary64 _⟩

/-- Settles O42: the widened magnitude has the operand's units, and rounding a value that the format has gives it back. -/
theorem wideningIsExactAndRoundsBack : Obligations.WideningIsExactAndRoundsBack := by
  refine ⟨fun T k w h => ?_, fun T k k' w hfits hnan => ?_⟩
  · obtain ⟨m, hm, hunits, hwiden⟩ := T.widen64_of_isFinite k h
    rw [hwiden, Fmt.exact_pack _ _ hm, Fmt.exact_of_isFinite h, signedUnits_mul_two_pow, signedUnits_mul_two_pow, hunits]
  · rcases Fmt.isInf_or_isFinite hnan with h | h
    · rw [T.widen64_of_isInf k h, T.round64_of_isInf k' (Fmt.isInf_infinity _ _), Fmt.sign_infinity,
        Fmt.infinity_of_isInf hfits h]
    · obtain ⟨m, hm, hunits, hwiden⟩ := T.widen64_of_isFinite k h
      have hlt := hm.trans (Fmt.infMag_lt .binary64)
      have hfin : Fmt.isFinite .binary64 (Fmt.pack .binary64 (T.sign w) m) = true := by
        rw [Fmt.isFinite_pack _ _ hlt, decide_eq_true hm]
      rw [hwiden, T.round64_of_isFinite k' hfin, Fmt.sign_pack _ _ hlt, Fmt.mag_pack _ _ hlt, hunits,
        T.roundMag_magUnits (Nat.two_pow_pos _) (Fmt.mag_le_of_isFinite h), T.pack_sign_mag hfits]

/-! ## The snap (00_scope.md R19) -/

theorem Fmt.magUnits_fracPow (T : Fmt) : T.magUnits (2 ^ T.fracBits) = 2 ^ T.fracBits := by
  simpa using T.magUnits_step_add (e := 0) (t := 2 ^ T.fracBits) (Nat.pow_le_pow_right (by omega) (by omega)) (.inl rfl)

theorem Fmt.unpack_zero (T : Fmt) : T.unpack 0 = .fin false 0 := by cases T <;> decide

theorem Fmt.unpack_minNormal (T : Fmt) : T.unpack T.minNormal = .fin false (2 ^ T.fracBits) := by
  rw [Fmt.minNormal, T.unpack_pack false T.fracPow_lt_infMag, T.magUnits_fracPow]

theorem Fmt.unpack_fneg_minNormal (T : Fmt) : T.unpack (T.fneg T.minNormal) = .fin true (2 ^ T.fracBits) := by
  have hpack : T.fneg T.minNormal = T.pack true (2 ^ T.fracBits) := by cases T <;> decide
  rw [hpack, T.unpack_pack true T.fracPow_lt_infMag, T.magUnits_fracPow]

/-- The two comparisons of the snap: between zero and a bound of either sign lie the finite values of a size between. -/
theorem Val.lt_between_iff (v : Val) (bound : Nat) :
    ((Val.lt (.fin false 0) v && v.lt (.fin false bound)) || (v.lt (.fin false 0) && Val.lt (.fin true bound) v)) = true ↔
      ∃ s n, v = .fin s n ∧ 0 < n ∧ n < bound := by
  cases v with
  | nan => simp [Val.lt]
  | inf s => cases s <;> simp [Val.lt]
  | fin s n => cases s <;> simp [Val.lt, signedUnits]

/-- The values between zero and the smallest normal one are those with exponent field 0 and a nonzero fraction. -/
theorem Fmt.unpack_subnormal_iff (T : Fmt) (w : Word) :
    (∃ s n, T.unpack w = .fin s n ∧ 0 < n ∧ n < 2 ^ T.fracBits) ↔ 0 < T.mag w ∧ T.mag w < 2 ^ T.fracBits := by
  have hpos : 0 < T.magUnits (T.mag w) ↔ 0 < T.mag w := by simp [Nat.pos_iff_ne_zero]
  have hlt : T.magUnits (T.mag w) < 2 ^ T.fracBits ↔ T.mag w < 2 ^ T.fracBits := by
    have hiff := T.magUnits_strictMono.lt_iff_lt (a := T.mag w) (b := 2 ^ T.fracBits)
    rwa [T.magUnits_fracPow] at hiff
  constructor
  · rintro ⟨s, n, hw, h0, h1⟩
    have hfin : T.isFinite w = true := by rw [T.isFinite_eq_isFin, hw]; rfl
    obtain ⟨-, rfl⟩ := Val.fin.inj ((Fmt.unpack_of_isFinite hfin).symm.trans hw)
    exact ⟨hpos.1 h0, hlt.1 h1⟩
  · rintro ⟨h0, h1⟩
    have hfin : T.isFinite w = true := decide_eq_true (h1.trans T.fracPow_lt_infMag)
    exact ⟨_, _, Fmt.unpack_of_isFinite hfin, hpos.2 h0, hlt.2 h1⟩

/-- Settles O33: the comparisons of the snap hold exactly between zero and the smallest normal value of either sign. -/
theorem snapClearsExactlyTheSubnormals : Obligations.SnapClearsExactlyTheSubnormals := by
  intro T v
  simp only [Fmt.snap, Fmt.flt, T.unpack_zero, T.unpack_minNormal, T.unpack_fneg_minNormal, Val.lt_between_iff,
    T.unpack_subnormal_iff]

end Sys2Proof

/-! ## The state: its straps, its two flags, what commands write, and its invariant (10_state.md) -/

namespace Sys2Proof.Machine

/-! ### The status word (10_state.md R37) -/

theorem State.toNat_statusWord (s : State) :
    s.statusWord.toNat = s.topo.code.toNat + s.fmt.code.toNat * 2 ^ 8 + s.loaded.toNat * 2 ^ 16 +
      s.flt.toNat * 2 ^ 17 + 0xB1 * 2 ^ 24 := by
  simp only [State.statusWord, toNat_append_mul, BitVec.toNat_ofBool, BitVec.ofNat_eq_ofNat, BitVec.toNat_ofNat]
  omega

theorem State.toNat_statusWord_lt (s : State) : s.statusWord.toNat < 2 ^ 32 := by
  rw [s.toNat_statusWord]
  have htopo := s.topo.code.isLt
  have hfmt := s.fmt.code.isLt
  have hloaded := s.loaded.toNat_le
  have hflt := s.flt.toNat_le
  omega

theorem State.fits_statusWord (s : State) : s.fmt.fits s.statusWord = true := by
  have hwidth : 2 ^ 32 ≤ 2 ^ s.fmt.width := by cases s.fmt <;> decide
  exact (s.fmt.fits_iff _).2 (s.toNat_statusWord_lt.trans_le hwidth)

/-- Settles O26: the status word's fields as a number, each at its bit. -/
theorem rdstatAnswersTheStatusWord : Obligations.RdstatAnswersTheStatusWord := by
  intro s
  have hword : s.statusWord = BitVec.ofNat 64 s.statusWord.toNat := by simp
  rw [s.toNat_statusWord] at hword
  rw [← hword]
  rfl

/-! ### What commands leave alone (10_state.md R33, R44) -/

/-- Settles O18: of everything a command can answer, only a load has a new set, and only a load, CLR and XFORM a new
history. -/
theorem commandsWriteOnlyWhatTheTableSays : Obligations.CommandsWriteOnlyWhatTheTableSays := by
  intro i s t h
  rcases exec_cases i s with ⟨_, e⟩ | ⟨_, _, hload, e⟩ | ⟨rfl, e⟩ | ⟨x, rfl, _, e⟩ | ⟨_, _, e⟩ | ⟨_, _, _, _, _, e⟩ |
    ⟨_, _, _, _, e⟩ | ⟨_, e⟩ <;> obtain rfl := Host.Outcome.next.inj (e.symm.trans h)
  case inr.inl => simp [hload]
  case inr.inr.inl => simp
  case inr.inr.inr.inl => simp
  all_goals exact ⟨fun _ => rfl, fun _ _ _ => rfl, rfl, rfl, rfl, rfl⟩

theorem exec_straps {i : Instr} {s t : State} (h : exec i s = .next t) : t.topo = s.topo ∧ t.fmt = s.fmt := by
  obtain ⟨_, _, htopo, hfmt, _⟩ := commandsWriteOnlyWhatTheTableSays i s t h
  exact ⟨htopo, hfmt⟩

/-- Settles O12: a reset builds the block again with its own straps, and neither a refusal nor a command writes them. -/
theorem strapsNeverChange : Obligations.StrapsNeverChange := by
  refine ⟨by decide, fun s t h => ?_⟩
  rcases step_cases h with ⟨rest, _, rfl⟩ | ⟨opc, cause, rest, _, rfl⟩ | ⟨i, rest, _, hexec⟩
  · exact ⟨rfl, rfl⟩
  · exact ⟨rfl, rfl⟩
  · simpa using exec_straps hexec

/-! ### The two flags (10_state.md R34, R35) -/

/-- What a command's one response says of the flags: a failure sets `FLT`, an OK answer of a load sets `LOADED`, and
nothing else touches them. -/
theorem exec_response {i : Instr} {s t : State} (h : exec i s = .next t) :
    ∃ r : Response, t.tx = s.tx ++ [r] ∧
      ((r.status = 0b10 ∧ t.flt = true ∧ t.loaded = s.loaded) ∨
        (r.status = 0b00 ∧ t.flt = s.flt ∧ t.loaded = (s.loaded || isLoad i))) := by
  rcases exec_fails_or_answers i s with ⟨cause, e⟩ | ⟨u, b, e, htx, _, hflt, hloaded⟩ <;>
    obtain rfl := Host.Outcome.next.inj (e.symm.trans h)
  · exact ⟨_, rfl, .inl ⟨Response.status_fail .., rfl, rfl⟩⟩
  · exact ⟨_, htx, .inr ⟨Response.status_ok .., hflt, hloaded⟩⟩

theorem exec_keeps_flags {i : Instr} {s t : State} (h : exec i s = .next t) :
    (s.flt = true → t.flt = true) ∧ (s.loaded = true → t.loaded = true) := by
  obtain ⟨_, _, ⟨_, hflt, hloaded⟩ | ⟨_, hflt, hloaded⟩⟩ := exec_response h <;> simp_all

theorem exec_flt_of_status {i : Instr} {s t : State} {r : Response} (h : exec i s = .next t) (htx : t.tx = s.tx ++ [r])
    (hr : r.status = 0b10) : t.flt = true := by
  obtain ⟨r', htx', hflags⟩ := exec_response h
  obtain rfl : r' = r := by simpa using htx'.symm.trans htx
  rcases hflags with ⟨_, hflt, _⟩ | ⟨hok, _⟩
  · exact hflt
  · simp [hr] at hok

/-- While the host applies no reset, no step clears a flag. -/
theorem step_keeps_flags {s t : State} (hw : ∀ e ∈ s.rx, isWord e = true) (h : step s = .next t) :
    (s.flt = true → t.flt = true) ∧ (s.loaded = true → t.loaded = true) := by
  rcases step_words hw h with ⟨_, _, _, _, rfl⟩ | ⟨i, rest, _, hexec⟩
  · exact ⟨fun _ => rfl, id⟩
  · simpa using exec_keeps_flags hexec

theorem isWord_of_reset_notMem {es : List PortEvent} (h : .reset ∉ es) : ∀ e ∈ es, isWord e = true := by
  intro e he
  simpa [isWord] using ne_of_mem_of_not_mem he h

/-- A reset that stands first at the port is taken (70_reset_and_hazards.md R230). -/
theorem step_of_reset {s : State} {rest : List PortEvent} (hrx : s.rx = .reset :: rest) :
    step s = .next (s.consume rest).hwReset := by
  have hdec : decode s.fmt s.draw s.rx = .reset rest := by rw [hrx]; rfl
  simp only [step, hdec]

theorem step_of_reject {s : State} {opc : BitVec 8} {cause : Cause} {rest : List PortEvent}
    (hdec : decode s.fmt s.draw s.rx = .reject opc cause rest) : step s = .next ((s.consume rest).raise opc cause) := by
  simp only [step, hdec]

theorem step_flt_of_status {s t : State} {r : Response} (h : step s = .next t) (htx : t.tx = s.tx ++ [r])
    (hr : r.status = 0b10) : t.flt = true := by
  rcases step_cases h with ⟨rest, _, rfl⟩ | ⟨opc, cause, rest, _, rfl⟩ | ⟨i, rest, _, hexec⟩
  · simp at htx
  · rfl
  · exact exec_flt_of_status hexec htx hr

/-! ### What commands read -/

section
variable {s s' : State} (hfmt : s'.fmt = s.fmt)
include hfmt

/-- Of the state a first-order generator reads the format alone. -/
theorem runFirstOrder_same_fmt (opc : BitVec 8) (base : Nat) (f : Word → Word → Coeffs Word) (fs fc : Word) :
    (∃ c, runFirstOrder opc base f fs fc s = .next ((s.adopt c).respond opc none) ∧
        runFirstOrder opc base f fs fc s' = .next ((s'.adopt c).respond opc none)) ∨
      (runFirstOrder opc base f fs fc s = .next (s.raise opc .badArgument) ∧
        runFirstOrder opc base f fs fc s' = .next (s'.raise opc .badArgument)) := by
  simp only [runFirstOrder, State.wide, State.opnd, hfmt]
  by_cases hok : firstOrderOk (s.fmt.widen64 (base + 0xE0) (s.fmt.clip fs)) (s.fmt.widen64 (base + 0xE1) (s.fmt.clip fc)) = true
  · exact .inl ⟨_, if_pos hok, if_pos hok⟩
  · exact .inr ⟨if_neg hok, if_neg hok⟩

/-- Of the state a second-order generator reads the format alone. -/
theorem runSecondOrder_same_fmt (opc : BitVec 8) (base : Nat) (f : Word → Word → Word → Coeffs Word) (fs fc q : Word) :
    (∃ c, runSecondOrder opc base f fs fc q s = .next ((s.adopt c).respond opc none) ∧
        runSecondOrder opc base f fs fc q s' = .next ((s'.adopt c).respond opc none)) ∨
      (runSecondOrder opc base f fs fc q s = .next (s.raise opc .badArgument) ∧
        runSecondOrder opc base f fs fc q s' = .next (s'.raise opc .badArgument)) := by
  simp only [runSecondOrder, State.wide, State.opnd, hfmt]
  by_cases hok : secondOrderOk (s.fmt.widen64 (base + 0xE0) (s.fmt.clip fs)) (s.fmt.widen64 (base + 0xE1) (s.fmt.clip fc))
      (s.fmt.widen64 (base + 0xE2) (s.fmt.clip q)) = true
  · exact .inl ⟨_, if_pos hok, if_pos hok⟩
  · exact .inr ⟨if_neg hok, if_neg hok⟩

/-- On two blocks of one format a load adopts the same set, or fails on both. -/
theorem exec_load_same_fmt {i : Instr} (hload : isLoad i = true) :
    (∃ c, exec i s = .next ((s.adopt c).respond i.opcode none) ∧
        exec i s' = .next ((s'.adopt c).respond i.opcode none)) ∨
      (exec i s = .next (s.raise i.opcode .badArgument) ∧ exec i s' = .next (s'.raise i.opcode .badArgument)) := by
  cases i with
  | setc =>
    simp only [exec, execSetc, State.opnd, hfmt]
    exact .inl ⟨_, rfl, rfl⟩
  | glpf1 => exact runFirstOrder_same_fmt hfmt ..
  | ghpf1 => exact runFirstOrder_same_fmt hfmt ..
  | gapf1 => exact runFirstOrder_same_fmt hfmt ..
  | glpf2 => exact runSecondOrder_same_fmt hfmt ..
  | ghpf2 => exact runSecondOrder_same_fmt hfmt ..
  | gapf2 => exact runSecondOrder_same_fmt hfmt ..
  | clr | xform | stq | rdc | rds | rdstat => simp [isLoad] at hload

end

theorem exec_xform_of_not_loaded {s : State} (h : s.loaded = false) (x : Word) :
    exec (.xform x) s = .next (s.raise 0x03 .notLoaded) := by simp [exec, execXform, h]

theorem exec_stq_of_not_loaded {s : State} (h : s.loaded = false) : exec .stq s = .next (s.raise 0x04 .notLoaded) := by
  simp [exec, execStq, h]

theorem Coeffs.get_eq_getElem? {α : Type} (c : Coeffs α) (k : BitVec 4) : c.get k = c.toList[k.toNat]? := by
  unfold Coeffs.get
  split <;> simp_all [Coeffs.toList]
  omega

theorem History.get_eq_getElem? {α : Type} (h : History α) (k : BitVec 4) : h.get k = h.toList[k.toNat]? := by
  unfold History.get
  split <;> simp_all [History.toList]
  omega

/-- The index check of RDC comes before the check of `LOADED` (60_exceptions.md R203). -/
theorem exec_rdc_of_not_loaded {s : State} (h : s.loaded = false) (k : BitVec 4) :
    exec (.rdc k) s = .next (s.raise 0x05 (if 6 < k.toNat then .indexRange else .notLoaded)) := by
  have hnone : s.c.get k = none ↔ 6 < k.toNat := by
    rw [s.c.get_eq_getElem?, List.getElem?_eq_none_iff]
    rfl
  simp only [exec, execRdc, ← hnone]
  cases s.c.get k <;> simp [h]

/-- No command but RDSTAT, which reports it, reads `FLT`. -/
theorem exec_with_flt {i : Instr} (hi : i ≠ .rdstat) {s t : State} (h : exec i s = .next t) :
    exec i { s with flt := true } = .next { t with flt := true } := by
  by_cases hload : isLoad i = true
  · rcases exec_load_same_fmt (s := s) (s' := { s with flt := true }) rfl hload with ⟨c, e, e'⟩ | ⟨e, e'⟩ <;>
      (obtain rfl := Host.Outcome.next.inj (e.symm.trans h); exact e')
  · revert h
    cases i with
    | rdstat => exact absurd rfl hi
    | clr => rintro ⟨⟩; rfl
    | xform x =>
      simp only [exec, execXform]
      split <;> (rintro ⟨⟩; rfl)
    | stq =>
      simp only [exec, execStq]
      split <;> (rintro ⟨⟩; rfl)
    | rdc k =>
      simp only [exec, execRdc]
      split
      · rintro ⟨⟩; rfl
      · split <;> (rintro ⟨⟩; rfl)
    | rds k =>
      simp only [exec, execRds]
      split <;> (rintro ⟨⟩; rfl)
    | setc | glpf1 | ghpf1 | gapf1 | glpf2 | ghpf2 | gapf2 => exact absurd rfl hload

/-- Settles O16: no command reads `FLT` but RDSTAT, and only a reset clears it. -/
theorem fltIsStickyAndStopsNothing : Obligations.FltIsStickyAndStopsNothing := by
  refine ⟨fun s t h hs ht => ?_, fun s rest hrx => ⟨_, step_of_reset hrx, rfl⟩,
    fun s opc cause rest hdec => ⟨_, step_of_reject hdec, rfl⟩, fun s t r => step_flt_of_status, fun i s t h =>
    ⟨(exec_keeps_flags h).1, fun r => exec_flt_of_status h, fun hi => exec_with_flt hi h, ?_⟩⟩
  · by_contra hreset
    simp [(step_keeps_flags (isWord_of_reset_notMem hreset) h).1 hs] at ht
  · rintro rfl
    obtain rfl := Host.Outcome.next.inj h
    exact ⟨_, rfl⟩

/-- Settles O17: while `LOADED` is 0 the three commands raise NOT_LOADED, and a command's response says whether it loaded
a set. -/
theorem loadedGatesAndIsSetByLoads : Obligations.LoadedGatesAndIsSetByLoads := by
  refine ⟨fun s t h hs ht => ?_, fun s rest hrx => ⟨_, step_of_reset hrx, rfl⟩, fun s i opc hs hi => ?_,
    fun i s t r h htx => ?_⟩
  · by_contra hreset
    simp [(step_keeps_flags (isWord_of_reset_notMem hreset) h).2 hs] at ht
  · rcases hi with ⟨x, rfl, rfl⟩ | ⟨rfl, rfl⟩ | ⟨k, rfl, hk, rfl⟩
    · exact exec_xform_of_not_loaded hs x
    · exact exec_stq_of_not_loaded hs
    · rw [exec_rdc_of_not_loaded hs, if_neg hk.not_gt]
      rfl
  · obtain ⟨r', htx', hflags⟩ := exec_response h
    obtain rfl : r' = r := by simpa using htx'.symm.trans htx
    rcases hflags with ⟨hstatus, _, hloaded⟩ | ⟨hstatus, _, hloaded⟩ <;> simp [hstatus, hloaded]

/-- A command that fails on every block without a set keeps the coefficients unseen there. -/
theorem exec_with_coeffs_of_fails {i : Instr} {opc : BitVec 8} {cause : Cause}
    (hfail : ∀ u : State, u.loaded = false → exec i u = .next (u.raise opc cause)) {s t : State}
    (hs : s.loaded = false) (h : exec i s = .next t) (c : Coeffs Word) :
    exec i { s with c := c } = .next { t with c := c } := by
  obtain rfl := Host.Outcome.next.inj ((hfail s hs).symm.trans h)
  exact hfail { s with c := c } hs

/-- While `LOADED` is 0, only a load depends on, or changes, the coefficients. -/
theorem exec_with_coeffs {i : Instr} (hload : isLoad i = false) {s t : State} (hs : s.loaded = false)
    (h : exec i s = .next t) (c : Coeffs Word) : exec i { s with c := c } = .next { t with c := c } := by
  cases i with
  | xform x => exact exec_with_coeffs_of_fails (fun u hu => exec_xform_of_not_loaded hu x) hs h c
  | stq => exact exec_with_coeffs_of_fails (fun u hu => exec_stq_of_not_loaded hu) hs h c
  | rdc k => exact exec_with_coeffs_of_fails (fun u hu => exec_rdc_of_not_loaded hu k) hs h c
  | rds k =>
    revert h
    simp only [exec, execRds]
    split <;> (rintro ⟨⟩; rfl)
  | clr | rdstat => obtain rfl := Host.Outcome.next.inj h; rfl
  | setc | glpf1 | ghpf1 | gapf1 | glpf2 | ghpf2 | gapf2 => simp [isLoad] at hload

/-- Settles O21: a load reads the format alone and overwrites the coefficients, and no other command shows them. -/
theorem unloadedCoefficientsAreUnobservable : Obligations.UnloadedCoefficientsAreUnobservable := by
  intro i s t c hs h
  cases hload : isLoad i with
  | true =>
    rcases exec_load_same_fmt (s := s) (s' := { s with c := c }) rfl hload with ⟨_, e, e'⟩ | ⟨e, e'⟩ <;>
      obtain rfl := Host.Outcome.next.inj (e.symm.trans h)
    · exact ⟨_, e', .inl ⟨rfl, rfl⟩⟩
    · exact ⟨_, e', .inr ⟨hs, rfl⟩⟩
  | false =>
    obtain ⟨_, _, hflags⟩ := exec_response h
    have ht : t.loaded = false := by simpa [hs, hload] using hflags.imp (·.2.2) (·.2.2)
    exact ⟨_, exec_with_coeffs hload hs h c, .inr ⟨ht, rfl⟩⟩

/-! ### Power-up -/

/-- Settles O11: the state right after power-up, and a block with nothing at its port waits. -/
theorem powerUpStateHasTheStatedValues : Obligations.PowerUpStateHasTheStatedValues := by
  intro topo T
  exact ⟨rfl, rfl, rfl, rfl, rfl, rfl⟩

/-! ### The invariant -/

theorem State.inv_iff (s : State) :
    s.Inv = true ↔ (∀ w ∈ s.c.toList, s.fmt.fits w = true) ∧ (∀ w ∈ s.h.toList, s.fmt.fits w = true) ∧
      s.unusedZero = true ∧ ∀ r ∈ s.tx, r.wellFormed = true ∧ r.beat.all s.fmt.fits = true := by
  simp [State.Inv, State.widthOk, State.responsesOk, and_assoc]

theorem State.unusedZero_iff (s : State) :
    s.unusedZero = true ↔
      (s.topo = .canonical ∨ s.topo = .canonicalTranspose → s.h.y_z1 = 0 ∧ s.h.y_z2 = 0) := by
  unfold State.unusedZero
  cases s.topo <;> simp

theorem History.fits_of_mem_zero (T : Fmt) : ∀ w ∈ History.zero.toList, T.fits w = true := by
  simpa [History.zero, History.toList] using T.fits_zero

theorem Coeffs.fits_of_mem_atReset (T : Fmt) : ∀ w ∈ Coeffs.atReset.toList, T.fits w = true := by
  simpa [Coeffs.atReset, Coeffs.toList] using T.fits_zero

theorem State.unusedZero_of_zero {s : State} (h : s.h = History.zero) : s.unusedZero = true :=
  s.unusedZero_iff.2 fun _ => by rw [h]; exact ⟨rfl, rfl⟩

/-- Settles O20: zero fits every format, and no response has been given. -/
theorem powerUpStateMeetsTheInvariant : Obligations.PowerUpStateMeetsTheInvariant := fun topo T =>
  (State.inv_iff _).2 ⟨Coeffs.fits_of_mem_atReset T, History.fits_of_mem_zero T, State.unusedZero_of_zero rfl, by simp⟩

/-! #### The filter (41_transform.md R141 to R144) -/

/-- Every output comes out of an operation of the format, whatever the registers hold. -/
theorem fits_filterStep_fst (topo : Topo) (T : Fmt) (c : Coeffs Word) (h : History Word) (x : Word) :
    T.fits (filterStep topo T.arith c h x).1 = true := by
  cases topo with
  | direct => exact T.fits_fsub ..
  | canonical => exact T.fits_fadd ..
  | directTranspose => exact T.fits_fadd ..
  | canonicalTranspose => exact T.fits_fadd ..

theorem History.forall_mem_toList {α : Type} {p : α → Prop} (h : History α) :
    (∀ w ∈ h.toList, p w) ↔ p h.x_z1 ∧ p h.x_z2 ∧ p h.y_z1 ∧ p h.y_z2 := by simp [History.toList]

/-- A new history holds the input, old registers and results of the format. -/
theorem fits_filterStep_snd (topo : Topo) {T : Fmt} (c : Coeffs Word) {h : History Word} {x : Word}
    (hx : T.fits x = true) (hh : ∀ w ∈ h.toList, T.fits w = true) :
    ∀ w ∈ (filterStep topo T.arith c h x).2.toList, T.fits w = true := by
  obtain ⟨hx1, hx2, hy1, hy2⟩ := h.forall_mem_toList.1 hh
  rw [History.forall_mem_toList]
  cases topo with
  | direct => exact ⟨hx, hx1, T.fits_fsub .., hy1⟩
  | canonical => exact ⟨T.fits_fsub .., hx1, hy1, hy2⟩
  | directTranspose => exact ⟨T.fits_fadd .., T.fits_fmul .., T.fits_fsub .., T.fits_fmul ..⟩
  | canonicalTranspose => exact ⟨T.fits_fadd .., T.fits_fsub .., hy1, hy2⟩

/-- The registers that a realization does not use stay as they are (41_transform.md R149). -/
theorem filterStep_unused {topo : Topo} (htopo : topo = .canonical ∨ topo = .canonicalTranspose) {α : Type}
    (A : Arith α) (c : Coeffs α) (h : History α) (x : α) :
    (filterStep topo A c h x).2.y_z1 = h.y_z1 ∧ (filterStep topo A c h x).2.y_z2 = h.y_z2 := by
  rcases htopo with rfl | rfl <;> exact ⟨rfl, rfl⟩

/-! #### Each operation keeps the invariant -/

section
variable {s : State} (hs : s.Inv = true)
include hs

theorem State.inv_respond (opc : BitVec 8) {b : Option Word} (hb : b.all s.fmt.fits = true) :
    (s.respond opc b).Inv = true := by
  obtain ⟨hc, hh, hu, htx⟩ := s.inv_iff.1 hs
  refine (State.inv_iff _).2 ⟨hc, hh, hu, ?_⟩
  rw [State.respond_tx, List.forall_mem_append, List.forall_mem_singleton]
  exact ⟨htx, Response.wellFormed_ok .., hb⟩

theorem State.inv_raise (opc : BitVec 8) (cause : Cause) : (s.raise opc cause).Inv = true := by
  obtain ⟨hc, hh, hu, htx⟩ := s.inv_iff.1 hs
  refine (State.inv_iff _).2 ⟨hc, hh, hu, ?_⟩
  rw [State.raise_tx, List.forall_mem_append, List.forall_mem_singleton]
  exact ⟨htx, Response.wellFormed_fail .., rfl⟩

theorem State.inv_setHistory {h : History Word} (hh : ∀ w ∈ h.toList, s.fmt.fits w = true)
    (hu : (s.setHistory h).unusedZero = true) : (s.setHistory h).Inv = true := by
  obtain ⟨hc, _, _, htx⟩ := s.inv_iff.1 hs
  exact (State.inv_iff _).2 ⟨hc, hh, hu, htx⟩

theorem State.inv_clearHistory : s.clearHistory.Inv = true :=
  State.inv_setHistory hs (History.fits_of_mem_zero _) (State.unusedZero_of_zero rfl)

theorem State.inv_adopt {c : Coeffs Word} (hc : ∀ w ∈ c.toList, s.fmt.fits w = true) : (s.adopt c).Inv = true := by
  obtain ⟨_, hh, hu, htx⟩ := (State.inv_iff _).1 (State.inv_clearHistory hs)
  exact (State.inv_iff _).2 ⟨hc, hh, hu, htx⟩

theorem State.inv_consume (rest : List PortEvent) : (s.consume rest).Inv = true := hs

theorem State.inv_hwReset : s.hwReset.Inv = true := by
  obtain ⟨_, _, _, htx⟩ := s.inv_iff.1 hs
  obtain ⟨hc, hh, hu, _⟩ := (State.inv_iff _).1 (powerUpStateMeetsTheInvariant s.topo s.fmt)
  exact (State.inv_iff _).2 ⟨hc, hh, hu, htx⟩

/-- XFORM's new history keeps the invariant. -/
theorem State.inv_setHistory_filter {x : Word} (hx : s.fmt.fits x = true) :
    (s.setHistory (s.filter x).2).Inv = true := by
  obtain ⟨_, hh, hu, _⟩ := s.inv_iff.1 hs
  refine State.inv_setHistory hs (fits_filterStep_snd s.topo s.c hx hh) ((State.unusedZero_iff _).2 fun htopo => ?_)
  obtain ⟨hy1, hy2⟩ := filterStep_unused htopo s.fmt.arith s.c s.h x
  obtain ⟨h1, h2⟩ := s.unusedZero_iff.1 hu htopo
  exact ⟨hy1.trans h1, hy2.trans h2⟩

theorem exec_keeps_inv {i : Instr} {t : State} (h : exec i s = .next t) : t.Inv = true := by
  obtain ⟨hc, hh, _⟩ := s.inv_iff.1 hs
  rcases exec_cases i s with ⟨_, e⟩ | ⟨_, hset, _, e⟩ | ⟨_, e⟩ | ⟨x, _, _, e⟩ | ⟨_, _, e⟩ | ⟨k, v, _, _, hv, e⟩ |
    ⟨k, v, _, hv, e⟩ | ⟨_, e⟩ <;> obtain rfl := Host.Outcome.next.inj (e.symm.trans h)
  · exact State.inv_raise hs ..
  · exact State.inv_respond (State.inv_adopt hs hset) _ rfl
  · exact State.inv_respond (State.inv_clearHistory hs) _ rfl
  · have hx : s.fmt.fits (s.opnd x) = true := s.fmt.fits_clip x
    exact State.inv_respond (State.inv_setHistory_filter hs hx) _ (s.fmt.fits_snap (fits_filterStep_fst ..))
  · exact State.inv_respond hs _ (fits_filterStep_fst ..)
  · rw [Coeffs.get_eq_getElem?] at hv
    exact State.inv_respond hs _ (hc v (List.mem_of_getElem? hv))
  · rw [History.get_eq_getElem?] at hv
    exact State.inv_respond hs _ (hh v (List.mem_of_getElem? hv))
  · exact State.inv_respond hs _ s.fits_statusWord

end

/-- Settles O19: a reset's, a refusal's and a command's operations each keep the invariant. -/
theorem everyStepKeepsTheInvariant : Obligations.EveryStepKeepsTheInvariant := by
  intro s t hs h
  rcases step_cases h with ⟨rest, _, rfl⟩ | ⟨opc, cause, rest, _, rfl⟩ | ⟨i, rest, _, hexec⟩
  · exact State.inv_hwReset (State.inv_consume hs rest)
  · exact State.inv_raise (State.inv_consume hs rest) opc cause
  · exact exec_keeps_inv (State.inv_consume hs rest) hexec

end Sys2Proof.Machine

/-! ## Transactions and responses at the port and over a byte-wide medium (20_memory.md) -/

namespace Sys2Proof

/-! ### Bytes (20_memory.md R61) -/

theorem leBytes_eq_map (n v : Nat) : leBytes n v = (List.range n).map (fun k => BitVec.ofNat 8 (v / 256 ^ k)) := by
  induction n generalizing v with
  | zero => rfl
  | succ n ih => simp [leBytes, ih, List.range_succ_eq_map, Nat.div_div_eq_div_mul, pow_succ']

/-- Byte `k` of a word's bytes is its bits from `8 * k` on. -/
theorem leBytes_toNat {m : Nat} (n : Nat) (w : BitVec m) :
    leBytes n w.toNat = (List.range n).map (fun k => w.extractLsb' (8 * k) 8) := by
  rw [leBytes_eq_map]
  refine List.map_congr_left fun k _ => BitVec.eq_of_toNat_eq ?_
  rw [BitVec.toNat_ofNat, toNat_extract_div, pow_mul]
  rfl

theorem bytes_beatEvent (T : Fmt) {w : Word} (h : T.fits w = true) :
    (beatEvent T w).bytes = leBytes T.beatBytes w.toNat := by
  cases T with
  | binary32 =>
    have hw : w.toNat < 2 ^ 32 := (Fmt.fits_iff .binary32 w).1 h
    show leBytes 4 (w.setWidth 32).toNat = leBytes 4 w.toNat
    rw [BitVec.toNat_setWidth, Nat.mod_eq_of_lt hw]
  | binary64 => rfl

/-- Operand beats come back from their bytes, and the bytes behind them are left. -/
theorem frameBeats_bytes (T : Fmt) {beats : List Word} (h : ∀ w ∈ beats, T.fits w = true) (bs : List Byte) :
    frameBeats T beats.length ((beats.map (beatEvent T)).flatMap PortEvent.bytes ++ bs) =
      some (beats.map (beatEvent T), bs) := by
  induction beats with
  | nil => rfl
  | cons w ws ih =>
    obtain ⟨hw, hws⟩ := List.forall_mem_cons.1 h
    simp [frameBeats, bytes_beatEvent T hw, ofLeBytes_beat T hw, ih hws]

/-- Settles O3: a word's bytes are its bits eight at a time, and the header tells how many beats stand behind it. -/
theorem bytesCarryATransactionLittleEndian : Obligations.BytesCarryATransactionLittleEndian := by
  refine ⟨fun w => leBytes_toNat 4 w, fun w => leBytes_toNat 8 w, fun T i bs h => ?_⟩
  obtain ⟨-, hfits⟩ := (i.wellFormed_iff T).1 h
  obtain ⟨hnin, -⟩ := encoding_statement i
  have hbeats := frameBeats_bytes T hfits bs
  simp [frame, encode, PortEvent.bytes, ofLeBytes_header, hnin, hbeats]

end Sys2Proof

namespace Sys2Proof.Machine

/-! ### Streams of commands (20_memory.md R66) -/

theorem execAll_cons {i : Instr} {s u : State} (h : exec i s = .next u) (is : List Instr) :
    execAll (i :: is) s = execAll is u := by
  simp only [execAll, h]

theorem run_succ_of_step {s u : State} (h : step s = .next u) (k : Nat) :
    Host.Core.run core (k + 1) s = Host.Core.run core k u := by
  have hcore : core.step s = .next u := h
  simp only [Host.Core.run, hcore]

/-- Settles O8, by induction on the commands: the first step is the first command's effect (O7), which does not depend on
what stands behind its transaction, and leaves the other transactions at the port. -/
theorem commandsExecuteInArrivalOrder : Obligations.CommandsExecuteInArrivalOrder := by
  intro is
  induction is with
  | nil =>
    intro s rest _ hrx
    obtain rfl : s.rx = rest := hrx
    exact ⟨s, rfl, rfl⟩
  | cons i is ih =>
    intro s rest hwf hrx
    obtain ⟨hi, his⟩ := List.forall_mem_cons.1 hwf
    obtain ⟨u, hu, -⟩ := exec_answers i s
    have hport : ∀ rx d, exec i { s with rx := rx, draw := d } = .next { u with rx := rx, draw := d } := fun rx d => by
      rw [exec_port, hu]
    obtain ⟨-, hfmt⟩ := exec_straps hu
    have hstep := aStepRunsTheDecodedCommand s i (is.flatMap (encode s.fmt) ++ rest) hi (by simpa using hrx)
    rw [hport] at hstep
    obtain ⟨t, hall, hrun⟩ := ih
      { u with rx := is.flatMap (encode s.fmt) ++ rest, draw := s.draw + (1 + i.beats.length) } rest
      (by simpa [hfmt] using his) (by simp [hfmt])
    refine ⟨t, ?_, (run_succ_of_step hstep _).trans hrun⟩
    rw [execAll_cons (hport ..), ← hall, List.map_cons, List.sum_cons, ← Nat.add_assoc]

/-! ### Reads (20_memory.md R63) -/

theorem exec_stq_of_loaded {s : State} (h : s.loaded = true) :
    exec .stq s = .next (s.respond 0x04 (some (s.filter 0).1)) := by
  simp [exec, execStq, h]

theorem exec_rdc_of_get {s : State} {k : BitVec 4} {v : Word} (h : s.loaded = true) (hv : s.c.get k = some v) :
    exec (.rdc k) s = .next (s.respond 0x05 (some v)) := by
  simp [exec, execRdc, h, hv]

theorem exec_rds_of_get {s : State} {k : BitVec 4} {v : Word} (hv : s.h.get k = some v) :
    exec (.rds k) s = .next (s.respond 0x06 (some v)) := by
  simp [exec, execRds, hv]

/-- Settles O27: a read that answers OK only adds its response, and no read looks at the responses given. -/
theorem readsRepeatWithTheSameValue : Obligations.ReadsRepeatWithTheSameValue := by
  intro i s t r hi h htx hr
  rcases exec_cases i s with ⟨_, e⟩ | ⟨_, _, hload, e⟩ | ⟨rfl, e⟩ | ⟨_, rfl, _, e⟩ | ⟨rfl, hl, e⟩ | ⟨k, v, rfl, hl, hv, e⟩ |
    ⟨k, v, rfl, hv, e⟩ | ⟨rfl, e⟩ <;> obtain rfl := Host.Outcome.next.inj (e.symm.trans h)
  · obtain rfl : ⟨_, _⟩ = r := by simpa using htx
    simp at hr
  · rcases hi with rfl | ⟨_, rfl⟩ | ⟨_, rfl⟩ | rfl <;> simp [isLoad] at hload
  · simp at hi
  · simp at hi
  all_goals obtain rfl : ⟨_, _⟩ = r := by simpa using htx
  · exact ⟨rfl, exec_stq_of_loaded hl⟩
  · exact ⟨rfl, exec_rdc_of_get hl hv⟩
  · exact ⟨rfl, exec_rds_of_get hv⟩
  · exact ⟨rfl, rfl⟩

/-! ### Responses (20_memory.md R61, 30_encoding.md R84) -/

/-- The host reads back every response that has a beat exactly when its status and opcode say so. -/
theorem frameResponse_bytes {T : Fmt} {r : Response} (hfits : r.beat.all T.fits = true)
    (hbeat : r.beat.isSome = true ↔ r.status = 0b00 ∧ opcodeAnswers r.ropc = true) (bs : List Byte) :
    frameResponse T (r.bytes T ++ bs) = some (r, bs) := by
  obtain ⟨hdr, _ | w⟩ := r
  · exact frameResponse_none T hdr bs fun h => Bool.noConfusion (hbeat.2 h)
  · exact frameResponse_some T hdr bs hfits (hbeat.1 rfl)

theorem State.sentBytes_of_tx {s t : State} {r : Response} (hfmt : t.fmt = s.fmt) (htx : t.tx = s.tx ++ [r]) :
    t.sentBytes = s.sentBytes ++ r.bytes s.fmt := by
  simp [State.sentBytes, hfmt, htx]


/-- While no reset stands at the port, a step adds one response, which has a beat exactly when its status is OK and its
opcode answers one. -/
theorem step_response {s t : State} (hw : ∀ e ∈ s.rx, isWord e = true) (h : step s = .next t) :
    ∃ r : Response, t.tx = s.tx ++ [r] ∧
      (r.beat.isSome = true ↔ r.status = 0b00 ∧ opcodeAnswers r.ropc = true) := by
  have hfail : ∀ opc cause, (none : Option Word).isSome = true ↔
      Response.status ⟨failHeader opc cause, none⟩ = 0b00 ∧
        opcodeAnswers (Response.ropc ⟨failHeader opc cause, none⟩) = true := by simp
  rcases step_words hw h with ⟨opc, cause, rest, _, rfl⟩ | ⟨i, rest, _, hexec⟩
  · exact ⟨_, rfl, hfail opc cause⟩
  · rcases exec_fails_or_answers i (s.consume rest) with ⟨cause, e⟩ | ⟨u, b, e, htx, hb, -⟩ <;>
      obtain rfl := Host.Outcome.next.inj (e.symm.trans hexec)
    · exact ⟨_, rfl, hfail i.opcode cause⟩
    · exact ⟨_, htx, by simp [hb, opcodeAnswers_opcode]⟩

/-- Settles O58: the bytes as in O3; a step's response has a beat when the host expects one, and by the invariant (O19) the
beat has `W` bits, so the host reads both back. -/
theorem responsesAreCarriedLittleEndian : Obligations.ResponsesAreCarriedLittleEndian := by
  refine ⟨fun T h => ?_, fun h w => ?_, fun h w => ?_, fun s t hs hw h => ?_⟩
  · rw [Response.bytes_none]
    exact leBytes_toNat 4 h
  · exact congrArg₂ (· ++ ·) (leBytes_toNat 4 h) (leBytes_toNat 4 w)
  · exact congrArg₂ (· ++ ·) (leBytes_toNat 4 h) (leBytes_toNat 8 w)
  · obtain ⟨r, htx, hbeat⟩ := step_response hw h
    have hfmt : t.fmt = s.fmt := (strapsNeverChange.2 s t h).2
    obtain ⟨_, _, _, hresp⟩ := t.inv_iff.1 (everyStepKeepsTheInvariant s t hs h)
    obtain ⟨_, hfits⟩ := hresp r (by simp [htx])
    exact ⟨r, htx, State.sentBytes_of_tx hfmt htx, frameResponse_bytes (hfmt ▸ hfits) hbeat⟩

end Sys2Proof.Machine

/-! ## Encoding and decoding (30_encoding.md) -/

namespace Sys2Proof.Machine

/-- Settles O1: the header passes the checks of R87 when the index is legal, and as many beats are taken as were sent. -/
theorem decodingAnEncodedCommandGivesItBack : Obligations.DecodingAnEncodedCommandGivesItBack :=
  fun T d _ rest => decode_encode T d rest

/-- Where the decoder reads a command there stands a header that passes the checks, with at least as many words behind it
as the command has operands. -/
theorem decode_narrow_eq_run {T : Fmt} {d : Nat} {hdr : Header} {tail rest : List PortEvent} {i : Instr}
    (h : decode T d (.narrow hdr :: tail) = .run i rest) :
    nin (opcField hdr) = some i.beats.length ∧ i.opcode = opcField hdr ∧ headerError hdr = none ∧
      i.beats.length ≤ tail.length := by
  have hfrom : decodeFrom T (d + 1) hdr tail = .run i rest := h
  rcases decodeFrom_cases T (d + 1) hdr tail with ⟨_, hd⟩ |
    ⟨n, hnin, ⟨beats, _, rfl, hle, _, ⟨_, _, hd⟩ | ⟨j, herr, hbuild, hd⟩⟩ | ⟨_, _, _, _, _, hd⟩ | ⟨_, _, hd⟩⟩ <;>
    rw [hd] at hfrom
  case inr.inl.inr =>
    obtain ⟨rfl, _⟩ := Decoded.run.inj hfrom
    obtain ⟨i, hi, hopc, rfl, _⟩ := build_of_nin (idxField hdr) hnin
    obtain rfl := Option.some.inj (hi.symm.trans hbuild)
    exact ⟨hnin, hopc, herr, hle⟩
  all_goals cases hfrom

/-- Settles O2: the header and the words taken are the transaction of some well-formed command, which decodes to itself
(O1) and so is the command read. -/
theorem onlyItsEncodingDecodesToACommand : Obligations.OnlyItsEncodingDecodesToACommand := by
  intro T d hdr tail rest i hsized h
  obtain ⟨hnin, _, herr, hle⟩ := decode_narrow_eq_run h
  have hlen : (tail.take i.beats.length).length = i.beats.length := List.length_take_of_le hle
  obtain ⟨j, hwf, henc, _⟩ := exists_encode_eq (hlen.symm ▸ hnin) hsized herr
  have hport : encode T j ++ tail.drop i.beats.length = .narrow hdr :: tail := by simp [henc]
  rw [← hport, decode_encode T d _ hwf] at h
  obtain ⟨rfl, rfl⟩ := Decoded.run.inj h
  exact ⟨hwf, hport.symm⟩

/-- Settles O4: the decoder evaluated on the words of R95. -/
theorem specHeaderWordsDecode : Obligations.SpecHeaderWordsDecode := by
  unfold Obligations.SpecHeaderWordsDecode
  decide +kernel

/-! ### A step on a header (30_encoding.md R81, R89) -/

/-- A step on a header with words alone behind it takes the words that the opcode fixes, and refuses the header or runs a
command of its opcode. -/
theorem step_of_header {s t : State} {hdr : Header} {tail : List PortEvent} (hrx : s.rx = .narrow hdr :: tail)
    (hw : ∀ e ∈ tail, isWord e = true) (h : step s = .next t) :
    ∃ n, (nin (opcField hdr)).getD 0 = n ∧ n ≤ tail.length ∧
      ((∃ cause, t = (s.consume (tail.drop n)).raise (opcField hdr) cause) ∨
        ∃ i : Instr, i.opcode = opcField hdr ∧ exec i (s.consume (tail.drop n)) = .next t) := by
  have hdec : decode s.fmt s.draw s.rx = decodeFrom s.fmt (s.draw + 1) hdr tail := by rw [hrx]; rfl
  rcases decodeFrom_cases s.fmt (s.draw + 1) hdr tail with ⟨hnin, hd⟩ |
    ⟨n, hnin, ⟨_, _, _, hle, _, ⟨cause, _, hd⟩ | ⟨i, _, _, hd⟩⟩ | ⟨_, _, rfl, _, _, hd⟩ | ⟨_, _, hd⟩⟩ <;>
    rw [hd] at hdec
  · obtain rfl := Host.Outcome.next.inj ((step_of_reject hdec).symm.trans h)
    exact ⟨0, by simp [hnin], Nat.zero_le _, .inl ⟨_, rfl⟩⟩
  · obtain rfl := Host.Outcome.next.inj ((step_of_reject hdec).symm.trans h)
    exact ⟨n, by simp [hnin], hle, .inl ⟨cause, rfl⟩⟩
  · simp only [step, hdec] at h
    rw [hrx] at hdec
    obtain ⟨_, hopc, _⟩ := decode_narrow_eq_run hdec
    exact ⟨n, by simp [hnin], hle, .inr ⟨i, hopc, h⟩⟩
  · exact absurd rfl (ne_reset_of_isWord (hw .reset (by simp)))
  · simp only [step, hdec] at h
    cases h

/-- Settles O5: a step takes the words its opcode fixes, and neither a refusal nor a command takes more. -/
theorem transactionLengthIsFixedByTheOpcode : Obligations.TransactionLengthIsFixedByTheOpcode := by
  intro s t hdr tail hrx hw h
  obtain ⟨n, hn, hle, ⟨_, rfl⟩ | ⟨i, _, hexec⟩⟩ := step_of_header hrx hw h <;> rw [hn]
  · exact ⟨rfl, hle⟩
  · obtain ⟨u, hu, hport⟩ := exec_answers i (s.consume (tail.drop n))
    obtain rfl := Host.Outcome.next.inj (hu.symm.trans hexec)
    exact ⟨hport, hle⟩

/-- A command's one response has its opcode and the layout of 30_encoding.md R84, and a beat on success when its opcode
answers one. -/
theorem exec_wellFormed_response (i : Instr) (s : State) : ∃ (t : State) (r : Response),
    exec i s = .next t ∧ t.tx = s.tx ++ [r] ∧ r.ropc = i.opcode ∧ r.wellFormed = true ∧
      (r.status = 0b00 → r.beat.isSome = nout i) := by
  rcases exec_fails_or_answers i s with ⟨cause, e⟩ | ⟨t, b, e, htx, hb, _⟩
  · exact ⟨_, _, e, rfl, Response.ropc_fail .., Response.wellFormed_fail .., by simp⟩
  · exact ⟨t, _, e, htx, Response.ropc_ok .., Response.wellFormed_ok .., fun _ => hb⟩

/-- Settles O13: a refused header and a failed command answer by the one error operation, an OK answer has its opcode's
beat. -/
theorem everyCommandGivesExactlyOneResponse : Obligations.EveryCommandGivesExactlyOneResponse := by
  refine ⟨exec_wellFormed_response, fun s t hdr tail hrx hw h => ?_⟩
  obtain ⟨n, _, _, ⟨cause, rfl⟩ | ⟨i, hopc, hexec⟩⟩ := step_of_header hrx hw h
  · exact ⟨_, rfl, Response.ropc_fail .., Response.wellFormed_fail ..⟩
  · obtain ⟨u, r, hu, htx, hr, hwf, _⟩ := exec_wellFormed_response i (s.consume (tail.drop n))
    obtain rfl := Host.Outcome.next.inj (hu.symm.trans hexec)
    exact ⟨r, htx, hr.trans hopc, hwf⟩

/-! ### Refused headers (30_encoding.md R88) -/

/-- A reserved bit is set, or there is an index where none is allowed. -/
theorem headerError_eq_reservedField_iff (hdr : Header) :
    headerError hdr = some .reservedField ↔
      rsvField hdr ≠ 0 ∨ ((opcField hdr).toNat ≠ 5 ∧ (opcField hdr).toNat ≠ 6 ∧ idxField hdr ≠ 0) := by
  have hzero : (idxField hdr).toNat = 0 ↔ idxField hdr = 0 := by simp [← BitVec.toNat_inj]
  unfold headerError
  grind

/-- An index beyond the registers of RDC or RDS. -/
theorem headerError_eq_indexRange_iff (hdr : Header) :
    headerError hdr = some .indexRange ↔
      rsvField hdr = 0 ∧ (((opcField hdr).toNat = 5 ∧ 6 < (idxField hdr).toNat) ∨
        ((opcField hdr).toNat = 6 ∧ 3 < (idxField hdr).toNat)) := by
  unfold headerError
  grind

/-- The opcodes that the map of 30_encoding.md R86 leaves out. -/
theorem nin_eq_none {opc : BitVec 8} (h : opc.toNat = 0 ∨ (0x08 ≤ opc.toNat ∧ opc.toNat ≤ 0x0F) ∨
    (0x13 ≤ opc.toNat ∧ opc.toNat ≤ 0x17) ∨ 0x1B ≤ opc.toNat) : nin opc = none := by
  rw [Option.eq_none_iff_forall_ne_some]
  intro n hn
  have := nin_eq_some hn
  simp only [List.mem_cons, List.not_mem_nil, or_false] at this
  omega

/-- A legal opcode's header that fails a check is refused once its operand words are taken (30_encoding.md R89). -/
theorem step_of_headerError {s : State} {hdr : Header} {words rest : List PortEvent} {cause : Cause}
    (hrx : s.rx = .narrow hdr :: (words ++ rest)) (hnin : nin (opcField hdr) = some words.length)
    (hw : ∀ e ∈ words, isWord e = true) (herr : headerError hdr = some cause) :
    step s = .next ((s.consume rest).raise (opcField hdr) cause) := by
  obtain ⟨beats, htake, _⟩ := takeBeats_words s.fmt words rest (s.draw + 1) fun e he => ne_reset_of_isWord (hw e he)
  apply step_of_reject
  simp only [hrx, decode, PortEvent.asHeader, decodeFrom, hnin, htake, decodeBody, herr]

/-- An opcode outside the map is refused with its header alone taken (30_encoding.md R89). -/
theorem step_of_illegalOpcode {s : State} {hdr : Header} {rest : List PortEvent} (hrx : s.rx = .narrow hdr :: rest)
    (hnin : nin (opcField hdr) = none) : step s = .next ((s.consume rest).raise (opcField hdr) .illegalOpcode) := by
  apply step_of_reject
  simp only [hrx, decode, PortEvent.asHeader, decodeFrom, hnin]

/-- Settles O6: each kind of illegal encoding is refused with its cause, an opcode outside the map before any word behind
the header is taken. -/
theorem illegalEncodingsFailInStep : Obligations.IllegalEncodingsFailInStep := by
  intro s hdr words rest hrx opc failed
  have hfailed : ∀ cause, (s.consume rest).raise (opcField hdr) cause = failed (causeCode cause).toNat := fun cause => by
    have hdraw : s.draw + (s.rx.length - rest.length) = s.draw + 1 + words.length := by simp [hrx]; omega
    simp only [raise_eq, State.consume, hdraw, failHeader_eq, failed, opc]
  refine ⟨fun hopc hwords => ?_, fun hnin hw => ?_⟩
  · subst hwords
    exact (step_of_illegalOpcode hrx (nin_eq_none hopc)).trans (congrArg _ (hfailed .illegalOpcode))
  · have hfail : ∀ cause, headerError hdr = some cause → step s = .next (failed (causeCode cause).toNat) :=
      fun cause herr => by rw [step_of_headerError hrx hnin hw herr, hfailed]
    have hrsv := headerError_eq_reservedField_iff hdr
    have hrange := headerError_eq_indexRange_iff hdr
    exact ⟨fun h => hfail .reservedField (hrsv.2 (.inl h)),
      fun _ h5 h6 hidx => hfail .reservedField (hrsv.2 (.inr ⟨h5, h6, hidx⟩)),
      fun h h5 hidx => hfail .indexRange (hrange.2 ⟨h, .inl ⟨h5, hidx⟩⟩),
      fun h h6 hidx => hfail .indexRange (hrange.2 ⟨h, .inr ⟨h6, hidx⟩⟩)⟩

/-! ### Reading one register (40_control.md R113, R114) -/

theorem exec_rdc_of_get_none {s : State} {k : BitVec 4} (hk : s.c.get k = none) :
    exec (.rdc k) s = .next (s.raise 0x05 .indexRange) := by
  simp [exec, execRdc, hk]

theorem exec_rds_of_get_none {s : State} {k : BitVec 4} (hk : s.h.get k = none) :
    exec (.rds k) s = .next (s.raise 0x06 .indexRange) := by
  simp [exec, execRds, hk]

/-- Settles O24: an index names a coefficient exactly when it is at most 6. -/
theorem rdcAnswersTheStoredCoefficient : Obligations.RdcAnswersTheStoredCoefficient := by
  refine ⟨fun s k hl hk => ?_, fun s k hk => exec_rdc_of_get_none ?_⟩
  · have hlt : k.toNat < s.c.toList.length := Nat.lt_succ_of_le hk
    rw [List.getElem?_eq_getElem hlt]
    exact exec_rdc_of_get hl (by rw [s.c.get_eq_getElem?, List.getElem?_eq_getElem hlt])
  · rw [s.c.get_eq_getElem?]
    exact List.getElem?_eq_none hk

/-- Settles O25: an index names a history register exactly when it is at most 3. -/
theorem rdsAnswersTheStoredHistory : Obligations.RdsAnswersTheStoredHistory := by
  refine ⟨fun s k hk => ?_, fun s k hk => exec_rds_of_get_none ?_⟩
  · have hlt : k.toNat < s.h.toList.length := Nat.lt_succ_of_le hk
    rw [List.getElem?_eq_getElem hlt]
    exact exec_rds_of_get (by rw [s.h.get_eq_getElem?, List.getElem?_eq_getElem hlt])
  · rw [s.h.get_eq_getElem?]
    exact List.getElem?_eq_none hk

end Sys2Proof.Machine

namespace Sys2Proof

/-! ## Neutral operands: zeros and one (00_scope.md R17) -/

theorem Fmt.isFinite_of_mag_eq_zero {T : Fmt} {w : Word} (h : T.mag w = 0) : T.isFinite w = true :=
  decide_eq_true (h ▸ T.infMag_pos)

theorem Fmt.unpack_of_mag_eq_zero {T : Fmt} {w : Word} (h : T.mag w = 0) : T.unpack w = .fin (T.sign w) 0 :=
  (T.unpack_eq_zero_iff w _).2 ⟨h, rfl⟩

theorem Fmt.mag_pack_zero (T : Fmt) (s : Bool) : T.mag (T.pack s 0) = 0 := T.mag_pack s (Nat.two_pow_pos _)

theorem Fmt.mag_zero (T : Fmt) : T.mag 0 = 0 := Nat.zero_mod _

theorem Fmt.mag_fneg_zero (T : Fmt) : T.mag (T.fneg 0) = 0 := by cases T <;> decide

/-- The sum of zeros is a zero. -/
theorem Fmt.mag_roundSum_zero (T : Fmt) (s t : Bool) : T.mag (T.roundSum s 0 t 0) = 0 := by
  rw [T.roundSum_of_eq_zero (by simp [signedUnits]), T.mag_pack_zero]

/-- A value that is not zero, plus a zero, is that value. -/
theorem Fmt.roundSum_zero_right (T : Fmt) (s t : Bool) {m : Nat} (h0 : m ≠ 0) (hm : m ≤ T.infMag) :
    T.roundSum s (T.magUnits m) t 0 = T.pack s m := by
  have hpos : 0 < T.magUnits m := Nat.pos_of_ne_zero (mt T.magUnits_eq_zero_iff.1 h0)
  have hsum : signedUnits s (T.magUnits m) + signedUnits t 0 = signedUnits s (T.magUnits m) := by simp [signedUnits]
  have hneg : decide (signedUnits s (T.magUnits m) < 0) = s := by cases s <;> simp [signedUnits, hpos]
  have hround : T.roundMag (T.magUnits m) 1 = m := by simpa using T.roundMag_magUnits one_pos hm
  rw [T.roundSum_of_ne_zero (by rw [hsum, Ne, signedUnits_eq_zero_iff]; exact hpos.ne'), hsum, hneg, natAbs_signedUnits,
    hround]

section
variable {T : Fmt} {a z : Word} (k : Nat)

theorem Fmt.mag_fadd_zeros (ha : T.mag a = 0) (hz : T.mag z = 0) : T.mag (T.fadd k a z) = 0 := by
  rw [Fmt.fadd, Fmt.unpack_of_mag_eq_zero ha, Fmt.unpack_of_mag_eq_zero hz]
  exact T.mag_roundSum_zero ..

theorem Fmt.mag_fsub_zeros (ha : T.mag a = 0) (hz : T.mag z = 0) : T.mag (T.fsub k a z) = 0 := by
  rw [Fmt.fsub, Fmt.unpack_of_mag_eq_zero ha, Fmt.unpack_of_mag_eq_zero hz]
  exact T.mag_roundSum_zero ..

theorem Fmt.mag_fmul_zero_left (hz : T.mag z = 0) (ha : T.isFinite a = true) : T.mag (T.fmul k z a) = 0 := by
  rw [Fmt.fmul, Fmt.unpack_of_mag_eq_zero hz, Fmt.unpack_of_isFinite ha, Fmt.mulVal, Nat.zero_mul,
    T.roundMag_zero (Nat.two_pow_pos _), T.mag_pack_zero]

theorem Fmt.mag_fmul_zero (ha : T.isFinite a = true) : T.mag (T.fmul k 0 a) = 0 := Fmt.mag_fmul_zero_left k T.mag_zero ha

end

end Sys2Proof

namespace Sys2Proof.Machine

/-! ### The block after `pass` (30_encoding.md R94) -/

theorem unpack_oneBits (T : Fmt) : T.unpack (oneBits T) = .fin false (2 ^ T.unitBits) := by
  cases T <;> decide +kernel

theorem fits_oneBits (T : Fmt) : T.fits (oneBits T) = true := T.fits_pack _ (T.roundMag_lt ..)

/-- A beat of the format that holds a finite value other than a zero, whose sign a zero added to it cannot change. -/
structure IsNonzeroBeat (T : Fmt) (x : Word) : Prop where
  fits : T.fits x = true
  isFinite : T.isFinite x = true
  mag_ne_zero : T.mag x ≠ 0

section
variable {T : Fmt} {x z : Word} (k : Nat) (hx : IsNonzeroBeat T x)
include hx

theorem fmul_oneBits_left : T.fmul k (oneBits T) x = x := by
  obtain ⟨hfits, hfin, _⟩ := hx
  rw [Fmt.fmul, unpack_oneBits, Fmt.unpack_of_isFinite hfin, Fmt.mulVal, Nat.mul_comm,
    T.roundMag_magUnits (Nat.two_pow_pos _) (Fmt.mag_le_of_isFinite hfin), Bool.false_bne, T.pack_sign_mag hfits]

theorem fadd_zero_right (hz : T.mag z = 0) : T.fadd k x z = x := by
  obtain ⟨hfits, hfin, h0⟩ := hx
  rw [Fmt.fadd, Fmt.unpack_of_isFinite hfin, Fmt.unpack_of_mag_eq_zero hz, Fmt.addVal,
    T.roundSum_zero_right _ _ h0 (Fmt.mag_le_of_isFinite hfin), T.pack_sign_mag hfits]

theorem fsub_zero_right (hz : T.mag z = 0) : T.fsub k x z = x := by
  obtain ⟨hfits, hfin, h0⟩ := hx
  rw [Fmt.fsub, Fmt.unpack_of_isFinite hfin, Fmt.unpack_of_mag_eq_zero hz, Val.neg, Fmt.addVal,
    T.roundSum_zero_right _ _ h0 (Fmt.mag_le_of_isFinite hfin), T.pack_sign_mag hfits]

end

/-- The coefficient set that `pass` loads (30_encoding.md R94). -/
def passSet (T : Fmt) : Coeffs Word := ⟨oneBits T, 0, 0, 0, 0, oneBits T, 0⟩

/-- What the history holds while the pass set filters: finite values where the realization delays signals, zeros where it
delays products with the coefficients 0. -/
def PassHistory (topo : Topo) (T : Fmt) (h : History Word) : Prop :=
  match topo with
  | .direct | .canonical => ∀ w ∈ h.toList, T.isFinite w = true
  | .directTranspose | .canonicalTranspose => ∀ w ∈ h.toList, T.mag w = 0

theorem passHistory_zero (topo : Topo) (T : Fmt) : PassHistory topo T History.zero := by
  have hfin := Fmt.isFinite_of_mag_eq_zero T.mag_zero
  have hmag := T.mag_zero
  cases topo <;> rw [PassHistory, History.forall_mem_toList]
  case direct | canonical => exact ⟨hfin, hfin, hfin, hfin⟩
  case directTranspose | canonicalTranspose => exact ⟨hmag, hmag, hmag, hmag⟩

/-! #### Each realization with the pass set: beside the input every term is a zero (41_transform.md R141 to R144) -/

section
variable {T : Fmt} {h : History Word} {x : Word} (hx : IsNonzeroBeat T x)
include hx

theorem directStep_passSet (hh : ∀ w ∈ h.toList, T.isFinite w = true) :
    directStep T.arith (passSet T) h x = (x, ⟨x, h.x_z1, x, h.y_z1⟩) := by
  obtain ⟨hx1, hx2, hy1, hy2⟩ := h.forall_mem_toList.1 hh
  simp only [directStep, passSet, Fmt.arith, fmul_oneBits_left _ hx, fadd_zero_right _ hx (Fmt.mag_fmul_zero _ hx1),
    fadd_zero_right _ hx (Fmt.mag_fmul_zero _ hx2), fsub_zero_right _ hx (Fmt.mag_fmul_zero _ hy1),
    fsub_zero_right _ hx (Fmt.mag_fmul_zero _ hy2)]

theorem canonicalStep_passSet (hh : ∀ w ∈ h.toList, T.isFinite w = true) :
    canonicalStep T.arith (passSet T) h x = (x, ⟨x, h.x_z1, h.y_z1, h.y_z2⟩) := by
  obtain ⟨hx1, hx2, _, _⟩ := h.forall_mem_toList.1 hh
  simp only [canonicalStep, passSet, Fmt.arith, fsub_zero_right _ hx (Fmt.mag_fmul_zero _ hx1),
    fsub_zero_right _ hx (Fmt.mag_fmul_zero _ hx2), fmul_oneBits_left _ hx, fadd_zero_right _ hx (Fmt.mag_fmul_zero _ hx1),
    fadd_zero_right _ hx (Fmt.mag_fmul_zero _ hx2)]

theorem directTransposeStep_passSet (hh : ∀ w ∈ h.toList, T.mag w = 0) :
    (directTransposeStep T.arith (passSet T) h x).1 = x ∧
      ∀ w ∈ (directTransposeStep T.arith (passSet T) h x).2.toList, T.mag w = 0 := by
  obtain ⟨hx1, hx2, hy1, hy2⟩ := h.forall_mem_toList.1 hh
  have hprod := fun k => Fmt.mag_fmul_zero k hx.isFinite
  simp only [directTransposeStep, passSet, Fmt.arith, History.forall_mem_toList, fadd_zero_right _ hx hy1, fmul_oneBits_left _ hx,
    fadd_zero_right _ hx hx1]
  exact ⟨trivial, Fmt.mag_fadd_zeros _ hx2 (hprod _), hprod _, Fmt.mag_fsub_zeros _ hy2 (hprod _),
    Fmt.mag_fmul_zero_left _ T.mag_fneg_zero hx.isFinite⟩

theorem canonicalTransposeStep_passSet (hh : ∀ w ∈ h.toList, T.mag w = 0) :
    (canonicalTransposeStep T.arith (passSet T) h x).1 = x ∧
      ∀ w ∈ (canonicalTransposeStep T.arith (passSet T) h x).2.toList, T.mag w = 0 := by
  obtain ⟨hx1, hx2, hy1, hy2⟩ := h.forall_mem_toList.1 hh
  have hprod := fun k => Fmt.mag_fmul_zero k hx.isFinite
  simp only [canonicalTransposeStep, passSet, Fmt.arith, History.forall_mem_toList, fmul_oneBits_left _ hx,
    fadd_zero_right _ hx hx1]
  exact ⟨trivial, Fmt.mag_fadd_zeros _ (Fmt.mag_fsub_zeros _ (hprod _) (hprod _)) hx2,
    Fmt.mag_fsub_zeros _ (hprod _) (hprod _), hy1, hy2⟩

/-- With the pass set every realization's unsnapped output is its input, again and again. -/
theorem filterStep_passSet {topo : Topo} (hh : PassHistory topo T h) :
    (filterStep topo T.arith (passSet T) h x).1 = x ∧
      PassHistory topo T (filterStep topo T.arith (passSet T) h x).2 := by
  cases topo with
  | direct =>
    obtain ⟨hx1, _, hy1, _⟩ := h.forall_mem_toList.1 hh
    rw [filterStep, directStep_passSet hx hh, PassHistory, History.forall_mem_toList]
    exact ⟨rfl, hx.isFinite, hx1, hx.isFinite, hy1⟩
  | canonical =>
    obtain ⟨hx1, _, hy1, hy2⟩ := h.forall_mem_toList.1 hh
    rw [filterStep, canonicalStep_passSet hx hh, PassHistory, History.forall_mem_toList]
    exact ⟨rfl, hx.isFinite, hx1, hy1, hy2⟩
  | directTranspose => exact directTransposeStep_passSet hx hh
  | canonicalTranspose => exact canonicalTransposeStep_passSet hx hh

end

/-! #### The commands of `pass` and the samples behind it -/

theorem exec_setc_of_fits {s : State} {c : Coeffs Word} (h : ∀ w ∈ c.toList, s.fmt.fits w = true) :
    exec (.setc c.a0 c.a1 c.a2 c.b1 c.b2 c.c0 c.d0) s = .next ((s.adopt c).respond 0x02 none) := by
  have hopnd : ∀ w ∈ c.toList, s.opnd w = w := fun w hw => Fmt.clip_of_fits _ (h w hw)
  simp only [Coeffs.toList, List.forall_mem_cons] at hopnd
  obtain ⟨ha0, ha1, ha2, hb1, hb2, hc0, hd0, _⟩ := hopnd
  simp only [exec, execSetc, ha0, ha1, ha2, hb1, hb2, hc0, hd0]

theorem exec_xform_of_loaded {s : State} (h : s.loaded = true) (x : Word) :
    exec (.xform x) s = .next ((s.setHistory (s.filter (s.opnd x)).2).respond 0x03
      (some (s.fmt.snap (s.filter (s.opnd x)).1))) := by
  simp [exec, execXform, h]

/-- The snap leaves the values alone that are at least the smallest normal one (00_scope.md R19). -/
theorem snap_of_normal {T : Fmt} {v : Word} (h : 2 ^ T.fracBits ≤ T.mag v) : T.snap v = v := by
  rw [snapClearsExactlyTheSubnormals, if_neg fun hsub => h.not_gt hsub.2]

/-- The block filters with the pass set. -/
structure State.Passes (s : State) : Prop where
  loaded : s.loaded = true
  coeffs : s.c = passSet s.fmt
  history : PassHistory s.topo s.fmt s.h

theorem asmPass_eq_setc (T : Fmt) : asmPass T =
    [.setc (passSet T).a0 (passSet T).a1 (passSet T).a2 (passSet T).b1 (passSet T).b2 (passSet T).c0 (passSet T).d0] := rfl

theorem fits_of_mem_passSet (T : Fmt) : ∀ w ∈ (passSet T).toList, T.fits w = true := by
  simp only [Coeffs.toList, passSet, List.forall_mem_cons, fits_oneBits, T.fits_zero]
  simp

/-- `pass` loads its set, answers once and makes the block pass samples (30_encoding.md R94, 40_control.md R112). -/
theorem execAll_asmPass_append (s : State) (is : List Instr) : ∃ t, execAll (asmPass s.fmt ++ is) s = execAll is t ∧
    t.tx = s.tx ++ [⟨0x02000000, none⟩] ∧ t.fmt = s.fmt ∧ t.Passes := by
  refine ⟨(s.adopt (passSet s.fmt)).respond 0x02 none, ?_, rfl, rfl, rfl, rfl, passHistory_zero ..⟩
  rw [asmPass_eq_setc, List.singleton_append, execAll_cons (exec_setc_of_fits (fits_of_mem_passSet _))]

theorem exec_xform_of_passes {s : State} (hs : s.Passes) {x : Word} (hfits : s.fmt.fits x = true)
    (hfin : s.fmt.isFinite x = true) (hnormal : 2 ^ s.fmt.fracBits ≤ s.fmt.mag x) :
    ∃ t, exec (.xform x) s = .next t ∧ t.tx = s.tx ++ [⟨0x03000000, some x⟩] ∧ t.fmt = s.fmt ∧ t.Passes := by
  obtain ⟨hl, hc, hh⟩ := hs
  obtain ⟨hout, hnext⟩ := filterStep_passSet ⟨hfits, hfin, (s.fmt.fracPow_pos.trans_le hnormal).ne'⟩ hh
  rw [← hc] at hout hnext
  have hclip : s.opnd x = x := Fmt.clip_of_fits _ hfits
  refine ⟨_, exec_xform_of_loaded hl x, ?_, rfl, hl, hc, ?_⟩
  · rw [hclip, State.filter, hout, snap_of_normal hnormal]
    rfl
  · rw [hclip]
    exact hnext

theorem execAll_xform_of_passes (xs : List Word) {s : State} (hs : s.Passes)
    (hxs : ∀ x ∈ xs, s.fmt.fits x = true ∧ s.fmt.isFinite x = true ∧ 2 ^ s.fmt.fracBits ≤ s.fmt.mag x) :
    ∃ t, execAll (xs.map .xform) s = some t ∧ t.tx = s.tx ++ xs.map (fun x => ⟨0x03000000, some x⟩) := by
  induction xs generalizing s with
  | nil => exact ⟨s, rfl, by simp⟩
  | cons x xs ih =>
    obtain ⟨⟨hfits, hfin, hnormal⟩, hrest⟩ := List.forall_mem_cons.1 hxs
    obtain ⟨u, hu, htx, hfmt, hpass⟩ := exec_xform_of_passes hs hfits hfin hnormal
    obtain ⟨t, ht, htx'⟩ := ih hpass (hfmt ▸ hrest)
    exact ⟨t, (execAll_cons hu _).trans ht, by simp [htx', htx]⟩

/-- Settles O43: after `pass` the block filters with its set, and so it does after every sample that it has given back. -/
theorem passReturnsNormalSamplesUnchanged : Obligations.PassReturnsNormalSamplesUnchanged := by
  intro s xs hxs
  obtain ⟨u, hu, htx, hfmt, hpass⟩ := execAll_asmPass_append s (xs.map .xform)
  obtain ⟨t, ht, htx'⟩ := execAll_xform_of_passes xs hpass (hfmt ▸ hxs)
  exact ⟨t, hu.trans ht, by simp [htx', htx]⟩

end Sys2Proof.Machine

/-! ## Commands that write the history or the whole set (40_control.md R111, R112) -/

namespace Sys2Proof.Machine

/-- CLR's update and its answer: of the state the history and the responses, nothing else (40_control.md R111). -/
theorem clearHistory_respond_eq (s : State) (opc : BitVec 8) (beat : Option Word) :
    s.clearHistory.respond opc beat = { s with h := History.zero, tx := s.tx ++ [⟨okHeader opc, beat⟩] } := rfl

theorem exec_clr (s : State) : exec .clr s = .next (s.clearHistory.respond 0x01 none) := rfl

/-- Settles O22: CLR clears the history and answers once under its opcode, which is the header's top byte. -/
theorem clrZeroesTheHistoryOnly : Obligations.ClrZeroesTheHistoryOnly := by
  intro s
  have hheader : okHeader 0x01 = 0x01000000 := by decide
  rw [exec_clr, clearHistory_respond_eq, hheader, History.zero]

/-- Settles O23: beats of `W` bits are stored as they came, and a load writes the set, the history, `LOADED` and one
response. -/
theorem setcLoadsTheWholeSet : Obligations.SetcLoadsTheWholeSet := by
  intro s a0 a1 a2 b1 b2 c0 d0 hfits
  have hheader : okHeader 0x02 = 0x02000000 := by decide
  have hexec := exec_setc_of_fits (c := ⟨a0, a1, a2, b1, b2, c0, d0⟩) hfits
  rw [hexec, adopt_respond_eq, hheader, History.zero]

end Sys2Proof.Machine

/-! ## The transform family (41_transform.md) -/

namespace Sys2Proof.Machine

/-! ### XFORM and STQ on a loaded block (R140, R150) -/

/-- Of the state XFORM writes the history and the responses; the output is snapped for the host alone (R145). -/
theorem exec_xform_of_fits {s : State} {x : Word} (h : s.loaded = true) (hx : s.fmt.fits x = true) :
    exec (.xform x) s = .next { s with
      h := (filterStep s.topo s.fmt.arith s.c s.h x).2,
      tx := s.tx ++ [⟨0x03000000, some (s.fmt.snap (filterStep s.topo s.fmt.arith s.c s.h x).1)⟩] } := by
  have hclip : s.opnd x = x := Fmt.clip_of_fits _ hx
  have hheader : okHeader 0x03 = 0x03000000 := by decide
  rw [exec_xform_of_loaded h, hclip, ← hheader]
  rfl

/-- Settles O28: with `TOPO` Direct the step is R141's. -/
theorem xformDirectComputesTheDifferenceEquation : Obligations.XformDirectComputesTheDifferenceEquation := by
  intro s x hl htopo hx
  rw [exec_xform_of_fits hl hx, htopo]
  rfl

/-- Settles O29: with `TOPO` Canonical the step is R142's. -/
theorem xformCanonicalComputesTheta : Obligations.XformCanonicalComputesTheta := by
  intro s x hl htopo hx
  rw [exec_xform_of_fits hl hx, htopo]
  rfl

/-- Settles O30: with `TOPO` Direct-Transpose the step is R143's. -/
theorem xformDirectTransposeRunsBothSections : Obligations.XformDirectTransposeRunsBothSections := by
  intro s x hl htopo hx
  rw [exec_xform_of_fits hl hx, htopo]
  rfl

/-- Settles O31: with `TOPO` Canonical-Transpose the step is R144's. -/
theorem xformCanonicalTransposeFeedsTheUnsnappedOutput :
    Obligations.XformCanonicalTransposeFeedsTheUnsnappedOutput := by
  intro s x hl htopo hx
  rw [exec_xform_of_fits hl hx, htopo]
  rfl

/-- Direct keeps the unsnapped output in its history (R141). -/
theorem filterStep_direct_y_z1 {α : Type} (A : Arith α) (c : Coeffs α) (h : History α) (x : α) :
    (filterStep .direct A c h x).2.y_z1 = (filterStep .direct A c h x).1 := rfl

/-- Settles O32: STQ answers the output of the step that XFORM of `+0.0` takes, and each realization's output is its
rule's expression. -/
theorem stqAnswersTheNextZeroInputOutput : Obligations.StqAnswersTheNextZeroInputOutput := by
  intro s hl
  have hheader : okHeader 0x04 = 0x04000000 := by decide
  refine ⟨?_, ⟨_, exec_xform_of_fits hl s.fmt.fits_zero, fun htopo => ?_⟩, fun htopo => ?_, fun htopo => ?_,
    fun htopo => ?_, fun htopo => ?_⟩
  · rw [exec_stq_of_loaded hl, ← hheader]
    rfl
  · rw [htopo, filterStep_direct_y_z1]
  all_goals
    rw [htopo]
    rfl

/-- Settles O34: the beat is a snapped output, and the snap leaves zero or a pattern that is no subnormal (O33). -/
theorem xformNeverAnswersASubnormal : Obligations.XformNeverAnswersASubnormal := by
  intro s t x v hdr h htx
  cases hl : s.loaded with
  | false =>
    obtain rfl := Host.Outcome.next.inj ((exec_xform_of_not_loaded hl x).symm.trans h)
    simp at htx
  | true =>
    obtain rfl := Host.Outcome.next.inj ((exec_xform_of_loaded hl x).symm.trans h)
    obtain ⟨-, rfl⟩ : _ ∧ s.fmt.snap (s.filter (s.opnd x)).1 = v := by simpa using htx
    rw [snapClearsExactlyTheSubnormals]
    split
    · exact .inl s.fmt.mag_zero
    · omega

/-! ### `c0` and `d0` are not applied (R151) -/

/-- No realization reads `c0` or `d0`. -/
theorem filterStep_with_unapplied {α : Type} (topo : Topo) (A : Arith α) (c : Coeffs α) (h : History α) (x c0 d0 : α) :
    filterStep topo A { c with c0 := c0, d0 := d0 } h x = filterStep topo A c h x := by
  cases topo <;> rfl

/-- The indices 5 and 6 alone name `c0` and `d0` (30_encoding.md R82). -/
theorem Coeffs.get_with_unapplied {α : Type} (c : Coeffs α) (c0 d0 : α) {k : BitVec 4} (h5 : k ≠ 5) (h6 : k ≠ 6) :
    Coeffs.get { c with c0 := c0, d0 := d0 } k = c.get k := by
  have h5' : k.toNat ≠ 5 := fun h => h5 (BitVec.eq_of_toNat_eq h)
  have h6' : k.toNat ≠ 6 := fun h => h6 (BitVec.eq_of_toNat_eq h)
  unfold Coeffs.get
  split <;> simp_all

/-- A command other than a load reads of a coefficient set what the realization applies and what RDC reads. -/
theorem exec_with_coeffs_of_agree {i : Instr} {s t : State} {c : Coeffs Word} (hload : isLoad i = false)
    (hfilter : ∀ x, State.filter { s with c := c } x = s.filter x) (hget : ∀ k, i = .rdc k → c.get k = s.c.get k)
    (h : exec i s = .next t) : exec i { s with c := c } = .next { t with c := c } := by
  revert h
  cases i with
  | clr | rdstat => rintro ⟨⟩; rfl
  | xform x =>
    have hopnd : State.opnd { s with c := c } x = s.opnd x := rfl
    simp only [exec, execXform, hopnd, hfilter]
    split <;> (rintro ⟨⟩; rfl)
  | stq =>
    simp only [exec, execStq, hfilter]
    split <;> (rintro ⟨⟩; rfl)
  | rdc k =>
    simp only [exec, execRdc, hget k rfl]
    split
    · rintro ⟨⟩; rfl
    · split <;> (rintro ⟨⟩; rfl)
  | rds k =>
    simp only [exec, execRds]
    split <;> (rintro ⟨⟩; rfl)
  | setc | glpf1 | ghpf1 | gapf1 | glpf2 | ghpf2 | gapf2 => simp [isLoad] at hload

/-- When `c0` and `d0` change, a command that does not read them back leaves the same state but for the two registers. -/
theorem exec_with_unapplied {i : Instr} {s t : State} (h : exec i s = .next t) (h5 : i ≠ .rdc 5) (h6 : i ≠ .rdc 6)
    (c0 d0 : Word) : ∃ c, exec i { s with c := { s.c with c0 := c0, d0 := d0 } } = .next { t with c := c } ∧
      (c = t.c ∨ c = { t.c with c0 := c0, d0 := d0 }) := by
  cases hload : isLoad i with
  | true =>
    rcases exec_load_same_fmt (s := s) (s' := { s with c := { s.c with c0 := c0, d0 := d0 } }) rfl hload with
      ⟨c, e, e'⟩ | ⟨e, e'⟩ <;> obtain rfl := Host.Outcome.next.inj (e.symm.trans h)
    · exact ⟨c, e', .inl rfl⟩
    · exact ⟨_, e', .inr rfl⟩
  | false =>
    have hc : t.c = s.c := (commandsWriteOnlyWhatTheTableSays i s t h).1 hload
    refine ⟨_, exec_with_coeffs_of_agree hload (filterStep_with_unapplied _ _ _ _ · c0 d0) ?_ h, .inr (by rw [hc])⟩
    rintro k rfl
    exact s.c.get_with_unapplied c0 d0 (fun hk => h5 (congrArg _ hk)) (fun hk => h6 (congrArg _ hk))

/-- The set that a first-order generator adopts is one of its formula, rounded: `runFirstOrder_cases` leaves open which. -/
theorem runFirstOrder_formula (opc : BitVec 8) (base : Nat) (f : Word → Word → Coeffs Word) (fs fc : Word) (s : State) :
    (∃ x y, runFirstOrder opc base f fs fc s =
        .next ((s.adopt (roundSet s.fmt (base + 0xF0) (f x y))).respond opc none)) ∨
      runFirstOrder opc base f fs fc s = .next (s.raise opc .badArgument) := by
  unfold runFirstOrder
  dsimp only
  split
  · exact .inl ⟨_, _, rfl⟩
  · exact .inr rfl

/-- The set that a second-order generator adopts is one of its formula, rounded. -/
theorem runSecondOrder_formula (opc : BitVec 8) (base : Nat) (f : Word → Word → Word → Coeffs Word) (fs fc q : Word)
    (s : State) :
    (∃ x y z, runSecondOrder opc base f fs fc q s =
        .next ((s.adopt (roundSet s.fmt (base + 0xF0) (f x y z))).respond opc none)) ∨
      runSecondOrder opc base f fs fc q s = .next (s.raise opc .badArgument) := by
  unfold runSecondOrder
  dsimp only
  split
  · exact .inl ⟨_, _, _, rfl⟩
  · exact .inr rfl

/-- A generator loads, rounded, a set whose `c0` and `d0` are binary64's 1.0 and 0.0, or refuses its operands
(42_coefficient_generators.md R170). -/
theorem exec_generator {i : Instr} (hload : isLoad i = true)
    (hset : ∀ a0 a1 a2 b1 b2 c0 d0, i ≠ .setc a0 a1 a2 b1 b2 c0 d0) (s : State) :
    (∃ (k : Nat) (c : Coeffs Word), c.c0 = 0x3FF0000000000000 ∧ c.d0 = 0 ∧
      exec i s = .next ((s.adopt (roundSet s.fmt k c)).respond i.opcode none)) ∨
    exec i s = .next (s.raise i.opcode .badArgument) := by
  cases i with
  | glpf1 | ghpf1 | gapf1 => exact (runFirstOrder_formula ..).imp_left fun ⟨_, _, h⟩ => ⟨_, _, rfl, rfl, h⟩
  | glpf2 | ghpf2 | gapf2 => exact (runSecondOrder_formula ..).imp_left fun ⟨_, _, _, h⟩ => ⟨_, _, rfl, rfl, h⟩
  | setc => exact (hset _ _ _ _ _ _ _ rfl).elim
  | clr | xform | stq | rdc | rds | rdstat => simp [isLoad] at hload

theorem round64_one (T : Fmt) (k : Nat) : T.round64 k 0x3FF0000000000000 = oneBits T := by
  rw [T.round64_of_isFinite k (by decide)]
  cases T <;> decide +kernel

theorem round64_zero (T : Fmt) (k : Nat) : T.round64 k 0 = 0 := by
  rw [T.round64_of_isFinite k (by decide)]
  cases T <;> decide +kernel

/-- Settles O35: a load reads the format alone, and of the other commands only RDC reads the two registers; SETC's beats
come back; rounded to the format, 1.0 and 0.0 are its own. -/
theorem c0AndD0AreNotApplied : Obligations.C0AndD0AreNotApplied := by
  refine ⟨fun i s t c0 d0 h h5 h6 => ?_, fun s a0 a1 a2 b1 b2 c0 d0 hc0 hd0 => ?_, fun s t i r hload hset h htx hr => ?_⟩
  · obtain ⟨c, e, hc⟩ := exec_with_unapplied h h5 h6 c0 d0
    exact ⟨_, e, rfl, hc⟩
  · have hheader : okHeader 0x05 = 0x05000000 := by decide
    have hc0' : s.opnd c0 = c0 := Fmt.clip_of_fits _ hc0
    have hd0' : s.opnd d0 = d0 := Fmt.clip_of_fits _ hd0
    refine ⟨_, _, _, rfl, exec_rdc_of_get rfl rfl, ?_, exec_rdc_of_get rfl rfl, ?_⟩
    · rw [State.respond_tx, hheader, State.respond_c, State.adopt_c, hc0']
    · rw [State.respond_tx, hheader, State.respond_c, State.adopt_c, hd0']
  · rcases exec_generator hload hset s with ⟨k, c, hone, hzero, e⟩ | e <;>
      obtain rfl := Host.Outcome.next.inj (e.symm.trans h)
    · exact ⟨(congrArg (s.fmt.round64 _) hone).trans (round64_one ..),
        (congrArg (s.fmt.round64 _) hzero).trans (round64_zero ..)⟩
    · obtain rfl : ⟨_, _⟩ = r := by simpa using htx
      simp at hr

end Sys2Proof.Machine

namespace Sys2Proof

/-! ### The free NaN (R146) -/

/-- Some draw has the sign bit `s` and the payload `p`, the payloads being the remainders by `n`: `p` plus a multiple of
`n` that is 0 or lies just above bit 63. -/
theorem exists_draw {n p : Nat} (hn : n ≤ 2 ^ 52) (hp : p < n) (s : Bool) :
    ∃ d : Word, d.getLsbD 63 = s ∧ d.toNat % n = p := by
  obtain ⟨q, hlt, hsign⟩ : ∃ q, q * n + p < 2 ^ 64 ∧ decide ((q * n + p) / 2 ^ 63 % 2 = 1) = s := by
    cases s with
    | false => exact ⟨0, by omega, decide_eq_false (by omega)⟩
    | true =>
      have hdiv := Nat.div_add_mod' (2 ^ 63) n
      have hmod := Nat.mod_lt (2 ^ 63) (Nat.zero_lt_of_lt hp)
      refine ⟨2 ^ 63 / n + 1, ?_, decide_eq_true ?_⟩ <;> (rw [Nat.succ_mul]; omega)
  refine ⟨BitVec.ofNat 64 (q * n + p), ?_, ?_⟩
  · rw [← BitVec.testBit_toNat, BitVec.toNat_ofNat, Nat.mod_eq_of_lt hlt, Nat.testBit_eq_decide_div_mod_eq, hsign]
  · rw [BitVec.toNat_ofNat, Nat.mod_eq_of_lt hlt, Nat.mul_add_mod_of_lt hp]

/-- Every NaN of the format is some draw's. -/
theorem Fmt.exists_nanOf_eq (T : Fmt) {w : Word} (hfits : T.fits w = true) (hnan : T.isNaN w = true) :
    ∃ d, T.nanOf d = w := by
  have hlow : T.infMag < T.mag w := of_decide_eq_true hnan
  have hhigh : T.mag w < T.infMag + 2 ^ T.fracBits := T.infMag_add_fracPow ▸ T.mag_lt w
  have hn : 2 ^ T.fracBits - 1 ≤ 2 ^ 52 := by cases T <;> decide
  obtain ⟨d, hsign, hpayload⟩ := exists_draw (p := T.mag w - T.infMag - 1) hn (by omega) (T.sign w)
  refine ⟨d, ?_⟩
  rw [Fmt.nanOf, hsign, hpayload, show T.infMag + 1 + (T.mag w - T.infMag - 1) = T.mag w by omega, T.pack_sign_mag hfits]

/-- The snap leaves NaNs and infinities alone (R145, 00_scope.md R19). -/
theorem Fmt.snap_of_not_isFinite {T : Fmt} {v : Word} (h : T.isFinite v = false) : T.snap v = v := by
  have hmag : T.infMag ≤ T.mag v := Nat.le_of_not_lt (of_decide_eq_false h)
  exact Machine.snap_of_normal (T.fracPow_lt_infMag.le.trans hmag)

/-- Settles O36: NaN operands among the cases of O54, a NaN result is the NaN the operation was given, and the draws cover
every sign and payload. -/
theorem nansPropagateAndMayBeAnyNan : Obligations.NansPropagateAndMayBeAnyNan := by
  refine ⟨fun T k a b h => ?_,
    fun T k a b => ⟨T.addVal_of_isNaN, T.addVal_of_isNaN, T.mulVal_of_isNaN, T.divVal_of_isNaN⟩, Fmt.isNaN_nanOf,
    fun T w => T.exists_nanOf_eq, fun T v => Fmt.snap_of_not_isFinite⟩
  obtain ⟨hadd, hsub, hmul, hdiv⟩ := nansComeFromInvalidOperationsAlone T k a b
  exact ⟨hadd.2 (or_assoc.1 (.inl h)), hsub.2 (or_assoc.1 (.inl h)), hmul.2 (or_assoc.1 (.inl h)),
    hdiv.2 (or_assoc.1 (.inl h))⟩

end Sys2Proof

namespace Sys2Proof.Machine

/-! ### The realizations in exact arithmetic (R147, R148) -/

section
variable {α : Type} [CommRing α]

/-- The history of Direct whose inputs and outputs belong to the intermediates `theta`, `theta1` being the last one: the
input is `theta + b1 theta1 + b2 theta2`, the output `a0 theta + a1 theta1 + a2 theta2`. -/
def directHistory (c : Coeffs α) (theta1 theta2 theta3 theta4 : α) : History α :=
  ⟨theta1 + c.b1 * theta2 + c.b2 * theta3, theta2 + c.b1 * theta3 + c.b2 * theta4,
    c.a0 * theta1 + c.a1 * theta2 + c.a2 * theta3, c.a0 * theta2 + c.a1 * theta3 + c.a2 * theta4⟩

/-- The history `h` of a realization stands for the history `d` of Direct. -/
def StandsFor (topo : Topo) (c : Coeffs α) (h d : History α) : Prop :=
  match topo with
  | .direct => h = d
  | .canonical => ∃ theta3 theta4, d = directHistory c h.x_z1 h.x_z2 theta3 theta4
  | .directTranspose => ∃ theta1 theta2 theta3 theta4, d = directHistory c theta1 theta2 theta3 theta4 ∧
      h = ⟨c.a1 * theta1 + c.a2 * theta2, c.a2 * theta1, -(c.b1 * theta1 + c.b2 * theta2), -(c.b2 * theta1)⟩
  | .canonicalTranspose =>
      h.x_z1 = c.a1 * d.x_z1 + c.a2 * d.x_z2 - c.b1 * d.y_z1 - c.b2 * d.y_z2 ∧ h.x_z2 = c.a2 * d.x_z1 - c.b2 * d.y_z1

theorem standsFor_zero (topo : Topo) (c : Coeffs α) : StandsFor topo c ⟨0, 0, 0, 0⟩ ⟨0, 0, 0, 0⟩ := by
  cases topo with
  | direct => rfl
  | canonical => exact ⟨0, 0, by simp [directHistory]⟩
  | directTranspose => exact ⟨0, 0, 0, 0, by simp [directHistory], by simp⟩
  | canonicalTranspose => simp [StandsFor]

/-- Direct shifts its input and its output into the history (R141). -/
theorem directStep_snd {β : Type} (A : Arith β) (c : Coeffs β) (h : History β) (x : β) :
    (directStep A c h x).2 = ⟨x, h.x_z1, (directStep A c h x).1, h.y_z1⟩ := rfl

/-- On the history of four intermediates Direct answers the next intermediate's output. -/
theorem directStep_directHistory_fst {c : Coeffs α} {x theta theta1 theta2 : α}
    (hx : x = theta + c.b1 * theta1 + c.b2 * theta2) (theta3 theta4 : α) :
    (directStep (exactArith α) c (directHistory c theta1 theta2 theta3 theta4) x).1 =
      c.a0 * theta + c.a1 * theta1 + c.a2 * theta2 := by
  simp only [directStep, exactArith, directHistory, hx]
  ring

/-- On the history of four intermediates Direct shifts in the next one. -/
theorem directStep_directHistory_snd {c : Coeffs α} {x theta theta1 theta2 : α}
    (hx : x = theta + c.b1 * theta1 + c.b2 * theta2) (theta3 theta4 : α) :
    (directStep (exactArith α) c (directHistory c theta1 theta2 theta3 theta4) x).2 =
      directHistory c theta theta1 theta2 theta3 := by
  rw [directStep_snd, directStep_directHistory_fst hx, hx]
  rfl

/-- A step of a realization and a step of Direct on a history that it stands for answer the same output, and the new
histories are such a pair again. -/
theorem filterStep_standsFor {topo : Topo} {c : Coeffs α} {h d : History α} (hd : StandsFor topo c h d) (x : α) :
    (filterStep topo (exactArith α) c h x).1 = (directStep (exactArith α) c d x).1 ∧
      StandsFor topo c (filterStep topo (exactArith α) c h x).2 (directStep (exactArith α) c d x).2 := by
  cases topo with
  | direct =>
    obtain rfl : h = d := hd
    exact ⟨rfl, rfl⟩
  | canonical =>
    obtain ⟨theta3, theta4, rfl⟩ := hd
    have hx : x = (x - c.b1 * h.x_z1 - c.b2 * h.x_z2) + c.b1 * h.x_z1 + c.b2 * h.x_z2 := by ring
    rw [directStep_directHistory_fst hx, directStep_directHistory_snd hx]
    exact ⟨rfl, h.x_z2, theta3, rfl⟩
  | directTranspose =>
    obtain ⟨theta1, theta2, theta3, theta4, rfl, rfl⟩ := hd
    have hx : x = (x + -(c.b1 * theta1 + c.b2 * theta2)) + c.b1 * theta1 + c.b2 * theta2 := by ring
    rw [directStep_directHistory_fst hx, directStep_directHistory_snd hx]
    refine ⟨?_, _, _, _, _, rfl, ?_⟩ <;> simp only [filterStep, directTransposeStep, exactArith]
    · ring
    · congr 1 <;> ring
  | canonicalTranspose =>
    obtain ⟨h1, h2⟩ := hd
    have hy : (filterStep .canonicalTranspose (exactArith α) c h x).1 = (directStep (exactArith α) c d x).1 := by
      simp only [filterStep, canonicalTransposeStep, directStep, exactArith, h1]
      ring
    rw [directStep_snd, ← hy]
    refine ⟨rfl, ?_, rfl⟩
    simp only [filterStep, canonicalTransposeStep, exactArith, h2]
    ring

theorem exactOutputs_standsFor {topo : Topo} {c : Coeffs α} {h d : History α} (hd : StandsFor topo c h d) (xs : List α) :
    exactOutputs topo (exactArith α) c h xs = exactOutputs .direct (exactArith α) c d xs := by
  induction xs generalizing h d with
  | nil => rfl
  | cons x xs ih =>
    obtain ⟨hy, hnext⟩ := filterStep_standsFor hd x
    exact congrArg₂ List.cons hy (ih hnext)

theorem exactOutputs_eq_direct (topo : Topo) (c : Coeffs α) (xs : List α) :
    exactOutputs topo (exactArith α) c ⟨0, 0, 0, 0⟩ xs = exactOutputs .direct (exactArith α) c ⟨0, 0, 0, 0⟩ xs :=
  exactOutputs_standsFor (standsFor_zero topo c) xs

/-- Direct's outputs satisfy its difference equation, the inputs and outputs before the first being those in the history. -/
theorem exactOutputs_direct_equation (c : Coeffs α) (h : History α) (xs : List α) (n : Nat) (hn : n < xs.length) :
    let X := h.x_z2 :: h.x_z1 :: xs
    let Y := h.y_z2 :: h.y_z1 :: exactOutputs .direct (exactArith α) c h xs
    Y.getD (n + 2) 0 + c.b1 * Y.getD (n + 1) 0 + c.b2 * Y.getD n 0 =
      c.a0 * X.getD (n + 2) 0 + c.a1 * X.getD (n + 1) 0 + c.a2 * X.getD n 0 := by
  induction xs generalizing h n with
  | nil => exact absurd hn (Nat.not_lt_zero n)
  | cons x xs ih =>
    cases n with
    | zero =>
      simp only [exactOutputs, filterStep, directStep, exactArith, List.getD_cons_succ, List.getD_cons_zero]
      ring
    | succ n => exact ih _ n (Nat.lt_of_succ_lt_succ hn)

end

theorem length_exactOutputs {α : Type} (topo : Topo) (A : Arith α) (c : Coeffs α) (h : History α) (xs : List α) :
    (exactOutputs topo A c h xs).length = xs.length := by
  induction xs generalizing h with
  | nil => rfl
  | cons x xs ih => simp [exactOutputs, ih]

/-- Settles O38: from a zero history each realization's outputs are Direct's. -/
theorem realizationsAgreeInExactArithmetic : Obligations.RealizationsAgreeInExactArithmetic := fun c topo topo' xs =>
  (exactOutputs_eq_direct topo c xs).trans (exactOutputs_eq_direct topo' c xs).symm

/-- A signal's value `k` steps back, found in the list with the two zeros before the first value in front. -/
theorem getD_zeros_cons (l : List ℝ) {n k : Nat} (hk : k ≤ 2) :
    ((0 : ℝ) :: 0 :: l).getD (n + 2 - k) 0 = if k ≤ n then l.getD (n - k) 0 else 0 := by
  split
  · rw [show n + 2 - k = n - k + 2 by omega]
    rfl
  · have hbefore : n + 2 - k = 0 ∨ n + 2 - k = 1 := by omega
    rcases hbefore with e | e <;> (rw [e]; rfl)

/-- Settles O39: the outputs are Direct's (O38), and Direct computes the difference equation. -/
theorem realizationsHaveTheTransferFunction : Obligations.RealizationsHaveTheTransferFunction := by
  intro c topo xs n hn
  refine ⟨length_exactOutputs .., ?_⟩
  have h := exactOutputs_direct_equation c ⟨0, 0, 0, 0⟩ xs n hn
  rw [← exactOutputs_eq_direct topo] at h
  simp only [← getD_zeros_cons _ (Nat.zero_le 2), ← getD_zeros_cons _ one_le_two, ← getD_zeros_cons _ le_rfl]
  exact h

end Sys2Proof.Machine

/-! ## The coefficient generators (42_coefficient_generators.md) -/

namespace Sys2Proof

/-! ### Operands before and after widening (R170, R177) -/

/-- Widening neither makes nor loses a finite value. -/
theorem Fmt.isFinite_widen64 (T : Fmt) (k : Nat) (w : Word) : Fmt.isFinite .binary64 (T.widen64 k w) = T.isFinite w := by
  rcases T.unpack_cases w with ⟨-, hnan, hfin⟩ | ⟨⟨s, hinf⟩, -, hfin⟩ | ⟨-, -, hfin⟩ <;> rw [hfin]
  · exact Fmt.isFinite_of_isNaN _ (T.isNaN_widen64 k hnan)
  · rw [T.widen64_of_isInf k ((T.unpack_eq_inf_iff w s).1 hinf).1, Fmt.isFinite_infinity]
  · obtain ⟨m, hm, -, hwiden⟩ := T.widen64_of_isFinite k hfin
    rw [hwiden, Fmt.isFinite_pack _ _ (hm.trans (Fmt.infMag_lt _)), decide_eq_true hm]

/-- A finite pattern is above zero where its sign is 0 and its magnitude is not. -/
theorem Fmt.flt_zero_of_isFinite {T : Fmt} {w : Word} (h : T.isFinite w = true) :
    T.flt 0 w = (!T.sign w && decide (0 < T.mag w)) := by
  rw [Fmt.flt, T.unpack_zero, Fmt.unpack_of_isFinite h]
  cases T.sign w <;> simp [Val.lt, signedUnits, Nat.pos_iff_ne_zero]

namespace Machine

theorem positiveFinite_eq_positivePattern (v : Word) : positiveFinite v = positivePattern .binary64 v := by
  unfold positiveFinite positivePattern
  cases h : Fmt.isFinite .binary64 v with
  | false => simp
  | true => rw [Fmt.flt_zero_of_isFinite h, Bool.true_and, Bool.and_true]

/-- Widening keeps the sign of a finite value, and its magnitude becomes zero only from zero. -/
theorem positivePattern_widen64 (T : Fmt) (k : Nat) (w : Word) :
    positivePattern .binary64 (T.widen64 k w) = positivePattern T w := by
  unfold positivePattern
  rw [T.isFinite_widen64]
  cases h : T.isFinite w with
  | false => simp
  | true =>
    obtain ⟨m, hm, hunits, hwiden⟩ := T.widen64_of_isFinite k h
    have hlt := hm.trans (Fmt.infMag_lt .binary64)
    have hzero : m = 0 ↔ T.mag w = 0 := by
      simpa using congrArg (· = 0) hunits
    rw [hwiden, Fmt.sign_pack _ _ hlt, Fmt.mag_pack _ _ hlt]
    simp [Nat.pos_iff_ne_zero, hzero]

theorem State.wide_of_fits {s : State} {w : Word} (h : s.fmt.fits w = true) (k : Nat) :
    s.wide k w = s.fmt.widen64 k w := by
  rw [State.wide, State.opnd, Fmt.clip_of_fits _ h]

/-! ### Accepted and refused operands (R170, R177) -/

/-- A refused load on the whole state: BAD_ARGUMENT is cause 5, in the header's bits 7 to 4, over the status 2. -/
theorem raise_badArgument_eq (s : State) (opc : BitVec 8) :
    s.raise opc .badArgument =
      { s with flt := true, tx := s.tx ++ [⟨BitVec.ofNat 32 (opc.toNat * 2 ^ 24 + 0x52), none⟩] } := by
  rw [raise_eq, failHeader_eq]
  rfl

section
variable {s : State} {opc : BitVec 8} {base : Nat} {fs fc q : Word} (hfs : s.fmt.fits fs = true)
  (hfc : s.fmt.fits fc = true)
include hfs hfc

theorem firstOrderOk_wide (hopc : opc.toNat ∈ [0x10, 0x11, 0x12]) (k k' : Nat) :
    firstOrderOk (s.wide k fs) (s.wide k' fc) = !badArguments s.fmt opc.toNat [fs, fc] := by
  rw [badArguments, if_pos hopc, Bool.not_not]
  simp only [firstOrderOk, State.wide_of_fits hfs, State.wide_of_fits hfc, positiveFinite_eq_positivePattern,
    positivePattern_widen64, Fmt.isFinite_widen64]
  rfl

theorem secondOrderOk_wide (hq : s.fmt.fits q = true) (hopc : opc.toNat ∈ [0x18, 0x19, 0x1A]) (k k' k'' : Nat) :
    secondOrderOk (s.wide k fs) (s.wide k' fc) (s.wide k'' q) = !badArguments s.fmt opc.toNat [fs, fc, q] := by
  have hfirst : opc.toNat ∉ [0x10, 0x11, 0x12] := by
    simp only [List.mem_cons, List.not_mem_nil, or_false] at hopc ⊢
    omega
  rw [badArguments, if_neg hfirst, if_pos hopc, Bool.not_not]
  simp only [secondOrderOk, firstOrderOk, State.wide_of_fits hfs, State.wide_of_fits hfc, State.wide_of_fits hq,
    positiveFinite_eq_positivePattern, positivePattern_widen64, Fmt.isFinite_widen64]
  rfl

theorem runFirstOrder_of_accepted (f : Word → Word → Coeffs Word) (hopc : opc.toNat ∈ [0x10, 0x11, 0x12])
    (hok : badArguments s.fmt opc.toNat [fs, fc] = false) :
    runFirstOrder opc base f fs fc s = .next { s with
      c := roundSet s.fmt (base + 0xF0) (f (s.fmt.widen64 (base + 0xE0) fs) (s.fmt.widen64 (base + 0xE1) fc)),
      h := ⟨0, 0, 0, 0⟩, loaded := true,
      tx := s.tx ++ [⟨BitVec.ofNat 32 (opc.toNat * 2 ^ 24), none⟩] } := by
  have haccept : firstOrderOk (s.wide (base + 0xE0) fs) (s.wide (base + 0xE1) fc) = true := by
    rw [firstOrderOk_wide hfs hfc hopc, hok, Bool.not_false]
  rw [runFirstOrder, if_pos haccept, adopt_respond_eq, okHeader_eq, State.wide_of_fits hfs, State.wide_of_fits hfc,
    History.zero]

theorem runSecondOrder_of_accepted (f : Word → Word → Word → Coeffs Word) (hq : s.fmt.fits q = true)
    (hopc : opc.toNat ∈ [0x18, 0x19, 0x1A]) (hok : badArguments s.fmt opc.toNat [fs, fc, q] = false) :
    runSecondOrder opc base f fs fc q s = .next { s with
      c := roundSet s.fmt (base + 0xF0)
        (f (s.fmt.widen64 (base + 0xE0) fs) (s.fmt.widen64 (base + 0xE1) fc) (s.fmt.widen64 (base + 0xE2) q)),
      h := ⟨0, 0, 0, 0⟩, loaded := true,
      tx := s.tx ++ [⟨BitVec.ofNat 32 (opc.toNat * 2 ^ 24), none⟩] } := by
  have haccept :
      secondOrderOk (s.wide (base + 0xE0) fs) (s.wide (base + 0xE1) fc) (s.wide (base + 0xE2) q) = true := by
    rw [secondOrderOk_wide hfs hfc hq hopc, hok, Bool.not_false]
  rw [runSecondOrder, if_pos haccept, adopt_respond_eq, okHeader_eq, State.wide_of_fits hfs, State.wide_of_fits hfc,
    State.wide_of_fits hq, History.zero]

theorem runFirstOrder_of_refused (f : Word → Word → Coeffs Word) (hopc : opc.toNat ∈ [0x10, 0x11, 0x12])
    (hbad : badArguments s.fmt opc.toNat [fs, fc] = true) :
    runFirstOrder opc base f fs fc s = .next (s.raise opc .badArgument) := by
  have hrefuse : ¬ firstOrderOk (s.wide (base + 0xE0) fs) (s.wide (base + 0xE1) fc) = true := by
    rw [firstOrderOk_wide hfs hfc hopc, hbad]
    decide
  rw [runFirstOrder, if_neg hrefuse]

theorem runSecondOrder_of_refused (f : Word → Word → Word → Coeffs Word) (hq : s.fmt.fits q = true)
    (hopc : opc.toNat ∈ [0x18, 0x19, 0x1A]) (hbad : badArguments s.fmt opc.toNat [fs, fc, q] = true) :
    runSecondOrder opc base f fs fc q s = .next (s.raise opc .badArgument) := by
  have hrefuse :
      ¬ secondOrderOk (s.wide (base + 0xE0) fs) (s.wide (base + 0xE1) fc) (s.wide (base + 0xE2) q) = true := by
    rw [secondOrderOk_wide hfs hfc hq hopc, hbad]
    decide
  rw [runSecondOrder, if_neg hrefuse]

end

/-- Settles O44: on operands of `W` bits the check runs on widened values that are finite, and above zero, exactly where
the operands are. -/
theorem generatorsRefuseExactlyBadArguments : Obligations.GeneratorsRefuseExactlyBadArguments := by
  intro s i hopc hfits
  rw [← raise_badArgument_eq]
  cases i with
  | glpf1 fs fc | ghpf1 fs fc | gapf1 fs fc =>
    simp only [Instr.beats, List.forall_mem_cons] at hfits
    obtain ⟨hfs, hfc, -⟩ := hfits
    exact ⟨fun h => runFirstOrder_of_refused hfs hfc _ (by decide) h,
      fun h => ⟨_, runFirstOrder_of_accepted hfs hfc _ (by decide) h⟩⟩
  | glpf2 fs fc q | ghpf2 fs fc q | gapf2 fs fc q =>
    simp only [Instr.beats, List.forall_mem_cons] at hfits
    obtain ⟨hfs, hfc, hq, -⟩ := hfits
    exact ⟨fun h => runSecondOrder_of_refused hfs hfc _ hq (by decide) h,
      fun h => ⟨_, runSecondOrder_of_accepted hfs hfc _ hq (by decide) h⟩⟩
  | clr | setc | xform | stq | rdc | rds | rdstat => simp [Instr.opcode] at hopc

/-! ### The set of each generator (R171 to R176) -/

/-- Settles O45: accepted operands reach the formula widened, and that of R171 over `design64` is the rule's text in
binary64. -/
theorem glpf1LoadsTheFirstOrderLowPass : Obligations.Glpf1LoadsTheFirstOrderLowPass := by
  intro s fs fc hfs hfc hok
  exact (runFirstOrder_of_accepted (opc := 0x10) hfs hfc _ (by decide) hok).trans
    (by simp only [glpf1Formula, design64, design64With, Fmt.arith]; rfl)

/-- Settles O46: the formula of R172 over `design64` is the rule's text in binary64. -/
theorem ghpf1LoadsTheFirstOrderHighPass : Obligations.Ghpf1LoadsTheFirstOrderHighPass := by
  intro s fs fc hfs hfc hok
  exact (runFirstOrder_of_accepted (opc := 0x11) hfs hfc _ (by decide) hok).trans
    (by simp only [ghpf1Formula, design64, design64With, Fmt.arith]; rfl)

/-- Settles O47: the formula of R173 over `design64` is the rule's text in binary64. -/
theorem gapf1LoadsTheFirstOrderAllPass : Obligations.Gapf1LoadsTheFirstOrderAllPass := by
  intro s fs fc hfs hfc hok
  exact (runFirstOrder_of_accepted (opc := 0x12) hfs hfc _ (by decide) hok).trans
    (by simp only [gapf1Formula, design64, design64With, Fmt.arith]; rfl)

/-- Settles O48: the formula of R174 over `design64` is the rule's text in binary64. -/
theorem glpf2LoadsTheSecondOrderLowPass : Obligations.Glpf2LoadsTheSecondOrderLowPass := by
  intro s fs fc q hfs hfc hq hok
  exact (runSecondOrder_of_accepted (opc := 0x18) hfs hfc _ hq (by decide) hok).trans
    (by simp only [glpf2Formula, design64, design64With, Fmt.arith]; rfl)

/-- Settles O49: the formula of R175 over `design64` is the rule's text in binary64. -/
theorem ghpf2LoadsTheSecondOrderHighPass : Obligations.Ghpf2LoadsTheSecondOrderHighPass := by
  intro s fs fc q hfs hfc hq hok
  exact (runSecondOrder_of_accepted (opc := 0x19) hfs hfc _ hq (by decide) hok).trans
    (by simp only [ghpf2Formula, design64, design64With, Fmt.arith]; rfl)

/-- Settles O50: the formula of R176 over `design64` is the rule's text in binary64. -/
theorem gapf2LoadsTheSecondOrderAllPass : Obligations.Gapf2LoadsTheSecondOrderAllPass := by
  intro s fs fc q hfs hfc hq hok
  exact (runSecondOrder_of_accepted (opc := 0x1A) hfs hfc _ hq (by decide) hok).trans
    (by simp only [gapf2Formula, design64, design64With, Fmt.arith]; rfl)

/-! ### The designs in exact arithmetic (R178) -/

/-- Settles O51: a gain of 1 says that numerator and denominator have equal sums, a gain of 0 that the numerator's is 0.
That holds whatever the sine and the cosine give: `g`, `be` and `ga` may be any numbers. -/
theorem designsHaveTheStatedGains : Obligations.DesignsHaveTheStatedGains := by
  intro pi sin cos tan fs fc q
  refine ⟨fun h => (div_eq_one_iff_eq h).2 ?_, fun h => (div_eq_one_iff_eq h).2 ?_,
    fun h => (div_eq_one_iff_eq h).2 ?_, fun h => (div_eq_one_iff_eq h).2 ?_, div_eq_zero_iff.2 (.inl ?_),
    div_eq_zero_iff.2 (.inl ?_), ⟨rfl, rfl, rfl, rfl⟩, rfl, rfl, rfl⟩
  · -- R171: both sums are `1 - g`
    simp only [glpf1Formula, exactDesign, exactArith]
    ring
  · -- R174: both sums are `2 * m = 1 + 2 * be - 2 * ga`
    simp only [glpf2Formula, exactDesign, exactArith]
    ring
  · -- R172: both alternating sums are `1 + g`
    simp only [ghpf1Formula, exactDesign, exactArith]
    ring
  · -- R175: both alternating sums are `2 * m = 1 + 2 * be + 2 * ga`
    simp only [ghpf2Formula, exactDesign, exactArith]
    ring
  · -- R172: `h - h`
    simp only [ghpf1Formula, exactDesign, exactArith]
    ring
  · -- R175: `al - 2 * al + al`
    simp only [ghpf2Formula, exactDesign, exactArith]
    ring

section
variable {w : ℂ} (hw : ‖w‖ = 1)
include hw

/-- On the unit circle a real polynomial of degree 2 is as large as its reverse, which is `w²` times its conjugate. -/
theorem norm_quadratic_reversed (b1 b2 : ℝ) : ‖(b2 + b1 * w + w ^ 2 : ℂ)‖ = ‖1 + b1 * w + b2 * w ^ 2‖ := by
  have hconj : w * (starRingEnd ℂ) w = 1 := by simp [Complex.mul_conj', hw]
  have hreverse : (1 + b1 * w + b2 * w ^ 2 : ℂ) = w ^ 2 * (starRingEnd ℂ) (b2 + b1 * w + w ^ 2) := by
    simp only [map_add, map_mul, map_pow, Complex.conj_ofReal]
    linear_combination -(b1 * w + w * (starRingEnd ℂ) w + 1) * hconj
  rw [hreverse, norm_mul, norm_pow, hw, one_pow, one_mul, RCLike.norm_conj]

/-- So is one of degree 1: `w` times it is of degree 2. -/
theorem norm_linear_reversed (b : ℝ) : ‖(b + w : ℂ)‖ = ‖1 + b * w‖ := by
  have h := norm_quadratic_reversed hw b 0
  have hfactor : (0 : ℝ) + b * w + w ^ 2 = (b + w : ℂ) * w := by push_cast; ring
  rw [hfactor, norm_mul, hw, mul_one] at h
  simpa using h

end

/-- Settles O52: each all-pass's numerator is its denominator reversed (O51), a polynomial in `z⁻¹` with real
coefficients. -/
theorem allPassesHaveUnitMagnitude : Obligations.AllPassesHaveUnitMagnitude := by
  intro pi sin cos tan fs fc q z hz
  obtain ⟨-, -, -, -, -, -, ⟨ha0, ha1, ha2, hb2⟩, ha0', ha1', ha2'⟩ :=
    designsHaveTheStatedGains pi sin cos tan fs fc q
  have hw : ‖z⁻¹‖ = 1 := by rw [norm_inv, hz, inv_one]
  generalize z⁻¹ = w at hw
  dsimp only
  constructor
  · rw [ha0, ha1, ha2, hb2]
    simpa using norm_linear_reversed hw _
  · rw [ha0', ha1', ha2']
    simpa using norm_quadratic_reversed hw _ _

end Machine
end Sys2Proof

/-! ## Failed commands and their causes (60_exceptions.md) -/

namespace Sys2Proof.Machine

/-- Settles O14: a step that answers INVALID_STATE refused the header or ran a command that failed, and both are the one
error operation. -/
theorem aFailedCommandChangesFltOnly : Obligations.AFailedCommandChangesFltOnly := by
  intro s t r hw h htx hr
  rcases step_words hw h with ⟨opc, cause, rest, -, rfl⟩ | ⟨i, rest, -, hexec⟩
  · obtain rfl : ⟨failHeader opc cause, none⟩ = r := by simpa using htx
    exact ⟨rfl, rfl⟩
  · rcases exec_fails_or_answers i (s.consume rest) with ⟨cause, e⟩ | ⟨u, b, e, hok, -⟩ <;>
      obtain rfl := Host.Outcome.next.inj (e.symm.trans hexec)
    · obtain rfl : ⟨failHeader i.opcode cause, none⟩ = r := by simpa using htx
      exact ⟨rfl, rfl⟩
    · obtain rfl : ⟨okHeader i.opcode, b⟩ = r := by simpa [hok] using htx
      simp at hr

/-! ### The first cause that applies (R203) -/

theorem nin_eq_none_iff (opc : BitVec 8) : nin opc = none ↔ opc.toNat ∉ legalOpcodes := by
  revert opc
  decide +kernel

/-- R203's order as the block finds the causes: the decoder those of the opcode and of the header, the command its own. -/
theorem firstCause_eq (T : Fmt) (loaded : Bool) (hdr : Header) (beats : List Word) :
    firstCause T loaded hdr beats =
      if nin (opcField hdr) = none then some .illegalOpcode
      else (headerError hdr).or
        (if (opcField hdr).toNat ∈ [0x03, 0x04, 0x05] ∧ loaded = false then some .notLoaded
        else if badArguments T (opcField hdr).toNat beats = true then some .badArgument
        else none) := by
  have hrange : (idxField hdr).toNat ∈ [7, 8, 9, 10, 11, 12, 13, 14, 15] ↔ 6 < (idxField hdr).toNat := by
    have := (idxField hdr).isLt
    simp only [List.mem_cons, List.not_mem_nil, or_false]
    omega
  have hindexed : (opcField hdr).toNat ∉ [5, 6] ↔ (opcField hdr).toNat ≠ 5 ∧ (opcField hdr).toNat ≠ 6 := by simp
  simp only [firstCause, nin_eq_none_iff, headerError, hrange, hindexed]
  grind

/-- `t` is the answer on `s` to a transaction with opcode `opc`: the one error operation when it has a cause, else one OK
response with `FLT` left as it is. -/
def State.Answers (s t : State) (opc : BitVec 8) : Option Cause → Prop
  | some cause => t = s.raise opc cause
  | none => ∃ beat, t.tx = s.tx ++ [⟨okHeader opc, beat⟩] ∧ t.flt = s.flt

theorem exec_generator_answers {i : Instr} {s : State}
    (hopc : i.opcode.toNat ∈ [0x10, 0x11, 0x12, 0x18, 0x19, 0x1A]) (hfits : ∀ w ∈ i.beats, s.fmt.fits w = true) :
    ∃ t, exec i s = .next t ∧
      s.Answers t i.opcode (if badArguments s.fmt i.opcode.toNat i.beats = true then some .badArgument else none) := by
  obtain ⟨hrefused, haccepted⟩ := generatorsRefuseExactlyBadArguments s i hopc hfits
  cases hbad : badArguments s.fmt i.opcode.toNat i.beats with
  | true => exact ⟨_, hrefused hbad, (raise_badArgument_eq s i.opcode).symm⟩
  | false =>
    obtain ⟨c, e⟩ := haccepted hbad
    exact ⟨_, e, none, by rw [okHeader_eq], rfl⟩

/-- A command that passed the decoder answers with the first cause that its transaction has. -/
theorem exec_answers_firstCause {i : Instr} {s : State} (hwf : i.wellFormed s.fmt = true) :
    ∃ t, exec i s = .next t ∧ s.Answers t i.opcode (firstCause s.fmt s.loaded (encodeHeader i) i.beats) := by
  obtain ⟨hidx, hfits⟩ := (i.wellFormed_iff s.fmt).1 hwf
  obtain ⟨hnin, -, hcheck⟩ := encoding_statement i
  rw [firstCause_eq, hcheck hidx, opcField_encodeHeader, hnin, if_neg (Option.some_ne_none _), Option.none_or]
  cases i with
  | clr | setc | rdstat => exact ⟨_, rfl, _, rfl, rfl⟩
  | rds k =>
    have hk : k.toNat ≤ 3 := of_decide_eq_true hidx
    obtain ⟨v, hv⟩ := Option.ne_none_iff_exists'.1 fun e : s.h.get k = none => (History.get_eq_none e).not_ge hk
    exact ⟨_, exec_rds_of_get hv, _, rfl, rfl⟩
  | xform x =>
    cases hl : s.loaded with
    | false => exact ⟨_, exec_xform_of_not_loaded hl x, rfl⟩
    | true => exact ⟨_, exec_xform_of_loaded hl x, _, rfl, rfl⟩
  | stq =>
    cases hl : s.loaded with
    | false => exact ⟨_, exec_stq_of_not_loaded hl, rfl⟩
    | true => exact ⟨_, exec_stq_of_loaded hl, _, rfl, rfl⟩
  | rdc k =>
    have hk : k.toNat ≤ 6 := of_decide_eq_true hidx
    cases hl : s.loaded with
    | false => exact ⟨_, exec_rdc_of_not_loaded hl k, by rw [if_neg hk.not_gt]; rfl⟩
    | true =>
      obtain ⟨v, hv⟩ := Option.ne_none_iff_exists'.1 fun e : s.c.get k = none => (Coeffs.get_eq_none e).not_ge hk
      exact ⟨_, exec_rdc_of_get hl hv, _, rfl, rfl⟩
  | glpf1 | ghpf1 | gapf1 | glpf2 | ghpf2 | gapf2 => exact exec_generator_answers (by simp [Instr.opcode]) hfits

/-- A whole transaction, its header refused or its command run, answers with the first cause that it has. -/
theorem step_answers_firstCause {s : State} {hdr : Header} {beats : List Word} {rest : List PortEvent}
    (hrx : s.rx = .narrow hdr :: (beats.map (beatEvent s.fmt) ++ rest))
    (hlen : (nin (opcField hdr)).getD 0 = beats.length) (hfits : ∀ w ∈ beats, s.fmt.fits w = true) :
    ∃ t, step s = .next t ∧
      (s.consume rest).Answers t (opcField hdr) (firstCause s.fmt s.loaded hdr beats) := by
  cases hnin : nin (opcField hdr) with
  | none =>
    obtain rfl : beats = [] := List.eq_nil_of_length_eq_zero (by rw [← hlen, hnin]; rfl)
    exact ⟨_, step_of_illegalOpcode hrx hnin, by rw [firstCause_eq, if_pos hnin]; rfl⟩
  | some n =>
    obtain rfl : n = beats.length := by rw [← hlen, hnin]; rfl
    cases herr : headerError hdr with
    | some cause =>
      refine ⟨_, step_of_headerError hrx (by rw [hnin, List.length_map]) ?_ herr, ?_⟩
      · simp [isWord, beatEvent_ne_reset]
      · rw [firstCause_eq, hnin, if_neg (Option.some_ne_none _), herr]
        rfl
    | none =>
      obtain ⟨i, -, hopc, rfl, hidx⟩ := build_of_nin (idxField hdr) hnin
      obtain ⟨rfl, hlegal⟩ := encodeHeader_eq_of_headerError herr hopc hidx
      have hwf : i.wellFormed s.fmt = true := (i.wellFormed_iff s.fmt).2 ⟨hlegal, hfits⟩
      have hdec : decode s.fmt s.draw s.rx = .run i rest := by rw [hrx]; exact decode_encode s.fmt s.draw rest hwf
      have hstep : step s = exec i (s.consume rest) := by simp only [step, hdec]
      rw [hstep, opcField_encodeHeader]
      exact exec_answers_firstCause hwf

/-- Settles O15: the decoder's checks and then the command's find the causes in R203's order, and every failure is the one
error operation. -/
theorem theFirstCauseThatAppliesIsReported : Obligations.TheFirstCauseThatAppliesIsReported := by
  intro s hdr beats rest hrx hlen hfits
  obtain ⟨t, hstep, hanswers⟩ := step_answers_firstCause hrx hlen hfits
  cases hcause : firstCause s.fmt s.loaded hdr beats with
  | some cause =>
    rw [hcause] at hanswers
    obtain rfl : t = (s.consume rest).raise (opcField hdr) cause := hanswers
    refine ⟨_, none, hstep, ?_, fun _ => ⟨rfl, rfl, rfl, rfl, rfl⟩, nofun⟩
    rw [State.raise_tx, failHeader_eq]
    rfl
  | none =>
    rw [hcause] at hanswers
    obtain ⟨beat, htx, hflt⟩ := hanswers
    exact ⟨t, beat, hstep, by rw [htx, okHeader_eq]; rfl, absurd rfl, fun _ => hflt⟩

end Sys2Proof.Machine

/-! ## Reset and hazards (70_reset_and_hazards.md) -/

namespace Sys2Proof.Machine

/-! ### Hardware reset (R230) -/

/-- A reset behind the words of an incomplete transaction is taken, and the transaction with it. -/
theorem step_of_reset_in_transaction {s : State} {hdr : Header} {words rest : List PortEvent} {n : Nat}
    (hrx : s.rx = .narrow hdr :: (words ++ .reset :: rest)) (hnin : nin (opcField hdr) = some n)
    (hlt : words.length < n) (hw : ∀ e ∈ words, isWord e = true) : step s = .next (s.consume rest).hwReset := by
  have htake := takeBeats_reset s.fmt words rest n (s.draw + 1) (fun e he => ne_reset_of_isWord (hw e he)) hlt
  have hdec : decode s.fmt s.draw s.rx = .reset rest := by
    simp [hrx, decode, decodeFrom, PortEvent.asHeader, hnin, htake]
  simp only [step, hdec]

/-- Settles O10: whether words of a transaction stand before it or none, the step is the reset's; without a reset the flags
are sticky. -/
theorem hardwareResetRestoresTheStatedValues : Obligations.HardwareResetRestoresTheStatedValues := by
  refine ⟨fun topo T => ⟨rfl, rfl, rfl⟩, fun s before rest hrx hbefore => ?_, fun s t => step_keeps_flags⟩
  have hstep : step s = .next (s.consume rest).hwReset := by
    rcases hbefore with rfl | ⟨hdr, words, n, rfl, hnin, hlt, hw⟩
    · exact step_of_reset hrx
    · exact step_of_reset_in_transaction hrx hnin hlt hw
  exact ⟨_, hstep, rfl, rfl, rfl, rfl, rfl, rfl, rfl⟩

end Sys2Proof.Machine

namespace Sys2Proof

/-! ### Operations with an operand that is not finite (00_scope.md R17) -/

section
variable {T : Fmt} {k : Nat} {a b : Word} (h : T.isFinite a = false ∨ T.isFinite b = false)
include h

theorem Fmt.fadd_not_isFinite : T.isFinite (T.fadd k a b) = false := by
  rw [T.isFinite_eq_isFin a, T.isFinite_eq_isFin b] at h
  exact T.addVal_nonfinite (T.nanResult_nonfinite ..) h

theorem Fmt.fsub_not_isFinite : T.isFinite (T.fsub k a b) = false := by
  rw [T.isFinite_eq_isFin a, T.isFinite_eq_isFin b, ← Val.isFin_neg (T.unpack b)] at h
  exact T.addVal_nonfinite (T.nanResult_nonfinite ..) h

theorem Fmt.fmul_not_isFinite : T.isFinite (T.fmul k a b) = false := by
  rw [T.isFinite_eq_isFin a, T.isFinite_eq_isFin b] at h
  exact T.mulVal_nonfinite (T.nanResult_nonfinite ..) h

end

/-- The snap hides no value that is not finite (00_scope.md R19). -/
theorem Fmt.snap_not_isFinite {T : Fmt} {v : Word} (h : T.isFinite v = false) : T.isFinite (T.snap v) = false := by
  rw [Fmt.snap_of_not_isFinite h, h]

end Sys2Proof

namespace Sys2Proof.Machine

/-! ### Registers that are not finite, through each realization (R241; 41_transform.md R141 to R144) -/

section
variable {T : Fmt} {c : Coeffs Word} {h : History Word} {x : Word}

open Fmt

/-- Every register of Direct is a factor of a term of the output. -/
theorem directStep_not_isFinite (hh : ∃ w ∈ h.toList, T.isFinite w = false) :
    T.isFinite (directStep T.arith c h x).1 = false := by
  obtain ⟨w, hw, hfin⟩ := hh
  simp only [History.toList, List.mem_cons, List.not_mem_nil, or_false] at hw
  have hprod : ∀ k a, T.isFinite (T.fmul k a w) = false := fun _ _ => fmul_not_isFinite (.inr hfin)
  rcases hw with rfl | rfl | rfl | rfl
  · exact fsub_not_isFinite (.inl (fsub_not_isFinite (.inl (fadd_not_isFinite (.inl
      (fadd_not_isFinite (.inr (hprod ..))))))))
  · exact fsub_not_isFinite (.inl (fsub_not_isFinite (.inl (fadd_not_isFinite (.inr (hprod ..))))))
  · exact fsub_not_isFinite (.inl (fsub_not_isFinite (.inr (hprod ..))))
  · exact fsub_not_isFinite (.inr (hprod ..))

/-- Direct keeps its output in its history. -/
theorem directStep_fst_mem {α : Type} (A : Arith α) (c : Coeffs α) (h : History α) (x : α) :
    (directStep A c h x).1 ∈ (directStep A c h x).2.toList := by
  simp [History.toList, directStep]

/-- Both registers of Canonical are factors of terms of `theta`, the new `H[0]`. -/
theorem canonicalStep_theta_not_isFinite (hh : T.isFinite h.x_z1 = false ∨ T.isFinite h.x_z2 = false) :
    T.isFinite (canonicalStep T.arith c h x).2.x_z1 = false :=
  fsub_not_isFinite (hh.imp (fun h1 => fsub_not_isFinite (.inr (fmul_not_isFinite (.inr h1))))
    fun h2 => fmul_not_isFinite (.inr h2))

/-- The output of Canonical is a sum with `a0` times `theta`. -/
theorem canonicalStep_not_isFinite (htheta : T.isFinite (canonicalStep T.arith c h x).2.x_z1 = false) :
    T.isFinite (canonicalStep T.arith c h x).1 = false :=
  fadd_not_isFinite (.inl (fadd_not_isFinite (.inl (fmul_not_isFinite (.inr htheta)))))

/-- The output of Direct-Transpose is `a0` times `theta` plus `H[0]`, and `theta` a sum with `H[2]`. -/
theorem directTransposeStep_not_isFinite (hh : T.isFinite h.x_z1 = false ∨ T.isFinite h.y_z1 = false) :
    T.isFinite (directTransposeStep T.arith c h x).1 = false :=
  fadd_not_isFinite (hh.symm.imp_left fun hy => fmul_not_isFinite (.inr (fadd_not_isFinite (.inr hy))))

/-- The new `H[0]` of Direct-Transpose is a sum with `H[1]`. -/
theorem directTransposeStep_x_z1_not_isFinite (hh : T.isFinite h.x_z2 = false) :
    T.isFinite (directTransposeStep T.arith c h x).2.x_z1 = false := fadd_not_isFinite (.inl hh)

/-- The new `H[2]` of Direct-Transpose is `H[3]` less a multiple of `theta`. -/
theorem directTransposeStep_y_z1_not_isFinite (hh : T.isFinite h.y_z1 = false ∨ T.isFinite h.y_z2 = false) :
    T.isFinite (directTransposeStep T.arith c h x).2.y_z1 = false :=
  fsub_not_isFinite (hh.symm.imp_right fun hy => fmul_not_isFinite (.inr (fadd_not_isFinite (.inr hy))))

/-- The output of Canonical-Transpose is a sum with `H[0]`. -/
theorem canonicalTransposeStep_not_isFinite (hh : T.isFinite h.x_z1 = false) :
    T.isFinite (canonicalTransposeStep T.arith c h x).1 = false := fadd_not_isFinite (.inr hh)

/-- The new `H[0]` of Canonical-Transpose is a sum with a multiple of the output and with `H[1]`. -/
theorem canonicalTransposeStep_x_z1_not_isFinite (hh : T.isFinite h.x_z1 = false ∨ T.isFinite h.x_z2 = false) :
    T.isFinite (canonicalTransposeStep T.arith c h x).2.x_z1 = false :=
  fadd_not_isFinite (hh.imp_left fun h1 => fsub_not_isFinite (.inr (fmul_not_isFinite (.inr
    (canonicalTransposeStep_not_isFinite h1)))))

end

/-- Of the state XFORM on a loaded block writes the history and the responses (R140); the operand is the beat's `W` bits. -/
theorem exec_xform_eq {s : State} (h : s.loaded = true) (x : Word) :
    exec (.xform x) s = .next { s with
      h := (s.filter (s.opnd x)).2, tx := s.tx ++ [⟨0x03000000, some (s.fmt.snap (s.filter (s.opnd x)).1)⟩] } := by
  have hheader : okHeader 0x03 = 0x03000000 := by decide
  rw [exec_xform_of_loaded h, ← hheader]
  rfl

/-! ### Fed-back registers (R241, first two lines) -/

/-- A fed-back register that is not finite makes the output so, and leaves a fed-back register that is not finite. -/
theorem filter_of_feedsBack {s : State} (h : feedsBack s = true) (x : Word) :
    s.fmt.isFinite (s.filter x).1 = false ∧ feedsBack (s.setHistory (s.filter x).2) = true := by
  simp only [feedsBack, State.filter, State.setHistory_topo, State.setHistory_fmt, State.setHistory_h] at h ⊢
  cases htopo : s.topo <;> simp only [htopo, filterStep] at h ⊢
  case direct =>
    have hy : s.fmt.isFinite (directStep s.fmt.arith s.c s.h x).1 = false := directStep_not_isFinite (by simpa using h)
    exact ⟨hy, List.any_eq_true.2 ⟨_, directStep_fst_mem .., by rw [hy]; rfl⟩⟩
  case canonical =>
    have htheta := canonicalStep_theta_not_isFinite (c := s.c) (x := x) (by simpa using h)
    exact ⟨canonicalStep_not_isFinite htheta, by simp [htheta]⟩
  case directTranspose =>
    have hy1 : s.fmt.isFinite s.h.y_z1 = false := by simpa using h
    exact ⟨directTransposeStep_not_isFinite (.inr hy1), by simp [directTransposeStep_y_z1_not_isFinite (.inl hy1)]⟩
  case canonicalTranspose =>
    have hx1 : s.fmt.isFinite s.h.x_z1 = false := by simpa using h
    exact ⟨canonicalTransposeStep_not_isFinite hx1, by simp [canonicalTransposeStep_x_z1_not_isFinite (.inl hx1)]⟩

/-- A second state of a transposed recursive section that is not finite leaves a first state that is not finite. -/
theorem filter_of_feedsBackLater {s : State} (h : feedsBackLater s = true) (x : Word) :
    feedsBack (s.setHistory (s.filter x).2) = true := by
  simp only [feedsBackLater, feedsBack, State.filter, State.setHistory_topo, State.setHistory_fmt,
    State.setHistory_h] at h ⊢
  cases htopo : s.topo <;> simp only [htopo, filterStep] at h ⊢
  case direct | canonical => cases h
  case directTranspose => simp [directTransposeStep_y_z1_not_isFinite (.inr (by simpa using h))]
  case canonicalTranspose => simp [canonicalTransposeStep_x_z1_not_isFinite (.inr (by simpa using h))]

/-- Settles O37: the output that is not finite passes the snap, and the new history is the step's. -/
theorem nonFiniteHistoryPersists : Obligations.NonFiniteHistoryPersists := by
  intro s x hl
  refine ⟨_, _, exec_xform_eq hl x, rfl, fun h => ?_, fun h => filter_of_feedsBackLater h _⟩
  obtain ⟨hout, hhist⟩ := filter_of_feedsBack h (s.opnd x)
  exact ⟨Fmt.snap_not_isFinite hout, hhist⟩

/-! ### The feed-forward states of Direct-Transpose (R241, third line; 41_transform.md R143) -/

/-- The new history of Direct-Transpose does not depend on `H[0]`. -/
theorem directTransposeStep_snd_congr {α : Type} (A : Arith α) (c : Coeffs α) {h h' : History α} (x : α)
    (hx2 : h.x_z2 = h'.x_z2) (hy1 : h.y_z1 = h'.y_z1) (hy2 : h.y_z2 = h'.y_z2) :
    (directTransposeStep A c h x).2 = (directTransposeStep A c h' x).2 := by
  simp only [directTransposeStep, hx2, hy1, hy2]

/-- XFORM of a loaded Direct-Transpose block is R143's step on the beat's `W` bits. -/
theorem exec_xform_directTranspose {s : State} (hl : s.loaded = true) (htopo : s.topo = .directTranspose) (x : Word) :
    exec (.xform x) s = .next { s with
      h := (directTransposeStep s.fmt.arith s.c s.h (s.fmt.clip x)).2,
      tx := s.tx ++
        [⟨0x03000000, some (s.fmt.snap (directTransposeStep s.fmt.arith s.c s.h (s.fmt.clip x)).1)⟩] } := by
  rw [exec_xform_eq hl, State.filter, htopo]
  rfl

/-- Settles O59: `H[0]` is a term of the output and is read nowhere else, and `H[1]` is a term of the next `H[0]` alone. -/
theorem feedForwardStatesLeaveAfterTwoSteps : Obligations.FeedForwardStatesLeaveAfterTwoSteps := by
  intro s x x' h0 h1 hl htopo
  refine ⟨_, _, _, _, _, _, exec_xform_directTranspose hl htopo x, rfl,
    exec_xform_directTranspose (by exact hl) (by exact htopo) x', rfl, fun hx1 => ?_, fun hx2 => ?_,
    exec_xform_directTranspose (by exact hl) (by exact htopo) x,
    exec_xform_directTranspose (by exact hl) (by exact htopo) x', fun hx2 => ?_, ?_⟩
  · exact Fmt.snap_not_isFinite (directTransposeStep_not_isFinite (.inl hx1))
  · exact Fmt.snap_not_isFinite (directTransposeStep_not_isFinite (.inl (directTransposeStep_x_z1_not_isFinite hx2)))
  · exact directTransposeStep_snd_congr _ _ _ hx2 rfl rfl
  · exact directTransposeStep_snd_congr _ _ _ rfl rfl rfl

end Sys2Proof.Machine
